-- ==== Sys2Proof/Word.lean ====
section
/-! DEFINITION. The word types of the engine: every quantity is unsigned (00_scope.md R11). -/

namespace Sys2Proof

/-- A byte: a frame byte, a response byte, a data-memory unit (00_scope.md R11). -/
abbrev Byte := BitVec 8

/-- Sixteen bits: an address, a count, a program-memory unit (00_scope.md R7). -/
abbrev Half := BitVec 16

/-- Thirty-two bits: RESULT, and a frame written as one number (10_state.md R26, 00_scope.md R11). -/
abbrev Word := BitVec 32

end Sys2Proof
end

