-- ==== Sys2Proof/Config.lean ====
section
/-! DEFINITION. What is fixed for one engine: the two regions, the wait kinds, the open parameters of 00_scope.md R8, and
the free values (constants without a body: nothing can evaluate them). -/

namespace Sys2Proof

/-- The two memory regions, program memory and data memory (20_memory.md R51, R52). -/
inductive Region where
  | prog
  | eep
  deriving DecidableEq, Repr

/-- The kinds of settle wait (60_exceptions.md R231). -/
inductive WaitKind where
  | reset
  | wrProg
  | wrEep
  | erase
  | fuse
  | lock
  deriving DecidableEq, Repr

/-- One pair of RESET_SEQ: the level to drive (`true` is 1, released) and whether `wait(RESET)` follows (41_mode.md R171). -/
structure PulseStep where
  level : Bool
  settle : Bool
  deriving DecidableEq, Repr

/-- RESET_SEQ. It is not empty and its last level is 0 (41_mode.md R171), so it is written as the pairs before the last one
and the last pair's wait: no sequence that breaks these two constraints can be built. The last wait may be `none`, as that of any
pair, although R171 says the line has settled when the enable frame is sent: that is the model's choice (log 25). -/
structure ResetSeq where
  before : List PulseStep
  lastSettle : Bool
  deriving DecidableEq, Repr

/-- The pairs of RESET_SEQ in order (41_mode.md R171). -/
def ResetSeq.steps (q : ResetSeq) : List PulseStep :=
  q.before ++ [{ level := false, settle := q.lastSettle }]

/-- The opcode of a fuse-read frame: exactly 0x50 and 0x58 are used (44_ancillary.md R211), so no other can be written. -/
inductive FuseOpcode where
  | x50
  | x58
  deriving DecidableEq, Repr

/-- The opcode byte. -/
def FuseOpcode.byte : FuseOpcode → Byte
  | .x50 => 0x50
  | .x58 => 0x58

/-- One entry of FUSE_RD: the opcode and the selector byte of a fuse-read frame (00_scope.md R8). -/
structure FuseSel where
  opcode : FuseOpcode
  hi : Byte
  deriving DecidableEq, Repr

/-- FUSE_RD: which frame reads which fuse byte (00_scope.md R8, 44_ancillary.md R211). -/
structure FuseTable where
  low : FuseSel
  high : FuseSel
  ext : FuseSel
  deriving DecidableEq, Repr

/-- What the spec says of any table: both opcodes are used and the reads are told apart by the selector (44_ancillary.md R211), and
none is the image of READ_LOCK, from which a 0x58 read differs in byte 1 (40_codec.md R162; log 6). The machine runs with
any table; only the claim that every frame has one meaning needs this. -/
abbrev FuseTable.WellFormed (f : FuseTable) : Prop :=
  ¬(f.low.opcode = f.high.opcode ∧ f.high.opcode = f.ext.opcode) ∧
  f.low ≠ f.high ∧ f.high ≠ f.ext ∧ f.low ≠ f.ext ∧
  f.low ≠ ⟨.x58, 0x00⟩ ∧ f.high ≠ ⟨.x58, 0x00⟩ ∧ f.ext ≠ ⟨.x58, 0x00⟩

/-- The default FUSE_RD of 44_ancillary.md R211. -/
def FuseTable.default : FuseTable :=
  { low := ⟨.x50, 0x00⟩, high := ⟨.x58, 0x08⟩, ext := ⟨.x50, 0x08⟩ }

/-- The open parameters (00_scope.md R8). A duration is its number of timer ticks (10_state.md R30). -/
structure Params where
  resetSeq : ResetSeq
  fuseRd : FuseTable
  busyBit : Fin 8
  tReset : Nat
  tWrProg : Nat
  tWrEep : Nat
  tErase : Nat
  tFuse : Nat
  tLock : Nat
  deriving DecidableEq, Repr

/-- The tick count of `T_k` (10_state.md R30). -/
def Params.ticks (p : Params) : WaitKind → Nat
  | .reset => p.tReset
  | .wrProg => p.tWrProg
  | .wrEep => p.tWrEep
  | .erase => p.tErase
  | .fuse => p.tFuse
  | .lock => p.tLock

/-- The defaults of 00_scope.md R8; a duration has none and is one tick here. DESIGN CHOICE, unsafe (log 6). -/
def Params.default : Params :=
  { resetSeq := { before := [], lastSettle := true }, fuseRd := FuseTable.default, busyBit := 0,
    tReset := 1, tWrProg := 1, tWrEep := 1, tErase := 1, tFuse := 1, tLock := 1 }

/-- The registers 10_state.md R34 leaves unspecified after a hardware reset, as one record, so that one free value gives them all. -/
structure Unspecified where
  resp0 : Byte
  resp1 : Byte
  resp2 : Byte
  resp3 : Byte
  result : Word
  op : Byte
  addr : Half
  count : Half
  d0 : Byte
  d1 : Byte
  d2 : Byte
  d3 : Byte
  pa : Half
  k : Half
  i : BitVec 5
  bi : BitVec 2
  ppbVal : Vector Half 16
  deriving DecidableEq, Repr, Inhabited

/-- FREE VALUE: the byte the transport returns at draw `n` where nothing else determines it (60_exceptions.md R223; log 2). -/
opaque Config.freeRx : Nat → Byte

/-- FREE VALUE: element `j` of a host value buffer that has no element `j`, at draw `n` (log 12). -/
opaque Config.freeUnit : (n j : Nat) → Half

/-- FREE VALUE: the unspecified registers after a hardware reset at draw `n` (10_state.md R34; log 5). -/
opaque Config.freeRegisters : Nat → Unspecified

end Sys2Proof
end

