-- ==== Sys2Proof/Syntax.lean ====
section
/-! DEFINITION. The instructions: one constructor per row of spec/opcode_table.json, the 22 command frames (40_codec.md R144 to R165)
and the 15 host operations (30_encoding.md R97). A host operation has no operand here: its operands travel in the host
registers (10_state.md R27). A frame that carries an address has the 16-bit address of its rule. -/

namespace Sys2Proof

inductive Instr where
  | progEnable
  | chipErase
  | loadProgLo (a : Half) (d : Byte)
  | loadProgHi (a : Half) (d : Byte)
  | commitProg (a : Half)
  | readProgLo (a : Half)
  | readProgHi (a : Half)
  | loadEep (a : Half) (d : Byte)
  | commitEep (a : Half)
  | readEep (a : Half)
  | writeEepByte (a : Half) (d : Byte)
  | readLock
  | writeLock (d : Byte)
  | readSig (s : BitVec 2)
  | writeFuseLo (d : Byte)
  | writeFuseHi (d : Byte)
  | writeFuseExt (d : Byte)
  | readFuseLo
  | readFuseHi
  | readFuseExt
  | readCal (s : BitVec 1)
  | pollBusy
  | enter
  | exit
  | erase
  | poll
  | wrprog
  | wreep
  | rdprog
  | rdeep
  | rdlock
  | wrlock
  | rdsig
  | wrfuse
  | rdfuse
  | rdcal
  | xchg
  deriving DecidableEq, Repr

/-- Whether the instruction is a command frame (format FRAME4) rather than a host operation (format HOSTOP). -/
def Instr.isFrame : Instr → Bool
  | .progEnable | .chipErase | .loadProgLo _ _ | .loadProgHi _ _ | .commitProg _ | .readProgLo _ | .readProgHi _
  | .loadEep _ _ | .commitEep _ | .readEep _ | .writeEepByte _ _ | .readLock | .writeLock _ | .readSig _
  | .writeFuseLo _ | .writeFuseHi _ | .writeFuseExt _ | .readFuseLo | .readFuseHi | .readFuseExt | .readCal _
  | .pollBusy => true
  | .enter | .exit | .erase | .poll | .wrprog | .wreep | .rdprog | .rdeep | .rdlock | .wrlock | .rdsig | .wrfuse
  | .rdfuse | .rdcal | .xchg => false

/-- Whether the operation "needs Programming" (30_encoding.md R97): the guard of 41_mode.md R170 applies to it. -/
def Instr.guarded : Instr → Bool
  | .erase | .poll | .wrprog | .wreep | .rdprog | .rdeep | .rdlock | .wrlock | .rdsig | .wrfuse | .rdfuse | .rdcal
  | .xchg => true
  | .enter | .exit | .progEnable | .chipErase | .loadProgLo _ _ | .loadProgHi _ _ | .commitProg _ | .readProgLo _
  | .readProgHi _ | .loadEep _ _ | .commitEep _ | .readEep _ | .writeEepByte _ _ | .readLock | .writeLock _
  | .readSig _ | .writeFuseLo _ | .writeFuseHi _ | .writeFuseExt _ | .readFuseLo | .readFuseHi | .readFuseExt
  | .readCal _ | .pollBusy => false

end Sys2Proof
end

