-- ==== Sys2Proof/WellFormed.lean ====
section
/-! DEFINITION. Well-formed instructions: a frame's address is already masked to the field its image has (20_memory.md R55), so
that it has exactly one encoding. Every other operand is exactly as wide as its field. -/

namespace Sys2Proof

/-- The address is an in-page offset, a page address or a whole address of its region (20_memory.md R54; log 18). -/
def Instr.wellFormed : Instr → Bool
  | .loadProgLo a _ | .loadProgHi a _ => a &&& 0x000F == a
  | .commitProg a => a &&& 0x03F0 == a
  | .readProgLo a | .readProgHi a => a &&& 0x03FF == a
  | .loadEep a _ => a &&& 0x0003 == a
  | .commitEep a => a &&& 0x007C == a
  | .readEep a | .writeEepByte a _ => a &&& 0x007F == a
  | .progEnable | .chipErase | .readLock | .writeLock _ | .readSig _ | .writeFuseLo _ | .writeFuseHi _
  | .writeFuseExt _ | .readFuseLo | .readFuseHi | .readFuseExt | .readCal _ | .pollBusy
  | .enter | .exit | .erase | .poll | .wrprog | .wreep | .rdprog | .rdeep | .rdlock | .wrlock | .rdsig | .wrfuse
  | .rdfuse | .rdcal | .xchg => true

end Sys2Proof
end

