-- ==== Sys2Proof/Decode.lean ====
section
/-! DEFINITION. The region constants and masks, the operand bytes of a frame, the decoder (total, rejecting by name) and, after
it, the encoder, both from the tables of 30_encoding.md R96 and R97 and the frame rules R144 to R165 of 40_codec.md. -/

namespace Sys2Proof

/-! ## Region constants (20_memory.md R54) -/

/-- UPP: units per page. -/
def Region.upp : Region → Nat
  | .prog => 16
  | .eep => 4

/-- UNIT_BYTES: bytes per unit. -/
def Region.unitBytes : Region → Nat
  | .prog => 2
  | .eep => 1

/-- ABITS: address bits (00_scope.md R7). -/
def Region.abits : Region → Nat
  | .prog => 10
  | .eep => 7

/-- FULL: the full-space mask, `2^ABITS - 1`. -/
def Region.full : Region → Half
  | .prog => 0x03FF
  | .eep => 0x007F

/-- OFFS: the in-page offset mask, `UPP - 1`. -/
def Region.offs : Region → Half
  | .prog => 0x000F
  | .eep => 0x0003

/-- PAGE: the page address mask, `FULL & ~OFFS`. -/
def Region.page : Region → Half
  | .prog => 0x03F0
  | .eep => 0x007C

/-- WR: the write-settle wait kind of the region. -/
def Region.wr : Region → WaitKind
  | .prog => .wrProg
  | .eep => .wrEep

/-! ## Operand bytes (30_encoding.md R93, R95) -/

/-- Bits 15..8: operand_hi of an address, the high byte of a program word. -/
def hiByte (v : Half) : Byte := v.extractLsb' 8 8

/-- Bits 7..0: operand_lo of an address, the low byte of a program word. -/
def loByte (v : Half) : Byte := v.extractLsb' 0 8

/-- The 16-bit value with these two bytes, `(hi << 8) | lo` (30_encoding.md R95). -/
def ofBytes (hi lo : Byte) : Half := hi ++ lo

/-! ## The decoder -/

/-- Why bytes are not an instruction. -/
inductive DecodeError where
  /-- One byte that is none of the fifteen operation codes (30_encoding.md R99). -/
  | undefinedOp (op : Byte)
  /-- Four bytes that match no row of the frame table (30_encoding.md R98). -/
  | undefinedFrame (b0 b1 b2 b3 : Byte)
  /-- Neither one byte nor four: every form has one of these lengths (30_encoding.md R100). -/
  | badLength (n : Nat)
  deriving DecidableEq, Repr

/-- The host operation with this code (30_encoding.md R97). -/
def decodeHostOp (op : Byte) : Except DecodeError Instr :=
  if op = 0x01 then .ok .enter
  else if op = 0x02 then .ok .exit
  else if op = 0x03 then .ok .erase
  else if op = 0x04 then .ok .poll
  else if op = 0x10 then .ok .wrprog
  else if op = 0x11 then .ok .wreep
  else if op = 0x12 then .ok .rdprog
  else if op = 0x13 then .ok .rdeep
  else if op = 0x20 then .ok .rdlock
  else if op = 0x21 then .ok .wrlock
  else if op = 0x22 then .ok .rdsig
  else if op = 0x23 then .ok .wrfuse
  else if op = 0x24 then .ok .rdfuse
  else if op = 0x25 then .ok .rdcal
  else if op = 0x30 then .ok .xchg
  else .error (.undefinedOp op)

/-- The command frame with these four bytes (30_encoding.md R96), with the fuse-read frames as the parameter FUSE_RD has them. -/
def decodeFrame (f : FuseTable) (b0 b1 b2 b3 : Byte) : Except DecodeError Instr :=
  if b0 = 0x20 ∧ b1 &&& 0xFC = 0 ∧ b3 = 0 then .ok (.readProgLo (ofBytes b1 b2))
  else if b0 = 0x28 ∧ b1 &&& 0xFC = 0 ∧ b3 = 0 then .ok (.readProgHi (ofBytes b1 b2))
  else if b0 = 0x30 ∧ b1 = 0 ∧ b2 &&& 0xFC = 0 ∧ b3 = 0 then .ok (.readSig (b2.extractLsb' 0 2))
  else if b0 = 0x38 ∧ b1 = 0 ∧ b2 &&& 0xFE = 0 ∧ b3 = 0 then .ok (.readCal (b2.extractLsb' 0 1))
  else if b0 = 0x40 ∧ b1 = 0 ∧ b2 &&& 0xF0 = 0 then .ok (.loadProgLo (ofBytes b1 b2) b3)
  else if b0 = 0x48 ∧ b1 = 0 ∧ b2 &&& 0xF0 = 0 then .ok (.loadProgHi (ofBytes b1 b2) b3)
  else if b0 = 0x4C ∧ b1 &&& 0xFC = 0 ∧ b2 &&& 0x0F = 0 ∧ b3 = 0 then .ok (.commitProg (ofBytes b1 b2))
  else if b0 = 0x58 ∧ b1 = 0 ∧ b2 = 0 ∧ b3 = 0 then .ok .readLock
  else if b0 = 0xA0 ∧ b1 = 0 ∧ b2 &&& 0x80 = 0 ∧ b3 = 0 then .ok (.readEep (ofBytes b1 b2))
  else if b0 = 0xAC ∧ b1 = 0x53 ∧ b2 = 0 ∧ b3 = 0 then .ok .progEnable
  else if b0 = 0xAC ∧ b1 = 0x80 ∧ b2 = 0 ∧ b3 = 0 then .ok .chipErase
  else if b0 = 0xAC ∧ b1 = 0xA0 ∧ b2 = 0 then .ok (.writeFuseLo b3)
  else if b0 = 0xAC ∧ b1 = 0xA4 ∧ b2 = 0 then .ok (.writeFuseExt b3)
  else if b0 = 0xAC ∧ b1 = 0xA8 ∧ b2 = 0 then .ok (.writeFuseHi b3)
  else if b0 = 0xAC ∧ b1 = 0xE0 ∧ b2 = 0 then .ok (.writeLock b3)
  else if b0 = 0xC0 ∧ b1 = 0 ∧ b2 &&& 0x80 = 0 then .ok (.writeEepByte (ofBytes b1 b2) b3)
  else if b0 = 0xC1 ∧ b1 = 0 ∧ b2 &&& 0xFC = 0 then .ok (.loadEep (ofBytes b1 b2) b3)
  else if b0 = 0xC2 ∧ b1 = 0 ∧ b2 &&& 0x83 = 0 ∧ b3 = 0 then .ok (.commitEep (ofBytes b1 b2))
  else if b0 = 0xF0 ∧ b1 = 0 ∧ b2 = 0 ∧ b3 = 0 then .ok .pollBusy
  else if b0 = f.low.opcode.byte ∧ b1 = f.low.hi ∧ b2 = 0 ∧ b3 = 0 then .ok .readFuseLo
  else if b0 = f.high.opcode.byte ∧ b1 = f.high.hi ∧ b2 = 0 ∧ b3 = 0 then .ok .readFuseHi
  else if b0 = f.ext.opcode.byte ∧ b1 = f.ext.hi ∧ b2 = 0 ∧ b3 = 0 then .ok .readFuseExt
  else .error (.undefinedFrame b0 b1 b2 b3)

/-- The decoder: one byte is an operation code, four bytes are a frame, in the order of transmission (30_encoding.md R100). -/
def decode (f : FuseTable) : List Byte → Except DecodeError Instr
  | [op] => decodeHostOp op
  | [b0, b1, b2, b3] => decodeFrame f b0 b1 b2 b3
  | bytes => .error (.badLength bytes.length)

/-- The bytes of the table's word: a frame is one 32-bit number with byte 0 in bits 31..24 (00_scope.md R11); an operation
code is one byte. -/
def tableBytes (nbits w : Nat) : List Byte :=
  if nbits = 8 then [BitVec.ofNat 8 w]
  else if nbits = 32 then
    let v : Word := BitVec.ofNat 32 w
    [v.extractLsb' 24 8, v.extractLsb' 16 8, v.extractLsb' 8 8, v.extractLsb' 0 8]
  else []

/-- The instruction the decoder reads from a word of the opcode table, whose fuse-read rows are the default FUSE_RD. -/
def decodeTableWord (nbits w : Nat) : Option Instr :=
  match decode FuseTable.default (tableBytes nbits w) with
  | .ok i => some i
  | .error _ => none

/-! ## The encoder -/

/-- The operation codes (30_encoding.md R97) and the frame images (40_codec.md R144 to R165); a frame masks its address. -/
def encode (f : FuseTable) : Instr → List Byte
  | .progEnable => [0xAC, 0x53, 0x00, 0x00]
  | .chipErase => [0xAC, 0x80, 0x00, 0x00]
  | .loadProgLo a d => [0x40, 0x00, loByte (a &&& Region.offs .prog), d]
  | .loadProgHi a d => [0x48, 0x00, loByte (a &&& Region.offs .prog), d]
  | .commitProg a => [0x4C, hiByte (a &&& Region.page .prog), loByte (a &&& Region.page .prog), 0x00]
  | .readProgLo a => [0x20, hiByte (a &&& Region.full .prog), loByte (a &&& Region.full .prog), 0x00]
  | .readProgHi a => [0x28, hiByte (a &&& Region.full .prog), loByte (a &&& Region.full .prog), 0x00]
  | .loadEep a d => [0xC1, 0x00, loByte (a &&& Region.offs .eep), d]
  | .commitEep a => [0xC2, 0x00, loByte (a &&& Region.page .eep), 0x00]
  | .readEep a => [0xA0, 0x00, loByte (a &&& Region.full .eep), 0x00]
  | .writeEepByte a d => [0xC0, 0x00, loByte (a &&& Region.full .eep), d]
  | .readLock => [0x58, 0x00, 0x00, 0x00]
  | .writeLock d => [0xAC, 0xE0, 0x00, d]
  | .readSig s => [0x30, 0x00, s.setWidth 8, 0x00]
  | .writeFuseLo d => [0xAC, 0xA0, 0x00, d]
  | .writeFuseHi d => [0xAC, 0xA8, 0x00, d]
  | .writeFuseExt d => [0xAC, 0xA4, 0x00, d]
  | .readFuseLo => [f.low.opcode.byte, f.low.hi, 0x00, 0x00]
  | .readFuseHi => [f.high.opcode.byte, f.high.hi, 0x00, 0x00]
  | .readFuseExt => [f.ext.opcode.byte, f.ext.hi, 0x00, 0x00]
  | .readCal s => [0x38, 0x00, s.setWidth 8, 0x00]
  | .pollBusy => [0xF0, 0x00, 0x00, 0x00]
  | .enter => [0x01]
  | .exit => [0x02]
  | .erase => [0x03]
  | .poll => [0x04]
  | .wrprog => [0x10]
  | .wreep => [0x11]
  | .rdprog => [0x12]
  | .rdeep => [0x13]
  | .rdlock => [0x20]
  | .wrlock => [0x21]
  | .rdsig => [0x22]
  | .wrfuse => [0x23]
  | .rdfuse => [0x24]
  | .rdcal => [0x25]
  | .xchg => [0x30]

end Sys2Proof
end

