-- ==== Sys2Proof/Machine/State.lean ====
section
/-! DEFINITION. The state: the engine's registers (10_state.md R20, the whole table), the host's buffers and requests, the open
parameters, the environment (transport and target), and the trace of events, which is the engine's observable output. -/

namespace Sys2Proof.Machine

/-- Program-mode state (10_state.md R21): 0 is Idle, 1 is Programming. -/
inductive Mode where
  | idle
  | programming
  deriving DecidableEq, Repr

/-- STATUS (10_state.md R26): OK 0, E_ENTRY 1, E_MODE 2, E_OP 3. -/
inductive Status where
  | ok
  | eEntry
  | eMode
  | eOp
  deriving DecidableEq, Repr

/-- RESP[0..3], the last-response register (10_state.md R22). -/
structure Resp where
  b0 : Byte
  b1 : Byte
  b2 : Byte
  b3 : Byte
  deriving DecidableEq, Repr

/-- The event alphabet of the transport port (00_scope.md R12). A line level is `true` for 1 (released). -/
inductive Event where
  | busEnable
  | busDisable
  | reset (level : Bool)
  | xb (tx rx : Byte)
  | wait (kind : WaitKind)
  deriving DecidableEq, Repr

/-- A target memory: addresses strictly rising. An unlisted address is a byte of unknown content (log 15). -/
abbrev Memory := List Host.Cell

/-- The spaces of the target (20_memory.md R50, R70). -/
inductive Space where
  | prog
  | eep
  | progLatch
  | eepLatch
  | sig
  | cal
  | fuse
  | lock
  deriving DecidableEq, Repr

/-- The reference target (20_memory.md R70): an assumption about the environment, not engine state. A program word `w` is the
bytes `2w` (low) and `2w + 1` (high) of `pmem` and of `plat` (log 15). -/
structure Target where
  pmem : Memory
  emem : Memory
  plat : Memory
  elat : Memory
  sig : Memory
  cal : Memory
  fuse : Memory
  lock : Memory
  /-- The internal write in progress, named by the wait that covers it (20_memory.md R61, R74). -/
  busy : Option WaitKind
  /-- The transport to it is enabled. -/
  bus : Bool
  /-- Its reset line is held low. -/
  low : Bool
  /-- The line was low through a reset settle and no frame has come since (20_memory.md R77). -/
  fresh : Bool
  /-- It has entered programming mode (20_memory.md R77). -/
  enabled : Bool
  /-- The bytes of the frame being received, first one first: at most three. -/
  got : List Byte
  deriving DecidableEq, Repr

/-- What answers the byte exchanges. -/
inductive Env where
  /-- Any bytes at all (60_exceptions.md R223): first these, then free values (log 2). -/
  | unconstrained (script : List Byte)
  /-- A target that keeps the environment assumptions R70 to R77 of 20_memory.md. -/
  | reference (t : Target)
  deriving DecidableEq, Repr

/-- One host request: the operand registers and the value buffer (10_state.md R27, 20_memory.md R69). -/
structure Request where
  op : Byte
  addr : Half
  count : Half
  d0 : Byte
  d1 : Byte
  d2 : Byte
  d3 : Byte
  values : List Half
  deriving DecidableEq, Repr

/-- What the outside world presents to the engine next (log 1). -/
inductive Work where
  /-- An operation offered at the host port (00_scope.md R9). -/
  | host (r : Request)
  /-- A frame given to the Command Codec by itself (40_codec.md R140; log 8). -/
  | frame (b0 b1 b2 b3 : Byte)
  /-- The hardware reset input, between operations (70_reset_and_hazards.md R250). -/
  | reset
  /-- An operation, and the hardware reset input after its first `n` events (70_reset_and_hazards.md R251; log 19). -/
  | resetDuring (r : Request) (n : Nat)
  deriving DecidableEq, Repr

/-- The state. The first block is the engine (10_state.md R20). -/
structure State where
  mode : Mode
  resp : Resp
  busEn : Bool
  rst : Bool
  busy : Bool
  status : Status
  result : Word
  op : Byte
  addr : Half
  count : Half
  d0 : Byte
  d1 : Byte
  d2 : Byte
  d3 : Byte
  pa : Half
  k : Half
  i : BitVec 5
  bi : BitVec 2
  ppbValid : Vector Bool 16
  ppbVal : Vector Half 16
  tmr : Nat
  /-- The host value buffer (20_memory.md R69). -/
  values : List Half
  /-- The host read buffer (20_memory.md R69; log 11). -/
  out : List Half
  /-- The open parameters, never written (10_state.md R32 c). -/
  par : Params
  /-- The transport and the target behind it (10_state.md R32 a, R33). -/
  env : Env
  /-- The model's own counter of free values (log 3). -/
  draws : Nat
  /-- Every event emitted, oldest first (00_scope.md R12; log 3). -/
  trace : List Event
  /-- What the outside world will present, next one first (log 1). -/
  host : List Work
  deriving DecidableEq, Repr

/-- Why the machine stops. The spec's errors (E_ENTRY, E_MODE, E_OP) are status codes and stop nothing. -/
inductive Fault where
  /-- Raised by `step` alone: a frame is given to the codec while an operation is in flight. 40_codec.md R142 says it is not
  reentrant and 93_implementation_defined.md U6 asks for a fault. It cannot arise through the host port. Safe. -/
  | codecReentered
  deriving DecidableEq, Repr

/-- Why an instruction has no meaning. -/
inductive Refusal where
  /-- Raised by an arm of `exec` whose instruction has no meaning yet; no arm is so. Safe. -/
  | notModelled (mnemonic : String)
  deriving DecidableEq, Repr

/-- The state right after a hardware reset at power-on (10_state.md R34). Registers that R34 leaves unspecified are 0: DESIGN
CHOICE, unsafe (log 4). The parameters are the defaults (log 6); nothing is known of the environment (log 2); no request has
been made (log 1). -/
def State.reset : State where
  mode := .idle
  resp := ⟨0, 0, 0, 0⟩
  busEn := false
  rst := true
  busy := false
  status := .ok
  result := 0
  op := 0
  addr := 0
  count := 0
  d0 := 0
  d1 := 0
  d2 := 0
  d3 := 0
  pa := 0
  k := 0
  i := 0
  bi := 0
  ppbValid := Vector.replicate 16 false
  ppbVal := Vector.replicate 16 0
  tmr := 0
  values := []
  out := []
  par := Params.default
  env := .unconstrained []
  draws := 0
  trace := []
  host := []

end Sys2Proof.Machine
end

