-- ==== Sys2Proof/Machine/Operands.lean ====
section
/-! DEFINITION. Operand forms: masked addresses, the host value buffer, and what a frame's response means. -/

namespace Sys2Proof.Machine

/-- An address as a whole address of the region, for a unit read (20_memory.md R55). -/
def wholeAddr (r : Region) (a : Half) : Half := a &&& r.full

/-- An address as an in-page offset, for a load (20_memory.md R55). -/
def offsetOf (r : Region) (a : Half) : Half := a &&& r.offs

/-- An address as a page address, for a commit (20_memory.md R55). -/
def pageOf (r : Region) (a : Half) : Half := a &&& r.page

/-- `values[j]` (20_memory.md R69). A buffer with no element `j` gives a free value (log 12). -/
def hostValue (s : State) (j : Nat) : Half :=
  match s.values[j]? with
  | some v => v
  | none => Config.freeUnit s.draws j

/-- RESP with byte `i` replaced (40_codec.md R140). -/
def Resp.set (r : Resp) (i : BitVec 2) (b : Byte) : Resp :=
  if i = 0 then { r with b0 := b }
  else if i = 1 then { r with b1 := b }
  else if i = 2 then { r with b2 := b }
  else { r with b3 := b }

/-- RESP as XCHG returns it: RESP[0] in the highest byte (40_codec.md R143). -/
def Resp.word (r : Resp) : Word :=
  r.b0.setWidth 32 <<< 24 ||| r.b1.setWidth 32 <<< 16 ||| r.b2.setWidth 32 <<< 8 ||| r.b3.setWidth 32

/-- What the codec takes from a response (30_encoding.md R92). -/
inductive FrameResult where
  | nothing
  | echo (success : Bool)
  | byte (b : Byte)
  | busyBit (busy : Bool)
  deriving DecidableEq, Repr

/-- ECHO: the byte expected at response index 2 of the enable frame (00_scope.md R7). -/
def echoByte : Byte := 0x53

/-- The bit BUSY_BIT of a response's byte 3 (40_codec.md R165). -/
def busyFlag (p : Params) (r : Resp) : Bool := r.b3.getLsbD p.busyBit

/-- The decode table of 30_encoding.md R92: which response byte each frame yields. -/
def frameResult (p : Params) (r : Resp) : Instr → FrameResult
  | .progEnable => .echo (r.b2 == echoByte)
  | .readProgLo _ | .readProgHi _ | .readEep _ | .readLock | .readSig _ | .readFuseLo | .readFuseHi | .readFuseExt
  | .readCal _ => .byte r.b3
  | .pollBusy => .busyBit (busyFlag p r)
  | .chipErase | .loadProgLo _ _ | .loadProgHi _ _ | .commitProg _ | .loadEep _ _ | .commitEep _ | .writeEepByte _ _
  | .writeLock _ | .writeFuseLo _ | .writeFuseHi _ | .writeFuseExt _ => .nothing
  | .enter | .exit | .erase | .poll | .wrprog | .wreep | .rdprog | .rdeep | .rdlock | .wrlock | .rdsig | .wrfuse
  | .rdfuse | .rdcal | .xchg => .nothing

end Sys2Proof.Machine
end

