-- ==== Sys2Proof/Machine/Flags.lean ====
section
/-! DEFINITION. The flag-like values: the codes of `mode` and STATUS, and the layouts of RESULT (10_state.md R21, R26, R31). The engine
has no condition codes. -/

namespace Sys2Proof.Machine

/-- The encoding of `mode` (10_state.md R21). -/
def Mode.code : Mode → BitVec 1
  | .idle => 0
  | .programming => 1

/-- The encoding of STATUS (10_state.md R26). -/
def Status.code : Status → BitVec 2
  | .ok => 0
  | .eEntry => 1
  | .eMode => 2
  | .eOp => 3

/-- `zext_32` of one bit: RESULT of POLL (41_mode.md R178). -/
def resultBit (b : Bool) : Word := if b then 1 else 0

/-- `zext_32` of one byte: RESULT of RDLOCK (44_ancillary.md R206). -/
def resultByte (b : Byte) : Word := b.setWidth 32

/-- Bytes assembled little-endian, the first in bits 7..0: RESULT of RDSIG, RDFUSE and RDCAL (20_memory.md R58 d, e;
44_ancillary.md R208, R211, R212). -/
def resultBytes : List Byte → Word
  | [] => 0
  | b :: rest => b.setWidth 32 ||| (resultBytes rest <<< 8)

end Sys2Proof.Machine
end

