-- ==== Sys2Proof/Machine/Memory.lean ====
section
/-! DEFINITION. The operations over a target memory, which keep its canonical form: strictly rising addresses. An unlisted address
reads as unknown (`none`), so no entry can equal it (log 15). -/

namespace Sys2Proof.Machine

/-- The canonical form. -/
abbrev Memory.wf (m : Memory) : Prop := m.Pairwise (fun x y => x.1 < y.1)

/-- The byte at an address, `none` where its content is unknown. -/
def Memory.read (m : Memory) (a : Nat) : Option Byte :=
  match m with
  | [] => none
  | (b, v) :: rest => if a = b then some v else Memory.read rest a

/-- The memory with a known byte at an address. -/
def Memory.write (m : Memory) (a : Nat) (v : Byte) : Memory :=
  match m with
  | [] => [(a, v)]
  | (b, w) :: rest =>
    if a < b then (a, v) :: (b, w) :: rest
    else if a = b then (a, v) :: rest
    else (b, w) :: Memory.write rest a v

/-- The memory with nothing known at an address. -/
def Memory.forget (m : Memory) (a : Nat) : Memory :=
  match m with
  | [] => []
  | (b, w) :: rest => if a = b then rest else (b, w) :: Memory.forget rest a

/-- Writes the byte if it is known, and forgets the address if not. -/
def Memory.put (m : Memory) (a : Nat) : Option Byte → Memory
  | some v => m.write a v
  | none => m.forget a

/-- The target's memory of a space. -/
def Target.space (t : Target) : Space → Memory
  | .prog => t.pmem
  | .eep => t.emem
  | .progLatch => t.plat
  | .eepLatch => t.elat
  | .sig => t.sig
  | .cal => t.cal
  | .fuse => t.fuse
  | .lock => t.lock

/-- One byte of a space of the target, as far as the model knows it: `none` where it does not, and always when the environment is
unconstrained. -/
def Env.peek (e : Env) (sp : Space) (a : Nat) : Option Byte :=
  match e with
  | .unconstrained _ => none
  | .reference t => (t.space sp).read a

/-- A memory in canonical form with no address at or above `n`, the size of its space (20_memory.md R50 to R52). -/
abbrev Memory.fits (m : Memory) (n : Nat) : Prop := m.wf ∧ ∀ c ∈ m, c.1 < n

/-- The environment is well formed: every memory of the reference target fits its space, and at most three bytes of a frame are
half received. -/
def Env.wf : Env → Bool
  | .unconstrained _ => true
  | .reference t =>
    decide (t.pmem.fits 2048) && decide (t.emem.fits 128) && decide (t.plat.fits 32) && decide (t.elat.fits 4) &&
      decide (t.sig.fits 4) && decide (t.cal.fits 2) && decide (t.fuse.fits 3) && decide (t.lock.fits 1) &&
      decide (t.got.length < 4)

end Sys2Proof.Machine
end

