-- ==== Sys2Proof/Machine/Target.lean ====
section
/-! DEFINITION. The environment: how an unconstrained transport answers, and the reference target of 20_memory.md R70 to R77. Where
those rules give a frame no guaranteed effect, the environment turns unconstrained: nothing is known of it from then on (log 13). -/

namespace Sys2Proof.Machine

/-- Response byte 3 of a frame, where the target's rules fix it (20_memory.md R75). The signature, calibration, lock and fuse
bytes are DEDUCED from R70, R74 and the programs P1 and P4 (log 14). Address bits that the engine masks away do not exist for
program and data memory (R71), but a byte 1 other than 00 in a frame that has 00 there makes it no frame of the table: the
model's choice between R71 and R98 (log 24). A signature or calibration read with another sub-address is no frame of the table
either, so nothing fixes its answer (30_encoding.md R98; log 14). -/
def Target.answer (t : Target) (p : Params) (b0 b1 b2 b3 : Byte) : Option Byte :=
  if b3 ≠ 0 then none
  else if b0 = 0x20 then t.pmem.read (2 * (wholeAddr .prog (ofBytes b1 b2)).toNat)
  else if b0 = 0x28 then t.pmem.read (2 * (wholeAddr .prog (ofBytes b1 b2)).toNat + 1)
  else if b1 = 0 ∧ b0 = 0xA0 then t.emem.read (wholeAddr .eep (ofBytes 0 b2)).toNat
  else if b1 = 0 ∧ b0 = 0x30 ∧ b2 &&& 0xFC = 0 then t.sig.read (b2.extractLsb' 0 2).toNat
  else if b1 = 0 ∧ b0 = 0x38 ∧ b2 &&& 0xFE = 0 then t.cal.read (b2.extractLsb' 0 1).toNat
  else if b2 ≠ 0 then none
  else if b0 = 0x58 ∧ b1 = 0 then t.lock.read 0
  else if b0 = p.fuseRd.low.opcode.byte ∧ b1 = p.fuseRd.low.hi then t.fuse.read 0
  else if b0 = p.fuseRd.high.opcode.byte ∧ b1 = p.fuseRd.high.hi then t.fuse.read 1
  else if b0 = p.fuseRd.ext.opcode.byte ∧ b1 = p.fuseRd.ext.hi then t.fuse.read 2
  else none

/-- Whether the frame is one of the read frames above, which change nothing in the target (20_memory.md R75). -/
def readsOnly (p : Params) (b0 b1 b2 b3 : Byte) : Bool :=
  b3 == 0 &&
    (b0 == 0x20 || b0 == 0x28 || (b1 == 0 && (b0 == 0xA0 || (b0 == 0x30 && b2 &&& 0xFC == 0) || (b0 == 0x38 && b2 &&& 0xFE == 0))) ||
      (b2 == 0 && ((b0 == 0x58 && b1 == 0) || (b0 == p.fuseRd.low.opcode.byte && b1 == p.fuseRd.low.hi) ||
        (b0 == p.fuseRd.high.opcode.byte && b1 == p.fuseRd.high.hi) || (b0 == p.fuseRd.ext.opcode.byte && b1 == p.fuseRd.ext.hi))))

/-- One program word of a commit: stored if both its bytes were loaded, of unknown content if not (20_memory.md R73). -/
def commitWord (plat : Memory) (page o : Nat) (m : Memory) : Memory :=
  match plat.read (2 * o), plat.read (2 * o + 1) with
  | some lo, some hi => (m.write (2 * (page + o)) lo).write (2 * (page + o) + 1) hi
  | _, _ => (m.forget (2 * (page + o))).forget (2 * (page + o) + 1)

/-- The words at offsets below `n` of a program page (20_memory.md R73). -/
def commitWords (plat : Memory) (page : Nat) : Nat → Memory → Memory
  | 0, m => m
  | n + 1, m => commitWord plat page n (commitWords plat page n m)

/-- The bytes at offsets below `n` of a data page: stored if loaded, of unknown content if not (20_memory.md R73). -/
def commitBytes (elat : Memory) (page : Nat) : Nat → Memory → Memory
  | 0, m => m
  | n + 1, m => (commitBytes elat page n m).put (page + n) (elat.read n)

/-- The target after a complete frame it has accepted: enabled and not busy (20_memory.md R72, R73, R76). A frame none of the
rules covers has no guaranteed effect (30_encoding.md R98). That a load, a data page commit or a data read with a byte 1 other
than 00 is such a frame, and not the frame without those bits (R71), is the model's choice (log 24). A chip erase leaves nothing
known of any memory of the target, since R76 lets a model assume no more than that program memory is erased (log 21). What the
enable frame does to a target already in programming mode, sent by XCHG or by a second ENTER, is the model's choice: nothing
(log 22). -/
def Target.serve (t : Target) (p : Params) (b0 b1 b2 b3 : Byte) : Env :=
  if readsOnly p b0 b1 b2 b3 then .reference t
  else if b0 = 0xF0 ∧ b1 = 0 ∧ b2 = 0 ∧ b3 = 0 then .reference t
  else if b0 = 0xAC ∧ b1 = 0x53 ∧ b2 = 0 ∧ b3 = 0 then .reference t
  else if b0 = 0x40 ∧ b1 = 0 then
    .reference { t with plat := t.plat.write (2 * (offsetOf .prog (ofBytes 0 b2)).toNat) b3 }
  else if b0 = 0x48 ∧ b1 = 0 then
    .reference { t with plat := t.plat.write (2 * (offsetOf .prog (ofBytes 0 b2)).toNat + 1) b3 }
  else if b0 = 0xC1 ∧ b1 = 0 then
    .reference { t with elat := t.elat.write (offsetOf .eep (ofBytes 0 b2)).toNat b3 }
  else if b0 = 0x4C ∧ b3 = 0 then
    .reference { t with pmem := commitWords t.plat (pageOf .prog (ofBytes b1 b2)).toNat 16 t.pmem, plat := [],
                        busy := some .wrProg }
  else if b0 = 0xC2 ∧ b1 = 0 ∧ b3 = 0 then
    .reference { t with emem := commitBytes t.elat (pageOf .eep (ofBytes 0 b2)).toNat 4 t.emem, elat := [],
                        busy := some .wrEep }
  else if b0 = 0xAC ∧ b1 = 0x80 ∧ b2 = 0 ∧ b3 = 0 then
    .reference { t with pmem := [], emem := [], plat := [], elat := [], sig := [], cal := [], fuse := [],
                        lock := [], busy := some .erase }
  else if b0 = 0xAC ∧ b1 = 0xA0 ∧ b2 = 0 then
    .reference { t with fuse := t.fuse.write 0 b3, busy := some .fuse }
  else if b0 = 0xAC ∧ b1 = 0xA8 ∧ b2 = 0 then
    .reference { t with fuse := t.fuse.write 1 b3, busy := some .fuse }
  else if b0 = 0xAC ∧ b1 = 0xA4 ∧ b2 = 0 then
    .reference { t with fuse := t.fuse.write 2 b3, busy := some .fuse }
  else if b0 = 0xAC ∧ b1 = 0xE0 ∧ b2 = 0 then
    .reference { t with lock := t.lock.write 0 b3, busy := some .lock }
  else .unconstrained []

/-- The poll frame (40_codec.md R165). -/
def isPoll (b0 b1 b2 b3 : Byte) : Bool := b0 == 0xF0 && b1 == 0 && b2 == 0 && b3 == 0

/-- The enable frame (40_codec.md R144). -/
def isEnable (b0 b1 b2 b3 : Byte) : Bool := b0 == 0xAC && b1 == 0x53 && b2 == 0 && b3 == 0

/-- A byte with one bit cleared: what a target that is not busy answers to a poll (40_codec.md R165; log 17). -/
def clearBit (b : Byte) (n : Fin 8) : Byte := b &&& ~~~(1#8 <<< n.val)

/-- Response byte 3 the target gives, with the byte `free` wherever it may be any. -/
def Target.lastByte (t : Target) (p : Params) (free b0 b1 b2 b3 : Byte) : Byte :=
  if t.enabled = true ∧ t.busy = none then
    if isPoll b0 b1 b2 b3 then clearBit free p.busyBit else (t.answer p b0 b1 b2 b3).getD free
  else free

/-- The target after the fourth byte of a frame, to which it answered `rx`. A busy target guarantees nothing but that a poll that
reads not busy ends the wait (20_memory.md R74; log 17); one that is not in programming mode enters it on the enable
frame after a reset pulse (R77), and no rule says what any other frame does to it (30_encoding.md R98; log 13). -/
def Target.complete (t : Target) (p : Params) (rx b0 b1 b2 b3 : Byte) : Env :=
  let u := { t with got := [], fresh := false }
  match t.busy with
  | some _ =>
    if t.enabled = true ∧ isPoll b0 b1 b2 b3 then
      if rx.getLsbD p.busyBit then .reference u else .reference { u with busy := none }
    else .unconstrained []
  | none =>
    if t.enabled then u.serve p b0 b1 b2 b3
    else if t.fresh = true ∧ isEnable b0 b1 b2 b3 then .reference { u with enabled := true }
    else .unconstrained []

/-- One byte exchange with the reference target: what it returns and what it becomes. The echo of the enable frame comes with
the third byte (20_memory.md R77). It goes out before the fourth is known (30_encoding.md R91), so that a frame `AC 53 00 xx` outside
the table is echoed too: the model's choice beside R98 (log 23). With the transport disabled nothing is guaranteed. -/
def Target.exchange (t : Target) (p : Params) (free tx : Byte) : Byte × Env :=
  if t.bus then
    match t.got with
    | [] => (free, .reference { t with got := [tx] })
    | [b0] => (free, .reference { t with got := [b0, tx] })
    | [b0, b1] =>
      (if t.fresh = true ∧ t.busy = none ∧ b0 = 0xAC ∧ b1 = 0x53 ∧ tx = 0 then echoByte else free,
        .reference { t with got := [b0, b1, tx] })
    | [b0, b1, b2] =>
      let rx := t.lastByte p free b0 b1 b2 tx
      (rx, t.complete p rx b0 b1 b2 tx)
    | _ => (free, .unconstrained [])
  else (free, .unconstrained [])

/-- One byte exchange: the byte returned and the environment after it. `free` is a free value (60_exceptions.md R223). -/
def Env.exchange (e : Env) (p : Params) (free tx : Byte) : Byte × Env :=
  match e with
  | .unconstrained [] => (free, .unconstrained [])
  | .unconstrained (b :: rest) => (b, .unconstrained rest)
  | .reference t => t.exchange p free tx

/-- The four exchanges of one frame: the response and the environment after it (40_codec.md R140). `n` is the first draw. -/
def Env.exchangeFrame (e : Env) (p : Params) (n : Nat) (b0 b1 b2 b3 : Byte) : Resp × Env :=
  let x0 := e.exchange p (Config.freeRx n) b0
  let x1 := x0.2.exchange p (Config.freeRx (n + 1)) b1
  let x2 := x1.2.exchange p (Config.freeRx (n + 2)) b2
  let x3 := x2.2.exchange p (Config.freeRx (n + 3)) b3
  (⟨x0.1, x1.1, x2.1, x3.1⟩, x3.2)

/-- The transport is enabled (00_scope.md R12). -/
def Env.busEnable : Env → Env
  | .unconstrained q => .unconstrained q
  | .reference t => .reference { t with bus := true }

/-- The transport is disabled. -/
def Env.busDisable : Env → Env
  | .unconstrained q => .unconstrained q
  | .reference t => .reference { t with bus := false }

/-- The reset line is driven. A released target leaves programming mode (41_mode.md R175); any drive ends a frame half received
(log 16). -/
def Env.resetLine (level : Bool) : Env → Env
  | .unconstrained q => .unconstrained q
  | .reference t =>
    .reference { t with low := !level, fresh := false, got := [], enabled := t.enabled && !level }

/-- At least `T_k` elapses: it ends the internal write that wait covers (20_memory.md R74), and a reset settle with the line low
completes the pulse (R77). A wait of no ticks guarantees neither (70_reset_and_hazards.md R257; log 13). -/
def Env.wait (p : Params) (k : WaitKind) : Env → Env
  | .unconstrained q => .unconstrained q
  | .reference t =>
    if p.ticks k = 0 then .reference t
    else
      .reference { t with busy := if t.busy = some k then none else t.busy,
                          fresh := t.fresh || (k == .reset && t.low) }

end Sys2Proof.Machine
end

