-- ==== Sys2Proof/Machine/Ops.lean ====
section
/-! DEFINITION. The shared operations: the four transport primitives and `wait` (00_scope.md R12), the codec's `Frame` (40_codec.md R140), the
start and end of an operation, `reject` (60_exceptions.md R221, the engine's only exception), the guard, and the hardware reset. -/

namespace Sys2Proof.Machine

/-! ## Transport primitives (00_scope.md R12) -/

/-- `busEnable()`. -/
def busEnable (s : State) : State :=
  { s with busEn := true, env := s.env.busEnable, trace := s.trace ++ [.busEnable] }

/-- `busDisable()`. -/
def busDisable (s : State) : State :=
  { s with busEn := false, env := s.env.busDisable, trace := s.trace ++ [.busDisable] }

/-- `resetLine(level)`; `true` is 1, released. -/
def resetLine (level : Bool) (s : State) : State :=
  { s with rst := level, env := s.env.resetLine level, trace := s.trace ++ [.reset level] }

/-- One pass of the loop of `Frame`: `exchangeByte(tx)`, its answer into RESP[bi], and `bi` advanced (40_codec.md R140). -/
def sendByte (tx : Byte) (s : State) : State :=
  let a := s.env.exchange s.par (Config.freeRx s.draws) tx
  { s with resp := s.resp.set s.bi a.1, bi := s.bi + 1, env := a.2, draws := s.draws + 1,
           trace := s.trace ++ [.xb tx a.1] }

/-- `tmr` is loaded with the tick count of `T_k` (10_state.md R30). -/
def loadTimer (k : WaitKind) (s : State) : State := { s with tmr := s.par.ticks k }

/-- `tmr` has counted down to 0: the engine goes on (10_state.md R30; log 9). -/
def timerExpired (s : State) : State := { s with tmr := 0 }

/-- `wait(k)`: the event, the timer loaded, and the block until it has run out (41_mode.md R177). -/
def waitFor (k : WaitKind) (s : State) : State :=
  timerExpired (loadTimer k { s with env := s.env.wait s.par k, trace := s.trace ++ [.wait k] })

/-! ## The codec -/

/-- `Frame(b0, b1, b2, b3)` (40_codec.md R140). -/
def frame (b0 b1 b2 b3 : Byte) (s : State) : State :=
  sendByte b3 (sendByte b2 (sendByte b1 (sendByte b0 { s with bi := 0 })))

/-- The events of one frame with this response (40_codec.md R140). -/
def frameEvents (b0 b1 b2 b3 : Byte) (r : Resp) : List Event :=
  [.xb b0 r.b0, .xb b1 r.b1, .xb b2 r.b2, .xb b3 r.b3]

/-- The response the transport gives to a frame sent now. -/
def State.responseTo (s : State) (b0 b1 b2 b3 : Byte) : Resp :=
  (s.env.exchangeFrame s.par s.draws b0 b1 b2 b3).1

/-- The environment after a frame sent now. -/
def State.envAfter (s : State) (b0 b1 b2 b3 : Byte) : Env :=
  (s.env.exchangeFrame s.par s.draws b0 b1 b2 b3).2

/-! ## The life of a host operation -/

/-- Acceptance: the request fields are sampled into the operand registers and `busy` rises (10_state.md R25, R27). -/
def accept (r : Request) (s : State) : State :=
  { s with op := r.op, addr := r.addr, count := r.count, d0 := r.d0, d1 := r.d1, d2 := r.d2, d3 := r.d3,
           values := r.values, busy := true }

/-- The end of an operation: STATUS and RESULT are written and `busy` falls (10_state.md R25, R26). -/
def complete (st : Status) (r : Word) (s : State) : State :=
  { s with status := st, result := r, busy := false }

/-- `reject(code)` (60_exceptions.md R221): STATUS the code, RESULT 0, `busy` 0, no event, no other change. -/
def reject (code : Status) (s : State) : State := complete code 0 s

/-- The guard of every operation that needs Programming (41_mode.md R170). -/
def guarded (body : State → State) (s : State) : State :=
  if s.mode = .programming then body s else reject .eMode s

/-! ## Hardware reset -/

/-- The effect of the hardware reset input (10_state.md R34; 70_reset_and_hazards.md R250, R251): the registers R34 names get their
reset values, those it leaves unspecified get free values (log 5), no event is emitted, and the levels of the transport
go to disabled and released. -/
def hardReset (s : State) : State :=
  let u := Config.freeRegisters s.draws
  { s with
    mode := .idle, busEn := false, rst := true, busy := false, status := .ok,
    ppbValid := Vector.replicate 16 false, tmr := 0,
    resp := ⟨u.resp0, u.resp1, u.resp2, u.resp3⟩, result := u.result,
    op := u.op, addr := u.addr, count := u.count, d0 := u.d0, d1 := u.d1, d2 := u.d2, d3 := u.d3,
    pa := u.pa, k := u.k, i := u.i, bi := u.bi, ppbVal := u.ppbVal,
    env := (s.env.resetLine true).busDisable, draws := s.draws + 1 }

/-- The effect of one event on the transport and the trace, used to cut an operation short. A wait is played whole, as if its `T_k` had
elapsed before the reset: the model's choice, since the spec does not say how far a wait broken off by the reset counts (log 19). -/
def playEvent (s : State) : Event → State
  | .busEnable => busEnable s
  | .busDisable => busDisable s
  | .reset l => resetLine l s
  | .xb tx _ => sendByte tx s
  | .wait k => waitFor k s

/-- These events happen and nothing else (70_reset_and_hazards.md R251; log 19). -/
def playEvents (es : List Event) (s : State) : State := es.foldl playEvent s

/-- The events a later state has emitted since an earlier one. -/
def eventsSince (s t : State) : List Event := t.trace.drop s.trace.length

end Sys2Proof.Machine
end

