-- ==== Sys2Proof/Machine/Codec.lean ====
section
/-! DEFINITION. The Command Codec (40_codec.md): the 22 command frames, each sent by one operation here that the host operations
use too, their meanings as instructions, and XCHG. A frame writes RESP and `bi` and nothing else of the engine (R140); it
does not look at `mode` and cannot fail. -/

namespace Sys2Proof.Machine

/-! ## The frames (40_codec.md R144 to R165) -/

/-- `PROG_ENABLE` (R144). -/
def sendProgEnable : State → State := frame 0xAC 0x53 0x00 0x00

/-- `CHIP_ERASE` (R145). -/
def sendChipErase : State → State := frame 0xAC 0x80 0x00 0x00

/-- `LOAD_PROG_LO` (R146) with data byte `d`. -/
def sendLoadProgLo (a : Half) (d : Byte) : State → State := frame 0x40 0x00 (loByte (offsetOf .prog a)) d

/-- `LOAD_PROG_HI` (R147) with data byte `d`. -/
def sendLoadProgHi (a : Half) (d : Byte) : State → State := frame 0x48 0x00 (loByte (offsetOf .prog a)) d

/-- `COMMIT_PROG` (R148). -/
def sendCommitProg (a : Half) : State → State :=
  frame 0x4C (hiByte (pageOf .prog a)) (loByte (pageOf .prog a)) 0x00

/-- `READ_PROG_LO` (R149). -/
def sendReadProgLo (a : Half) : State → State :=
  frame 0x20 (hiByte (wholeAddr .prog a)) (loByte (wholeAddr .prog a)) 0x00

/-- `READ_PROG_HI` (R150). -/
def sendReadProgHi (a : Half) : State → State :=
  frame 0x28 (hiByte (wholeAddr .prog a)) (loByte (wholeAddr .prog a)) 0x00

/-- `LOAD_EEP` (R151). -/
def sendLoadEep (a : Half) (d : Byte) : State → State := frame 0xC1 0x00 (loByte (offsetOf .eep a)) d

/-- `COMMIT_EEP` (R152). -/
def sendCommitEep (a : Half) : State → State := frame 0xC2 0x00 (loByte (pageOf .eep a)) 0x00

/-- `READ_EEP` (R153). -/
def sendReadEep (a : Half) : State → State := frame 0xA0 0x00 (loByte (wholeAddr .eep a)) 0x00

/-- `WRITE_EEP_BYTE` (R154). -/
def sendWriteEepByte (a : Half) (d : Byte) : State → State := frame 0xC0 0x00 (loByte (wholeAddr .eep a)) d

/-- `READ_LOCK` (R155). -/
def sendReadLock : State → State := frame 0x58 0x00 0x00 0x00

/-- `WRITE_LOCK` (R156). -/
def sendWriteLock (d : Byte) : State → State := frame 0xAC 0xE0 0x00 d

/-- `READ_SIG` (R157). -/
def sendReadSig (s : BitVec 2) : State → State := frame 0x30 0x00 (s.setWidth 8) 0x00

/-- `WRITE_FUSE_LO` (R158). -/
def sendWriteFuseLo (d : Byte) : State → State := frame 0xAC 0xA0 0x00 d

/-- `WRITE_FUSE_HI` (R159). -/
def sendWriteFuseHi (d : Byte) : State → State := frame 0xAC 0xA8 0x00 d

/-- `WRITE_FUSE_EXT` (R160). -/
def sendWriteFuseExt (d : Byte) : State → State := frame 0xAC 0xA4 0x00 d

/-- A fuse read with this entry of FUSE_RD (44_ancillary.md R211). -/
def sendFuseSel (f : FuseSel) : State → State := frame f.opcode.byte f.hi 0x00 0x00

/-- `READ_FUSE_LO` (R161). -/
def sendReadFuseLo (s : State) : State := sendFuseSel s.par.fuseRd.low s

/-- `READ_FUSE_HI` (R162). -/
def sendReadFuseHi (s : State) : State := sendFuseSel s.par.fuseRd.high s

/-- `READ_FUSE_EXT` (R163). -/
def sendReadFuseExt (s : State) : State := sendFuseSel s.par.fuseRd.ext s

/-- `READ_CAL` (R164). -/
def sendReadCal (s : BitVec 1) : State → State := frame 0x38 0x00 (s.setWidth 8) 0x00

/-- `POLL_BUSY` (R165). -/
def sendPollBusy : State → State := frame 0xF0 0x00 0x00 0x00

/-! ## The meanings of the frames as instructions -/

def execProgEnable (s : State) : Host.Outcome State Fault Refusal := .next (sendProgEnable s)

def execChipErase (s : State) : Host.Outcome State Fault Refusal := .next (sendChipErase s)

def execLoadProgLo (a : Half) (d : Byte) (s : State) : Host.Outcome State Fault Refusal := .next (sendLoadProgLo a d s)

def execLoadProgHi (a : Half) (d : Byte) (s : State) : Host.Outcome State Fault Refusal := .next (sendLoadProgHi a d s)

def execCommitProg (a : Half) (s : State) : Host.Outcome State Fault Refusal := .next (sendCommitProg a s)

def execReadProgLo (a : Half) (s : State) : Host.Outcome State Fault Refusal := .next (sendReadProgLo a s)

def execReadProgHi (a : Half) (s : State) : Host.Outcome State Fault Refusal := .next (sendReadProgHi a s)

def execLoadEep (a : Half) (d : Byte) (s : State) : Host.Outcome State Fault Refusal := .next (sendLoadEep a d s)

def execCommitEep (a : Half) (s : State) : Host.Outcome State Fault Refusal := .next (sendCommitEep a s)

def execReadEep (a : Half) (s : State) : Host.Outcome State Fault Refusal := .next (sendReadEep a s)

def execWriteEepByte (a : Half) (d : Byte) (s : State) : Host.Outcome State Fault Refusal :=
  .next (sendWriteEepByte a d s)

def execReadLock (s : State) : Host.Outcome State Fault Refusal := .next (sendReadLock s)

def execWriteLock (d : Byte) (s : State) : Host.Outcome State Fault Refusal := .next (sendWriteLock d s)

def execReadSig (x : BitVec 2) (s : State) : Host.Outcome State Fault Refusal := .next (sendReadSig x s)

def execWriteFuseLo (d : Byte) (s : State) : Host.Outcome State Fault Refusal := .next (sendWriteFuseLo d s)

def execWriteFuseHi (d : Byte) (s : State) : Host.Outcome State Fault Refusal := .next (sendWriteFuseHi d s)

def execWriteFuseExt (d : Byte) (s : State) : Host.Outcome State Fault Refusal := .next (sendWriteFuseExt d s)

def execReadFuseLo (s : State) : Host.Outcome State Fault Refusal := .next (sendReadFuseLo s)

def execReadFuseHi (s : State) : Host.Outcome State Fault Refusal := .next (sendReadFuseHi s)

def execReadFuseExt (s : State) : Host.Outcome State Fault Refusal := .next (sendReadFuseExt s)

def execReadCal (x : BitVec 1) (s : State) : Host.Outcome State Fault Refusal := .next (sendReadCal x s)

def execPollBusy (s : State) : Host.Outcome State Fault Refusal := .next (sendPollBusy s)

/-! ## XCHG -/

/-- The body of XCHG after the guard (R143). -/
def xchgBody (s : State) : State :=
  let t := frame s.d0 s.d1 s.d2 s.d3 s
  complete .ok t.resp.word t

/-- XCHG (R143): the host's four bytes, unchecked; no wait; `mode` is not written. -/
def execXchg (s : State) : Host.Outcome State Fault Refusal := .next (guarded xchgBody s)

end Sys2Proof.Machine
end

