-- ==== Sys2Proof/Machine/Ancillary.lean ====
section
/-! DEFINITION. The ancillary programming operations (44_ancillary.md): lock, signature, fuses, calibration. -/

namespace Sys2Proof.Machine

/-- The body of RDLOCK after the guard (R206). -/
def rdlockBody (s : State) : State :=
  let t := sendReadLock s
  complete .ok (resultByte t.resp.b3) t

/-- RDLOCK (R206). -/
def execRdlock (s : State) : Host.Outcome State Fault Refusal := .next (guarded rdlockBody s)

/-- The body of WRLOCK after the guard (R207). -/
def wrlockBody (s : State) : State := complete .ok 0 (waitFor .lock (sendWriteLock s.d0 s))

/-- WRLOCK (R207). -/
def execWrlock (s : State) : Host.Outcome State Fault Refusal := .next (guarded wrlockBody s)

/-- The body of RDSIG after the guard (R208): sub-addresses 0, 1, 2, 3 in this order. -/
def rdsigBody (s : State) : State :=
  let t0 := sendReadSig 0 s
  let t1 := sendReadSig 1 t0
  let t2 := sendReadSig 2 t1
  let t3 := sendReadSig 3 t2
  complete .ok (resultBytes [t0.resp.b3, t1.resp.b3, t2.resp.b3, t3.resp.b3]) t3

/-- RDSIG (R208). -/
def execRdsig (s : State) : Host.Outcome State Fault Refusal := .next (guarded rdsigBody s)

/-- The body of WRFUSE after the guard (R209, R210): low, high, extended, each with its own wait. -/
def wrfuseBody (s : State) : State :=
  let t0 := waitFor .fuse (sendWriteFuseLo s.d0 s)
  let t1 := waitFor .fuse (sendWriteFuseHi s.d1 t0)
  let t2 := waitFor .fuse (sendWriteFuseExt s.d2 t1)
  complete .ok 0 t2

/-- WRFUSE (R209). -/
def execWrfuse (s : State) : Host.Outcome State Fault Refusal := .next (guarded wrfuseBody s)

/-- The body of RDFUSE after the guard (R211): low, high, extended, with the frames of FUSE_RD. -/
def rdfuseBody (s : State) : State :=
  let t0 := sendReadFuseLo s
  let t1 := sendReadFuseHi t0
  let t2 := sendReadFuseExt t1
  complete .ok (resultBytes [t0.resp.b3, t1.resp.b3, t2.resp.b3]) t2

/-- RDFUSE (R211). -/
def execRdfuse (s : State) : Host.Outcome State Fault Refusal := .next (guarded rdfuseBody s)

/-- The body of RDCAL after the guard (R212): sub-addresses 0, 1 in this order. -/
def rdcalBody (s : State) : State :=
  let t0 := sendReadCal 0 s
  let t1 := sendReadCal 1 t0
  complete .ok (resultBytes [t0.resp.b3, t1.resp.b3]) t1

/-- RDCAL (R212). -/
def execRdcal (s : State) : Host.Outcome State Fault Refusal := .next (guarded rdcalBody s)

end Sys2Proof.Machine
end

