-- ==== Sys2Proof/Machine/PageRead.lean ====
section
/-! DEFINITION. The Page Buffer Manager, read path (43_read.md): ReadUnit, ReadUnits, RDPROG, RDEEP. -/

namespace Sys2Proof.Machine

/-- `ReadUnit(REG, a)` (R196): the unit read, a data byte zero-extended (log 11), and the state after it. The low byte is
latched before the second frame overwrites RESP[3]. -/
def readUnit (r : Region) (a : Half) (s : State) : Half × State :=
  match r with
  | .prog =>
    let t := sendReadProgLo a s
    let u := sendReadProgHi a t
    (ofBytes u.resp.b3 t.resp.b3, u)
  | .eep =>
    let t := sendReadEep a s
    (t.resp.b3.setWidth 16, t)

/-- `k <- k - 1` (R197). -/
def lowerIndex (s : State) : State := { s with k := s.k - 1 }

/-- `out[k] <- u`. The read buffer fills from its end, so each unit stands in front of those already read (R197). -/
def deliver (u : Half) (s : State) : State := { s with out := u :: s.out }

/-- One pass of the loop of ReadUnits: `k <- k - 1`, then `out[k] <- ReadUnit(REG, start + k)` (R197). -/
def readNext (r : Region) (s : State) : State :=
  let t := lowerIndex s
  let p := readUnit r (t.addr + t.k) t
  deliver p.1 p.2

/-- The loop of ReadUnits, `while k > 0`, with `n` passes to go (R197). -/
def readLoop (r : Region) : Nat → State → State
  | 0, s => s
  | n + 1, s => readLoop r n (readNext r s)

/-- The start of ReadUnits: `k <- count`, an empty read buffer (R197). -/
def beginReads (s : State) : State := { s with k := s.count, out := [] }

/-- `ReadUnits(REG, ADDR, COUNT)` into the host read buffer (R197). -/
def readUnits (r : Region) (s : State) : State := readLoop r s.count.toNat (beginReads s)

/-- The body of RDPROG after the guard (R199). -/
def rdprogBody (s : State) : State := complete .ok 0 (readUnits .prog s)

/-- RDPROG (R199). -/
def execRdprog (s : State) : Host.Outcome State Fault Refusal := .next (guarded rdprogBody s)

/-- The body of RDEEP after the guard (R200). -/
def rdeepBody (s : State) : State := complete .ok 0 (readUnits .eep s)

/-- RDEEP (R200). -/
def execRdeep (s : State) : Host.Outcome State Fault Refusal := .next (guarded rdeepBody s)

end Sys2Proof.Machine
end

