-- ==== Sys2Proof/Machine/PageWrite.lean ====
section
/-! DEFINITION. The Page Buffer Manager, write path (42_page_write.md): LoadUnit, Commit, WritePages, WRPROG, WREEP. -/

namespace Sys2Proof.Machine

/-- The engine's record of a load: entry `o` valid with value `v` (10_state.md R29). -/
def stage (o v : Half) (s : State) : State :=
  { s with ppbValid := s.ppbValid.setIfInBounds o.toNat true, ppbVal := s.ppbVal.setIfInBounds o.toNat v }

/-- Every `ppb_valid[o] <- 0` (10_state.md R29). -/
def clearPpb (s : State) : State := { s with ppbValid := Vector.replicate 16 false }

/-- `LoadUnit(REG, a, v)` (R180, R181). -/
def loadUnit (r : Region) (a v : Half) (s : State) : State :=
  match r with
  | .prog => stage (offsetOf .prog a) v (sendLoadProgHi a (hiByte v) (sendLoadProgLo a (loByte v) s))
  | .eep => stage (offsetOf .eep a) ((loByte v).setWidth 16) (sendLoadEep a (loByte v) s)

/-- `Commit(REG, a)` (R182, R183). -/
def commit (r : Region) (a : Half) (s : State) : State :=
  match r with
  | .prog => clearPpb (sendCommitProg a s)
  | .eep => clearPpb (sendCommitEep a s)

/-- `i <- i + 1` (R184). -/
def advanceIndex (s : State) : State := { s with i := s.i + 1 }

/-- One pass of the inner loop of WritePages: `LoadUnit(REG, pa + i, values[k + i])` (R184). -/
def loadNext (r : Region) (s : State) : State :=
  advanceIndex (loadUnit r (s.pa + s.i.setWidth 16) (hostValue s (s.k.toNat + s.i.toNat)) s)

/-- The inner loop of WritePages: `m` more units of this chunk (R184). -/
def loadUnits (r : Region) : Nat → State → State
  | 0, s => s
  | m + 1, s => loadUnits r m (loadNext r s)

/-- `n` of R184: the number of units of the next chunk. -/
def chunkSize (r : Region) (s : State) : Nat := min r.upp (s.count.toNat - s.k.toNat)

/-- `i <- 0` (R184). -/
def firstIndex (s : State) : State := { s with i := 0 }

/-- `k <- k + n` (R184). -/
def advanceValues (n : Nat) (s : State) : State := { s with k := s.k + BitVec.ofNat 16 n }

/-- `pa <- pa + UPP[REG]` (R184). -/
def nextPage (r : Region) (s : State) : State := { s with pa := s.pa + BitVec.ofNat 16 r.upp }

/-- `Commit(REG, pa)` and the settle wait that follows it (R184). -/
def commitPage (r : Region) (s : State) : State := waitFor r.wr (commit r s.pa s)

/-- One pass of the outer loop of WritePages (R184): the loads, the commit, the wait, the next page. -/
def writeChunk (r : Region) (s : State) : State :=
  nextPage r (commitPage r (advanceValues (chunkSize r s) (loadUnits r (chunkSize r s) (firstIndex s))))

/-- The outer loop, `while k < count` (R184). Each pass raises `k` by at least 1 (R188 c), so `count` passes are enough fuel. -/
def writeLoop (r : Region) : Nat → State → State
  | 0, s => s
  | fuel + 1, s => if s.k.toNat < s.count.toNat then writeLoop r fuel (writeChunk r s) else s

/-- The start of WritePages: `pa <- start`, `k <- 0`, no valid entry (R184). -/
def beginPages (s : State) : State := clearPpb { s with pa := s.addr, k := 0 }

/-- `WritePages(REG, values, ADDR, COUNT)` (R184). -/
def writePages (r : Region) (s : State) : State := writeLoop r s.count.toNat (beginPages s)

/-- The body of WRPROG after the guard (R186). -/
def wrprogBody (s : State) : State := complete .ok 0 (writePages .prog s)

/-- WRPROG (R186). -/
def execWrprog (s : State) : Host.Outcome State Fault Refusal := .next (guarded wrprogBody s)

/-- The body of WREEP after the guard (R187). -/
def wreepBody (s : State) : State := complete .ok 0 (writePages .eep s)

/-- WREEP (R187). -/
def execWreep (s : State) : Host.Outcome State Fault Refusal := .next (guarded wreepBody s)

end Sys2Proof.Machine
end

