-- ==== Sys2Proof/Machine/ProgramMode.lean ====
section
/-! DEFINITION. The Program-Mode State Machine (41_mode.md): ENTER, EXIT, ERASE, POLL. -/

namespace Sys2Proof.Machine

/-- One pair of RESET_SEQ (R171). -/
def pulseStep (s : State) (p : PulseStep) : State :=
  if p.settle then waitFor .reset (resetLine p.level s) else resetLine p.level s

/-- `ResetPulse()` plays RESET_SEQ (R171). -/
def resetPulse (s : State) : State := s.par.resetSeq.steps.foldl pulseStep s

/-- The body of EXIT (R174), which is also the rollback of a failed ENTER (R172, 60_exceptions.md R227). -/
def leaveProgramming (s : State) : State := { busDisable (resetLine true s) with mode := .idle }

/-- The verdict of ENTER on the echo (R172). -/
def enterVerdict (s : State) : State :=
  if s.resp.b2 = echoByte then complete .ok 1 { s with mode := .programming }
  else complete .eEntry 0 (leaveProgramming s)

/-- ENTER (R172, R173): in either mode, not guarded. -/
def execEnter (s : State) : Host.Outcome State Fault Refusal :=
  .next (enterVerdict (sendProgEnable (resetPulse (busEnable s))))

/-- EXIT (R174, R175): in either mode, not guarded, no frame. -/
def execExit (s : State) : Host.Outcome State Fault Refusal := .next (complete .ok 0 (leaveProgramming s))

/-- The body of ERASE after the guard (R176). -/
def eraseBody (s : State) : State := complete .ok 0 (waitFor .erase (sendChipErase s))

/-- ERASE (R176). -/
def execErase (s : State) : Host.Outcome State Fault Refusal := .next (guarded eraseBody s)

/-- The body of POLL after the guard (R178). -/
def pollBody (s : State) : State :=
  let t := sendPollBusy s
  complete .ok (resultBit (busyFlag t.par t.resp)) t

/-- POLL (R178): one frame, no loop, no wait. -/
def execPoll (s : State) : Host.Outcome State Fault Refusal := .next (guarded pollBody s)

end Sys2Proof.Machine
end

