-- ==== Sys2Proof/Machine/Dispatch.lean ====
section
/-! DEFINITION. The dispatch: one arm per instruction. -/

namespace Sys2Proof.Machine

def exec (i : Instr) (s : State) : Host.Outcome State Fault Refusal :=
  match i with
  | .progEnable => Sys2Proof.Machine.execProgEnable s
  | .chipErase => Sys2Proof.Machine.execChipErase s
  | .loadProgLo a d => Sys2Proof.Machine.execLoadProgLo a d s
  | .loadProgHi a d => Sys2Proof.Machine.execLoadProgHi a d s
  | .commitProg a => Sys2Proof.Machine.execCommitProg a s
  | .readProgLo a => Sys2Proof.Machine.execReadProgLo a s
  | .readProgHi a => Sys2Proof.Machine.execReadProgHi a s
  | .loadEep a d => Sys2Proof.Machine.execLoadEep a d s
  | .commitEep a => Sys2Proof.Machine.execCommitEep a s
  | .readEep a => Sys2Proof.Machine.execReadEep a s
  | .writeEepByte a d => Sys2Proof.Machine.execWriteEepByte a d s
  | .readLock => Sys2Proof.Machine.execReadLock s
  | .writeLock d => Sys2Proof.Machine.execWriteLock d s
  | .readSig x => Sys2Proof.Machine.execReadSig x s
  | .writeFuseLo d => Sys2Proof.Machine.execWriteFuseLo d s
  | .writeFuseHi d => Sys2Proof.Machine.execWriteFuseHi d s
  | .writeFuseExt d => Sys2Proof.Machine.execWriteFuseExt d s
  | .readFuseLo => Sys2Proof.Machine.execReadFuseLo s
  | .readFuseHi => Sys2Proof.Machine.execReadFuseHi s
  | .readFuseExt => Sys2Proof.Machine.execReadFuseExt s
  | .readCal x => Sys2Proof.Machine.execReadCal x s
  | .pollBusy => Sys2Proof.Machine.execPollBusy s
  | .enter => Sys2Proof.Machine.execEnter s
  | .exit => Sys2Proof.Machine.execExit s
  | .erase => Sys2Proof.Machine.execErase s
  | .poll => Sys2Proof.Machine.execPoll s
  | .wrprog => Sys2Proof.Machine.execWrprog s
  | .wreep => Sys2Proof.Machine.execWreep s
  | .rdprog => Sys2Proof.Machine.execRdprog s
  | .rdeep => Sys2Proof.Machine.execRdeep s
  | .rdlock => Sys2Proof.Machine.execRdlock s
  | .wrlock => Sys2Proof.Machine.execWrlock s
  | .rdsig => Sys2Proof.Machine.execRdsig s
  | .wrfuse => Sys2Proof.Machine.execWrfuse s
  | .rdfuse => Sys2Proof.Machine.execRdfuse s
  | .rdcal => Sys2Proof.Machine.execRdcal s
  | .xchg => Sys2Proof.Machine.execXchg s

end Sys2Proof.Machine
end

