-- ==== Sys2Proof/Machine/Run.lean ====
section
/-! DEFINITION. What the outside world can make the engine do: a request at the host port, a frame at the codec, a hardware reset in the
middle of an operation. -/

namespace Sys2Proof.Machine

/-- The operation the OP register selects, on a state that has accepted it; an undefined code is `reject(E_OP)` (30_encoding.md R99,
60_exceptions.md R226). -/
def runOperation (s : State) : Host.Outcome State Fault Refusal :=
  match decodeHostOp s.op with
  | .ok i => exec i s
  | .error _ => .next (reject .eOp s)

/-- A request offered at the host port while `busy = 0`: accepted and run to completion (10_state.md R25). -/
def runRequest (r : Request) (s : State) : Host.Outcome State Fault Refusal := runOperation (accept r s)

/-- A frame given to the codec: the instruction it is, or, if it is none, the four bytes all the same (30_encoding.md R98, 40_codec.md R141). -/
def runFrame (b0 b1 b2 b3 : Byte) (s : State) : Host.Outcome State Fault Refusal :=
  match decodeFrame s.par.fuseRd b0 b1 b2 b3 with
  | .ok i => exec i s
  | .error _ => .next (frame b0 b1 b2 b3 s)

/-- An operation abandoned by a hardware reset after its first `n` events (70_reset_and_hazards.md R251; log 19): those events
have happened, no other has, and the state is that after reset. -/
def runAbandoned (r : Request) (n : Nat) (s : State) : Host.Outcome State Fault Refusal :=
  match runRequest r s with
  | .next t => .next (hardReset (playEvents ((eventsSince s t).take n) (accept r s)))
  | .fault f => .fault f
  | .refused f => .refused f

/-- A state whose very next step runs the instruction with these bytes: an operation code as a request with the operand
registers as they stand, a frame as a frame. Anything else changes nothing. -/
def fetchBytes (s : State) : List Byte → State
  | [op] =>
    { s with busy := false,
             host := .host { op := op, addr := s.addr, count := s.count, d0 := s.d0, d1 := s.d1, d2 := s.d2, d3 := s.d3,
                             values := s.values } :: s.host }
  | [b0, b1, b2, b3] => { s with busy := false, host := .frame b0 b1 b2 b3 :: s.host }
  | _ => s

end Sys2Proof.Machine
end

