-- ==== Sys2Proof/Machine/Step.lean ====
section
/-! DEFINITION. One step: the next thing the outside world presents. -/

namespace Sys2Proof.Machine

/-- One step. With nothing presented the engine waits (70_reset_and_hazards.md R250). A request presented while `busy = 1` is held off
and no state changes (10_state.md R25, 60_exceptions.md R226); a frame given to the codec then is a fault; a hardware reset always takes
effect (log 7, log 19). A request cut short by that reset is dropped with its item even if it was held off because `busy = 1`: the
spec does not say whether it is still presented afterwards (log 19). -/
def step (s : State) : Host.Outcome State Fault Refusal :=
  match s.host with
  | [] => .next s
  | .host r :: rest => if s.busy then .next s else runRequest r { s with host := rest }
  | .frame b0 b1 b2 b3 :: rest => if s.busy then .fault .codecReentered else runFrame b0 b1 b2 b3 { s with host := rest }
  | .reset :: rest => .next (hardReset { s with host := rest })
  | .resetDuring r n :: rest =>
    if s.busy then .next (hardReset { s with host := rest }) else runAbandoned r n { s with host := rest }

/-- The state whose next step fetches and runs the instruction that the table's word stands for (log 1). -/
def State.withFetchWord (s : State) (nbits w : Nat) : State := fetchBytes s (tableBytes nbits w)

end Sys2Proof.Machine
end

