-- ==== Sys2Proof/Safety.lean ====
section
/-! DEFINITION. What a good state is, in the terms the claims use: the invariants the spec states of the engine between operations. -/

namespace Sys2Proof.Machine

/-- The pending page buffer is empty (10_state.md R29). -/
def State.ppbEmpty (s : State) : Prop := ∀ o : Fin 16, s.ppbValid[o] = false

/-- The output levels agree with the mode (10_state.md R21; 60_exceptions.md R230): Programming has the bus enabled and reset held low,
Idle has the bus disabled and reset released. -/
def State.outputsMatchMode (s : State) : Prop :=
  match s.mode with
  | .programming => s.busEn = true ∧ s.rst = false
  | .idle => s.busEn = false ∧ s.rst = true

/-- The invariant of the engine between operations: not busy, outputs matching the mode, no page half staged, the timer run out,
and the environment's memories in canonical form. -/
structure State.Inv (s : State) : Prop where
  notBusy : s.busy = false
  outputs : s.outputsMatchMode
  ppbEmpty : s.ppbEmpty
  timer : s.tmr = 0
  memory : s.env.wf = true

/-- The reference target stands ready: it is in programming mode behind an enabled transport, between two frames, with no internal
write in progress (20_memory.md R74, R77). -/
def Target.Ready (t : Target) : Prop :=
  t.bus = true ∧ t.enabled = true ∧ t.busy = none ∧ t.got = []

/-- The environment is a reference target that stands ready. -/
def Env.Ready : Env → Prop
  | .unconstrained _ => False
  | .reference t => t.Ready

/-- The byte of the target that a read frame asks for (20_memory.md R75; for the signature, calibration, lock and fuse bytes, log 14). -/
def sourceOf : Instr → Option (Space × Nat)
  | .readProgLo a => some (.prog, 2 * (a &&& 0x03FF).toNat)
  | .readProgHi a => some (.prog, 2 * (a &&& 0x03FF).toNat + 1)
  | .readEep a => some (.eep, (a &&& 0x007F).toNat)
  | .readSig x => some (.sig, x.toNat)
  | .readCal x => some (.cal, x.toNat)
  | .readLock => some (.lock, 0)
  | .readFuseLo => some (.fuse, 0)
  | .readFuseHi => some (.fuse, 1)
  | .readFuseExt => some (.fuse, 2)
  | .progEnable | .chipErase | .loadProgLo _ _ | .loadProgHi _ _ | .commitProg _ | .loadEep _ _ | .commitEep _
  | .writeEepByte _ _ | .writeLock _ | .writeFuseLo _ | .writeFuseHi _ | .writeFuseExt _ | .pollBusy
  | .enter | .exit | .erase | .poll | .wrprog | .wreep | .rdprog | .rdeep | .rdlock | .wrlock | .rdsig | .wrfuse
  | .rdfuse | .rdcal | .xchg => none

/-- The page write operation of a region (42_page_write.md R186, R187). -/
def writeOp : Region → Instr
  | .prog => .wrprog
  | .eep => .wreep

/-- The unit read operation of a region (43_read.md R199, R200). -/
def readOp : Region → Instr
  | .prog => .rdprog
  | .eep => .rdeep

/-- The target's memory of a region. -/
def spaceOf : Region → Space
  | .prog => .prog
  | .eep => .eep

/-- The target's page buffer of a region. -/
def latchOf : Region → Space
  | .prog => .progLatch
  | .eep => .eepLatch

/-- A value as a unit of the region: a word, or a byte zero-extended (20_memory.md R69; log 11). -/
def unitOf (r : Region) (v : Half) : Half :=
  match r with
  | .prog => v
  | .eep => (loByte v).setWidth 16

/-- What the engine decides of an event: everything but the byte the target answers (60_exceptions.md R223). -/
def Event.command : Event → Event
  | .busEnable => .busEnable
  | .busDisable => .busDisable
  | .reset l => .reset l
  | .xb tx _ => .xb tx 0
  | .wait k => .wait k

/-- Whether the event is a byte exchange, for the counts of 70_reset_and_hazards.md R263. -/
def Event.isXb : Event → Bool
  | .xb _ _ => true
  | .busEnable | .busDisable | .reset _ | .wait _ => false

/-- Whether the event is a wait, for the counts of 70_reset_and_hazards.md R263. -/
def Event.isWait : Event → Bool
  | .wait _ => true
  | .busEnable | .busDisable | .reset _ | .xb _ _ => false

/-- The environment and the draws after an event, from those before it: bytes sent, levels and whole waits act on the target (00_scope.md R12). -/
def afterEvent (p : Params) (x : Env × Nat) : Event → Env × Nat
  | .busEnable => (x.1.busEnable, x.2)
  | .busDisable => (x.1.busDisable, x.2)
  | .reset l => (x.1.resetLine l, x.2)
  | .xb tx _ => ((x.1.exchange p (Config.freeRx x.2) tx).2, x.2 + 1)
  | .wait k => (x.1.wait p k, x.2)

/-- The environment and the draws after a list of events. -/
def afterEvents (p : Params) (es : List Event) (x : Env × Nat) : Env × Nat := es.foldl (afterEvent p) x

/-! ## Schedules: what an operation does at the transport port, in closed form -/

/-- One command to the transport: a whole frame, a wait, or a level. -/
inductive Cmd where
  | frame (b0 b1 b2 b3 : Byte)
  | wait (k : WaitKind)
  | enable
  | disable
  | line (level : Bool)
  deriving DecidableEq, Repr

/-- A commit frame of the region (30_encoding.md R96). -/
def Cmd.isCommit (r : Region) : Cmd → Bool
  | .frame b0 _ _ _ => b0 == (match r with | .prog => 0x4C | .eep => 0xC2)
  | .wait _ | .enable | .disable | .line _ => false

/-- A load frame of the region (30_encoding.md R96). -/
def Cmd.isLoad (r : Region) : Cmd → Bool
  | .frame b0 _ _ _ => (match r with | .prog => b0 == 0x40 || b0 == 0x48 | .eep => b0 == 0xC1)
  | .wait _ | .enable | .disable | .line _ => false

/-- The events of a command, the answered bytes erased. -/
def Cmd.commands : Cmd → List Event
  | .frame b0 b1 b2 b3 => [.xb b0 0, .xb b1 0, .xb b2 0, .xb b3 0]
  | .wait k => [.wait k]
  | .enable => [.busEnable]
  | .disable => [.busDisable]
  | .line l => [.reset l]

/-- The number of byte exchanges of a command. -/
def Cmd.draws : Cmd → Nat
  | .frame _ _ _ _ => 4
  | .wait _ | .enable | .disable | .line _ => 0

/-- The number of pages a write of `n` units takes: `ceil(n / UPP)` (42_page_write.md R184). -/
def pageCount (r : Region) (n : Nat) : Nat := (n + r.upp - 1) / r.upp

/-- The frames that stage one unit (42_page_write.md R180, R181). -/
def loadCmds (r : Region) (a v : Half) : List Cmd :=
  match r with
  | .prog => [.frame 0x40 0x00 (loByte (a &&& 0x000F)) (loByte v), .frame 0x48 0x00 (loByte (a &&& 0x000F)) (hiByte v)]
  | .eep => [.frame 0xC1 0x00 (loByte (a &&& 0x0003)) (loByte v)]

/-- The frame that commits a page (42_page_write.md R182, R183). -/
def commitCmd (r : Region) (a : Half) : Cmd :=
  match r with
  | .prog => .frame 0x4C (hiByte (a &&& 0x03F0)) (loByte (a &&& 0x03F0)) 0x00
  | .eep => .frame 0xC2 0x00 (loByte (a &&& 0x007C)) 0x00

/-- One page of a write: `n` loads from address `pa`, unit `i` with value `v i`, then the commit and the settle wait
(42_page_write.md R184). -/
def pageCmds (r : Region) (pa : Half) (v : Nat → Half) (n : Nat) : List Cmd :=
  ((List.range n).flatMap fun i => loadCmds r (pa + BitVec.ofNat 16 i) (v i)) ++ [commitCmd r pa, .wait r.wr]

/-- Page `j` of a write of `n` units from `start`: it holds `v (j*UPP)` up to `v (min((j+1)*UPP, n) - 1)` and is committed at
`start + j*UPP` (42_page_write.md R184). -/
def nthPageCmds (r : Region) (start : Half) (v : Nat → Half) (n j : Nat) : List Cmd :=
  pageCmds r (start + BitVec.ofNat 16 (j * r.upp)) (fun i => v (j * r.upp + i)) (min r.upp (n - j * r.upp))

/-- The whole of WritePages (42_page_write.md R184). -/
def writeCmds (r : Region) (start : Half) (v : Nat → Half) (n : Nat) : List Cmd :=
  (List.range (pageCount r n)).flatMap (nthPageCmds r start v n)

/-- The frames that read one unit (43_read.md R196). -/
def readCmds (r : Region) (a : Half) : List Cmd :=
  match r with
  | .prog =>
    [.frame 0x20 (hiByte (a &&& 0x03FF)) (loByte (a &&& 0x03FF)) 0x00,
      .frame 0x28 (hiByte (a &&& 0x03FF)) (loByte (a &&& 0x03FF)) 0x00]
  | .eep => [.frame 0xA0 0x00 (loByte (a &&& 0x007F)) 0x00]

/-- The whole of ReadUnits: the unit at `start + n - 1` first, the one at `start` last (43_read.md R197). -/
def readAllCmds (r : Region) (start : Half) (n : Nat) : List Cmd :=
  (List.range n).flatMap fun q => readCmds r (start + BitVec.ofNat 16 (n - 1 - q))

/-- The events of commands whose frames are answered by these responses, in order (40_codec.md R140). -/
def eventsOf : List Cmd → List Resp → List Event
  | [], _ => []
  | .frame b0 b1 b2 b3 :: cs, r :: rs => frameEvents b0 b1 b2 b3 r ++ eventsOf cs rs
  | .frame _ _ _ _ :: _, [] => []
  | .wait k :: cs, rs => .wait k :: eventsOf cs rs
  | .enable :: cs, rs => .busEnable :: eventsOf cs rs
  | .disable :: cs, rs => .busDisable :: eventsOf cs rs
  | .line l :: cs, rs => .reset l :: eventsOf cs rs

/-- The number of frames among commands. -/
def frameCount : List Cmd → Nat
  | [] => 0
  | .frame _ _ _ _ :: cs => frameCount cs + 1
  | .wait _ :: cs | .enable :: cs | .disable :: cs | .line _ :: cs => frameCount cs

/-- The units that read responses carry, in the order of the reads: a program word from the responses to its low and its high
frame, a data byte from one (43_read.md R196). -/
def unitsRead (r : Region) : List Resp → List Half
  | [] => []
  | x :: rs =>
    match r, rs with
    | .eep, rs => x.b3.setWidth 16 :: unitsRead .eep rs
    | .prog, [] => []
    | .prog, y :: rs => ofBytes y.b3 x.b3 :: unitsRead .prog rs

/-- The value the engine takes for unit `j` of a write that begins at draw `n`: `values[j]` (20_memory.md R69), or, if the buffer has
no such element, a free value (log 12). Before unit `j` come `j` loads and `j / UPP` commits. -/
def unitValue (r : Region) (values : List Half) (n j : Nat) : Half :=
  match values[j]? with
  | some v => v
  | none => Config.freeUnit (n + 4 * (r.unitBytes * j + j / r.upp)) j

/-- A frame instruction's image as a command (40_codec.md R144 to R165). -/
def imageCmds (f : FuseTable) (i : Instr) : List Cmd :=
  match encode f i with
  | [b0, b1, b2, b3] => [.frame b0 b1 b2 b3]
  | _ => []

/-- The commands of one pair of RESET_SEQ (41_mode.md R171). -/
def pulseCmds (q : PulseStep) : List Cmd := if q.settle then [.line q.level, .wait .reset] else [.line q.level]

/-- ENTER up to its verdict (41_mode.md R172). -/
def enterCmds (p : Params) : List Cmd :=
  .enable :: p.resetSeq.steps.flatMap pulseCmds ++ [.frame 0xAC 0x53 0x00 0x00]

/-- The rollback of a failed ENTER, and EXIT (41_mode.md R172, R174). -/
def exitCmds : List Cmd := [.line true, .disable]

/-- What each instruction does at the transport port once it runs; for ENTER, up to its verdict. -/
def opCmds (i : Instr) (s : State) : List Cmd :=
  match i with
  | .enter => enterCmds s.par
  | .exit => exitCmds
  | .erase => [.frame 0xAC 0x80 0x00 0x00, .wait .erase]
  | .poll => [.frame 0xF0 0x00 0x00 0x00]
  | .wrprog => writeCmds .prog s.addr (unitValue .prog s.values s.draws) s.count.toNat
  | .wreep => writeCmds .eep s.addr (unitValue .eep s.values s.draws) s.count.toNat
  | .rdprog => readAllCmds .prog s.addr s.count.toNat
  | .rdeep => readAllCmds .eep s.addr s.count.toNat
  | .rdlock => [.frame 0x58 0x00 0x00 0x00]
  | .wrlock => [.frame 0xAC 0xE0 0x00 s.d0, .wait .lock]
  | .rdsig =>
    [.frame 0x30 0x00 0x00 0x00, .frame 0x30 0x00 0x01 0x00, .frame 0x30 0x00 0x02 0x00, .frame 0x30 0x00 0x03 0x00]
  | .wrfuse =>
    [.frame 0xAC 0xA0 0x00 s.d0, .wait .fuse, .frame 0xAC 0xA8 0x00 s.d1, .wait .fuse, .frame 0xAC 0xA4 0x00 s.d2,
      .wait .fuse]
  | .rdfuse =>
    [.frame s.par.fuseRd.low.opcode.byte s.par.fuseRd.low.hi 0x00 0x00,
      .frame s.par.fuseRd.high.opcode.byte s.par.fuseRd.high.hi 0x00 0x00,
      .frame s.par.fuseRd.ext.opcode.byte s.par.fuseRd.ext.hi 0x00 0x00]
  | .rdcal => [.frame 0x38 0x00 0x00 0x00, .frame 0x38 0x00 0x01 0x00]
  | .xchg => [.frame s.d0 s.d1 s.d2 s.d3]
  | .progEnable | .chipErase | .loadProgLo _ _ | .loadProgHi _ _ | .commitProg _ | .readProgLo _ | .readProgHi _
  | .loadEep _ _ | .commitEep _ | .readEep _ | .writeEepByte _ _ | .readLock | .writeLock _ | .readSig _
  | .writeFuseLo _ | .writeFuseHi _ | .writeFuseExt _ | .readFuseLo | .readFuseHi | .readFuseExt | .readCal _
  | .pollBusy => imageCmds s.par.fuseRd i

end Sys2Proof.Machine
end

