-- ==== Sys2Proof/Certificates/Slice0/Obligations.lean ====
section
/-! DEFINITION. The statements about the model, for the provers. Each says in its docstring which rule of the spec it states; where
a clause is the model's own choice the docstring names the log entry. -/

open Sys2Proof Sys2Proof.Machine

/-! ## Reset, the host port, the step -/

/-- 10_state.md R34: the hardware reset input, whenever it comes. The registers R34 names get its values, every other register of R20
gets a free value (log 5), no event is emitted, and the transport's levels go to disabled and released. -/
def Obligations.HardwareResetGivesTheStatedState : Prop :=
  ∀ (s : State) (rest : List Work),
    step { s with host := .reset :: rest } = .next
      { mode := .idle, busEn := false, rst := true, busy := false, status := .ok,
        ppbValid := Vector.replicate 16 false, tmr := 0,
        resp := ⟨(Config.freeRegisters s.draws).resp0, (Config.freeRegisters s.draws).resp1,
          (Config.freeRegisters s.draws).resp2, (Config.freeRegisters s.draws).resp3⟩,
        result := (Config.freeRegisters s.draws).result,
        op := (Config.freeRegisters s.draws).op, addr := (Config.freeRegisters s.draws).addr,
        count := (Config.freeRegisters s.draws).count,
        d0 := (Config.freeRegisters s.draws).d0, d1 := (Config.freeRegisters s.draws).d1,
        d2 := (Config.freeRegisters s.draws).d2, d3 := (Config.freeRegisters s.draws).d3,
        pa := (Config.freeRegisters s.draws).pa, k := (Config.freeRegisters s.draws).k,
        i := (Config.freeRegisters s.draws).i, bi := (Config.freeRegisters s.draws).bi,
        ppbVal := (Config.freeRegisters s.draws).ppbVal,
        values := s.values, out := s.out, par := s.par, env := (s.env.resetLine true).busDisable,
        draws := s.draws + 1, trace := s.trace, host := rest }

/-- 10_state.md R34 and 70_reset_and_hazards.md R250: the state after power-on. The values R34 leaves open are the model's choice (log 4),
and so are the parameters (log 6): they are not stated here. -/
def Obligations.PowerOnStateHoldsTheResetValues : Prop :=
  State.reset.mode = .idle ∧ State.reset.busEn = false ∧ State.reset.rst = true ∧ State.reset.busy = false ∧
    State.reset.status = .ok ∧ State.reset.ppbEmpty ∧ State.reset.tmr = 0 ∧ State.reset.trace = []

/-- 70_reset_and_hazards.md R251: an operation abandoned by a hardware reset after its first `n` events. Those events stand, no other is
emitted, and the registers are those of R250. The frames sent have had their effect on the target: the environment is the
one those `n` events lead to, with the line then released and the transport disabled; for `n` at or beyond the last event it
is the one the operation left. That a wait among the `n` events counts whole, and that a reset may fall inside a frame, is
the model's choice (log 19). -/
def Obligations.ResetDuringAnOperationKeepsWhatWasSent : Prop :=
  ∀ (s : State) (r : Request) (n : Nat) (rest : List Work), s.busy = false →
    ∃ u t, runRequest r { s with host := rest } = .next u ∧
      step { s with host := .resetDuring r n :: rest } = .next t ∧
      t.trace = s.trace ++ (eventsSince s u).take n ∧
      t.mode = .idle ∧ t.busEn = false ∧ t.rst = true ∧ t.busy = false ∧ t.status = .ok ∧ t.ppbEmpty ∧ t.tmr = 0 ∧
      t.par = s.par ∧ t.host = rest ∧
      t.env = ((afterEvents s.par ((eventsSince s u).take n) (s.env, s.draws)).1.resetLine true).busDisable ∧
      ((eventsSince s u).length ≤ n → t.env = (u.env.resetLine true).busDisable)

/-- 10_state.md R25, 60_exceptions.md R226 (1): a request presented while busy is held off, no state changes. -/
def Obligations.RequestIsHeldOffWhileBusy : Prop :=
  ∀ (s : State) (r : Request) (rest : List Work), s.busy = true → s.host = .host r :: rest → step s = .next s

/-- 70_reset_and_hazards.md R250: with nothing presented the engine waits. -/
def Obligations.EngineWaitsForTheFirstOperation : Prop :=
  ∀ s : State, s.host = [] → step s = .next s

/-- 10_state.md R25, R27: a request presented while not busy is accepted, its fields sampled into the operand registers, and the
step is `exec` of the operation that its code decodes to. -/
def Obligations.StepRunsTheRequestedOperation : Prop :=
  ∀ (s : State) (r : Request) (rest : List Work) (i : Instr), s.busy = false →
    decode s.par.fuseRd [r.op] = .ok i →
    step { s with host := .host r :: rest } =
      exec i { s with host := rest, op := r.op, addr := r.addr, count := r.count, d0 := r.d0, d1 := r.d1, d2 := r.d2,
                      d3 := r.d3, values := r.values, busy := true }

/-- 40_codec.md R140, R141: a frame given to the codec while not busy: the step is `exec` of the frame instruction it decodes to; bytes that
are no row of the table are sent all the same (30_encoding.md R98). That a frame is given to the codec by itself is the model's
(log 8). -/
def Obligations.StepRunsTheGivenFrame : Prop :=
  ∀ (s : State) (b0 b1 b2 b3 : Byte) (rest : List Work), s.busy = false →
    (∀ i, decode s.par.fuseRd [b0, b1, b2, b3] = .ok i →
      step { s with host := .frame b0 b1 b2 b3 :: rest } = exec i { s with host := rest }) ∧
    (∀ e, decode s.par.fuseRd [b0, b1, b2, b3] = .error e →
      step { s with host := .frame b0 b1 b2 b3 :: rest } = .next (frame b0 b1 b2 b3 { s with host := rest }))

/-- 30_encoding.md R99 with 60_exceptions.md R221 and R226 (2): an undefined operation code is `reject(E_OP)`, in either mode: STATUS and
RESULT, no event, and of the rest only the sampled operands (10_state.md R27). -/
def Obligations.UndefinedOperationCodeIsRejected : Prop :=
  ∀ (s : State) (r : Request) (rest : List Work), s.busy = false →
    r.op ∉ ([0x01, 0x02, 0x03, 0x04, 0x10, 0x11, 0x12, 0x13, 0x20, 0x21, 0x22, 0x23, 0x24, 0x25, 0x30] : List Byte) →
    step { s with host := .host r :: rest } = .next
      { s with host := rest, op := r.op, addr := r.addr, count := r.count, d0 := r.d0, d1 := r.d1, d2 := r.d2,
               d3 := r.d3, values := r.values, status := .eOp, result := 0, busy := false }

/-- 93_implementation_defined.md U6: the machine stops in one case alone, the codec driven while an operation is in flight, and it refuses
nothing (40_codec.md R142; log 7, log 8). -/
def Obligations.MachineStopsOnlyOnCodecReentry : Prop :=
  (∀ (s : State) (f : Fault), step s = .fault f ↔
    f = .codecReentered ∧ s.busy = true ∧ ∃ b0 b1 b2 b3 rest, s.host = .frame b0 b1 b2 b3 :: rest) ∧
  ∀ (s : State) (x : Refusal), step s ≠ .refused x

/-! ## Encodings -/

/-- 30_encoding.md R96, R97: no bit of an encoding is dropped. Decoding the encoding of a well-formed instruction gives it back, for every
fuse-read table that tells its frames apart (log 6). -/
def Obligations.DecodeOfEncodeIsTheInstruction : Prop :=
  ∀ (f : FuseTable) (i : Instr), f.WellFormed → i.wellFormed = true → decode f (encode f i) = .ok i

/-- 30_encoding.md R96 to R100: nothing but the encodings decodes. Bytes that decode are the encoding of a well-formed instruction, for
any fuse-read table. -/
def Obligations.EncodeOfDecodeIsTheBytes : Prop :=
  ∀ (f : FuseTable) (bytes : List Byte) (i : Instr),
    decode f bytes = .ok i → encode f i = bytes ∧ i.wellFormed = true

/-- Words written out from the examples and the table of 30_encoding.md R96 and R97, one or more of each family. That `58 08 00 00` is the
high fuse read is the default table FUSE_RD, which the spec takes from the device family and the model takes for
`decodeTableWord` (log 6). -/
def Obligations.SampleWordsDecode : Prop :=
  decodeTableWord 32 0xAC530000 = some .progEnable ∧
  decodeTableWord 32 0x400007EF = some (.loadProgLo 0x0007 0xEF) ∧
  decodeTableWord 32 0x480007BE = some (.loadProgHi 0x0007 0xBE) ∧
  decodeTableWord 32 0x4C01A000 = some (.commitProg 0x01A0) ∧
  decodeTableWord 32 0x2803FF00 = some (.readProgHi 0x03FF) ∧
  decodeTableWord 32 0xC100025A = some (.loadEep 0x0002 0x5A) ∧
  decodeTableWord 32 0xC2001400 = some (.commitEep 0x0014) ∧
  decodeTableWord 32 0xA0000500 = some (.readEep 0x0005) ∧
  decodeTableWord 32 0x30000200 = some (.readSig 2) ∧
  decodeTableWord 32 0xACE000FC = some (.writeLock 0xFC) ∧
  decodeTableWord 32 0x58080000 = some .readFuseHi ∧
  decodeTableWord 32 0xF0000000 = some .pollBusy ∧
  decodeTableWord 8 0x01 = some .enter ∧
  decodeTableWord 8 0x11 = some .wreep ∧
  decodeTableWord 8 0x24 = some .rdfuse ∧
  decodeTableWord 8 0x14 = none ∧
  decodeTableWord 32 0x40000FFF = some (.loadProgLo 0x000F 0xFF) ∧
  decodeTableWord 32 0x40001000 = none

/-- 20_memory.md R54: the region constants, each with its derivation from the geometry. -/
def Obligations.RegionConstantsFollowTheGeometry : Prop :=
  Region.unitBytes .prog = 2 ∧ Region.upp .prog = 16 ∧ Region.full .prog = 0x03FF ∧ Region.offs .prog = 0x000F ∧
  Region.page .prog = 0x03F0 ∧ Region.wr .prog = .wrProg ∧
  Region.unitBytes .eep = 1 ∧ Region.upp .eep = 4 ∧ Region.full .eep = 0x007F ∧ Region.offs .eep = 0x0003 ∧
  Region.page .eep = 0x007C ∧ Region.wr .eep = .wrEep ∧
  ∀ r : Region, r.full.toNat = 2 ^ r.abits - 1 ∧ r.offs.toNat = r.upp - 1 ∧ r.page = r.full &&& ~~~r.offs

/-- 20_memory.md R55, R56: an address is masked, never rejected. A unit read sees the address under FULL alone, a commit under PAGE
alone, a load under OFFS alone; so each behaves at `a` as at `a & FULL`. -/
def Obligations.AddressesAreMaskedNeverRejected : Prop :=
  ∀ (r : Region) (a v : Half) (s : State),
    readUnit r a s = readUnit r (a &&& r.full) s ∧
    commit r a s = commit r (a &&& r.page) s ∧ commit r a s = commit r (a &&& r.full) s ∧
    loadUnit r a v s = loadUnit r (a &&& r.offs) v s ∧ loadUnit r a v s = loadUnit r (a &&& r.full) v s

/-! ## The codec -/

/-- 40_codec.md R140: `Frame` exchanges its four bytes in order, each answer into RESP at the same index; it writes RESP and `bi` and no other
register, emits exactly these four events, and does not look at `mode`, `bus_en` or `rst`. -/
def Obligations.FrameExchangesFourBytes : Prop :=
  ∀ (b0 b1 b2 b3 : Byte) (s : State), ∃ (r : Resp) (e1 e2 e3 e4 : Env),
    s.env.exchange s.par (Config.freeRx s.draws) b0 = (r.b0, e1) ∧
    e1.exchange s.par (Config.freeRx (s.draws + 1)) b1 = (r.b1, e2) ∧
    e2.exchange s.par (Config.freeRx (s.draws + 2)) b2 = (r.b2, e3) ∧
    e3.exchange s.par (Config.freeRx (s.draws + 3)) b3 = (r.b3, e4) ∧
    frame b0 b1 b2 b3 s =
      { s with resp := r, bi := 0, env := e4, draws := s.draws + 4,
               trace := s.trace ++ [.xb b0 r.b0, .xb b1 r.b1, .xb b2 r.b2, .xb b3 r.b3] }

/-- 60_exceptions.md R223: the transport may answer any four bytes to any frame, and the engine takes them as they come. -/
def Obligations.AnyResponseBytesAreTaken : Prop :=
  ∀ (b0 b1 b2 b3 r0 r1 r2 r3 : Byte) (q : List Byte) (s : State), s.env = .unconstrained (r0 :: r1 :: r2 :: r3 :: q) →
    frame b0 b1 b2 b3 s =
      { s with resp := ⟨r0, r1, r2, r3⟩, bi := 0, env := .unconstrained q, draws := s.draws + 4,
               trace := s.trace ++ [.xb b0 r0, .xb b1 r1, .xb b2 r2, .xb b3 r3] }

/-- 40_codec.md R144 to R150 and R165: the frames of program mode and program memory, byte by byte. That a frame is an instruction by itself
is the model's (log 8). -/
def Obligations.ProgramFramesAreSentAsTheirImages : Prop :=
  ∀ (a : Half) (d : Byte) (s : State),
    exec .progEnable s = .next (frame 0xAC 0x53 0x00 0x00 s) ∧
    exec .chipErase s = .next (frame 0xAC 0x80 0x00 0x00 s) ∧
    exec (.loadProgLo a d) s = .next (frame 0x40 0x00 (loByte (a &&& 0x000F)) d s) ∧
    exec (.loadProgHi a d) s = .next (frame 0x48 0x00 (loByte (a &&& 0x000F)) d s) ∧
    exec (.commitProg a) s = .next (frame 0x4C (hiByte (a &&& 0x03F0)) (loByte (a &&& 0x03F0)) 0x00 s) ∧
    exec (.readProgLo a) s = .next (frame 0x20 (hiByte (a &&& 0x03FF)) (loByte (a &&& 0x03FF)) 0x00 s) ∧
    exec (.readProgHi a) s = .next (frame 0x28 (hiByte (a &&& 0x03FF)) (loByte (a &&& 0x03FF)) 0x00 s) ∧
    exec .pollBusy s = .next (frame 0xF0 0x00 0x00 0x00 s)

/-- 40_codec.md R151 to R164: the frames of data memory, lock, signature, fuses and calibration, byte by byte. That each is an
instruction by itself and completes in either mode, WRITE_EEP_BYTE too, is the model's (log 8). -/
def Obligations.DataAndAncillaryFramesAreSentAsTheirImages : Prop :=
  ∀ (a : Half) (d : Byte) (x : BitVec 2) (y : BitVec 1) (s : State),
    exec (.loadEep a d) s = .next (frame 0xC1 0x00 (loByte (a &&& 0x0003)) d s) ∧
    exec (.commitEep a) s = .next (frame 0xC2 0x00 (loByte (a &&& 0x007C)) 0x00 s) ∧
    exec (.readEep a) s = .next (frame 0xA0 0x00 (loByte (a &&& 0x007F)) 0x00 s) ∧
    exec (.writeEepByte a d) s = .next (frame 0xC0 0x00 (loByte (a &&& 0x007F)) d s) ∧
    exec .readLock s = .next (frame 0x58 0x00 0x00 0x00 s) ∧
    exec (.writeLock d) s = .next (frame 0xAC 0xE0 0x00 d s) ∧
    exec (.readSig x) s = .next (frame 0x30 0x00 (x.setWidth 8) 0x00 s) ∧
    exec (.writeFuseLo d) s = .next (frame 0xAC 0xA0 0x00 d s) ∧
    exec (.writeFuseHi d) s = .next (frame 0xAC 0xA8 0x00 d s) ∧
    exec (.writeFuseExt d) s = .next (frame 0xAC 0xA4 0x00 d s) ∧
    exec .readFuseLo s = .next (frame s.par.fuseRd.low.opcode.byte s.par.fuseRd.low.hi 0x00 0x00 s) ∧
    exec .readFuseHi s = .next (frame s.par.fuseRd.high.opcode.byte s.par.fuseRd.high.hi 0x00 0x00 s) ∧
    exec .readFuseExt s = .next (frame s.par.fuseRd.ext.opcode.byte s.par.fuseRd.ext.hi 0x00 0x00 s) ∧
    exec (.readCal y) s = .next (frame 0x38 0x00 (y.setWidth 8) 0x00 s)

/-- The frame of all 22 frame instructions (40_codec.md R140): each completes in any state and in either mode, sends the four bytes the
encoder gives it, and leaves every register but RESP and `bi` as it was. That each is an instruction by itself is the
model's choice (log 8), and so is `bi` standing at 0 after it (log 10). -/
def Obligations.FrameInstructionsWriteOnlyTheResponse : Prop :=
  ∀ (i : Instr) (s : State), i.isFrame = true → ∃ b0 b1 b2 b3 r e,
    encode s.par.fuseRd i = [b0, b1, b2, b3] ∧
    exec i s = .next
      { s with resp := r, bi := 0, env := e, draws := s.draws + 4,
               trace := s.trace ++ [.xb b0 r.b0, .xb b1 r.b1, .xb b2 r.b2, .xb b3 r.b3] }

/-- 30_encoding.md R92, the whole decode table, and that the machine goes by it. The verdict of ENTER is the echo of the enable
frame (41_mode.md R172). RESULT of POLL is the busy bit (R178); RESULT of RDLOCK, RDSIG, RDFUSE and RDCAL is made of the bytes
of their read frames, in the order of 44_ancillary.md (R206, R208, R211, R212). Element `j` of the read buffer is made of the
byte or bytes of the reads of `ADDR + j` (43_read.md R196, R197). Every operation whose frames yield nothing reports RESULT 0
and OK whatever the responses were (41_mode.md R176, 42_page_write.md R186, R187, 44_ancillary.md R207, R209). That the two
calibration bytes are addressed and ordered so is the spec's own analogy with RDSIG, not the source's (R212, decision D12). -/
def Obligations.ResponseDecodeTable : Prop :=
  (∀ (p : Params) (r : Resp) (a : Half) (d : Byte) (x : BitVec 2) (y : BitVec 1),
    frameResult p r .progEnable = .echo (decide (r.b2 = 0x53)) ∧
    (∀ i ∈ [Instr.readProgLo a, .readProgHi a, .readEep a, .readLock, .readSig x, .readFuseLo, .readFuseHi,
        .readFuseExt, .readCal y], frameResult p r i = .byte r.b3) ∧
    frameResult p r .pollBusy = .busyBit (r.b3.getLsbD p.busyBit) ∧
    ∀ i ∈ [Instr.chipErase, .loadProgLo a d, .loadProgHi a d, .commitProg a, .loadEep a d, .commitEep a,
        .writeEepByte a d, .writeLock d, .writeFuseLo d, .writeFuseHi d, .writeFuseExt d],
      frameResult p r i = .nothing) ∧
  ∀ s : State,
    (∃ t v, exec .enter s = .next t ∧ frameResult s.par t.resp .progEnable = .echo v ∧
      t.mode = (if v = true then .programming else .idle) ∧ t.result = (if v = true then 1 else 0) ∧
      t.status = if v = true then .ok else .eEntry) ∧
    (s.mode = .programming →
      (∃ t b, exec .poll s = .next t ∧ frameResult s.par t.resp .pollBusy = .busyBit b ∧
        t.result = if b = true then 1 else 0) ∧
      (∃ t b, exec .rdlock s = .next t ∧ frameResult s.par t.resp .readLock = .byte b ∧ t.result = b.setWidth 32) ∧
      (∃ t r0 r1 r2 r3 b0 b1 b2 b3, exec .rdsig s = .next t ∧
        t.trace = s.trace ++ eventsOf (opCmds .rdsig s) [r0, r1, r2, r3] ∧
        frameResult s.par r0 (.readSig 0) = .byte b0 ∧ frameResult s.par r1 (.readSig 1) = .byte b1 ∧
        frameResult s.par r2 (.readSig 2) = .byte b2 ∧ frameResult s.par r3 (.readSig 3) = .byte b3 ∧
        t.result = b0.setWidth 32 ||| b1.setWidth 32 <<< 8 ||| b2.setWidth 32 <<< 16 ||| b3.setWidth 32 <<< 24) ∧
      (∃ t r0 r1 r2 b0 b1 b2, exec .rdfuse s = .next t ∧
        t.trace = s.trace ++ eventsOf (opCmds .rdfuse s) [r0, r1, r2] ∧
        frameResult s.par r0 .readFuseLo = .byte b0 ∧ frameResult s.par r1 .readFuseHi = .byte b1 ∧
        frameResult s.par r2 .readFuseExt = .byte b2 ∧
        t.result = b0.setWidth 32 ||| b1.setWidth 32 <<< 8 ||| b2.setWidth 32 <<< 16) ∧
      (∃ t r0 r1 b0 b1, exec .rdcal s = .next t ∧ t.trace = s.trace ++ eventsOf (opCmds .rdcal s) [r0, r1] ∧
        frameResult s.par r0 (.readCal 0) = .byte b0 ∧ frameResult s.par r1 (.readCal 1) = .byte b1 ∧
        t.result = b0.setWidth 32 ||| b1.setWidth 32 <<< 8) ∧
      (∃ t rs, exec .rdprog s = .next t ∧
        t.trace = s.trace ++ eventsOf (readAllCmds .prog s.addr s.count.toNat) rs ∧ rs.length = 2 * s.count.toNat ∧
        ∀ q < s.count.toNat, ∃ x y lo hi, rs[2 * q]? = some x ∧ rs[2 * q + 1]? = some y ∧
          frameResult s.par x (.readProgLo (s.addr + BitVec.ofNat 16 (s.count.toNat - 1 - q))) = .byte lo ∧
          frameResult s.par y (.readProgHi (s.addr + BitVec.ofNat 16 (s.count.toNat - 1 - q))) = .byte hi ∧
          t.out[s.count.toNat - 1 - q]? = some (ofBytes hi lo)) ∧
      (∃ t rs, exec .rdeep s = .next t ∧
        t.trace = s.trace ++ eventsOf (readAllCmds .eep s.addr s.count.toNat) rs ∧ rs.length = s.count.toNat ∧
        ∀ q < s.count.toNat, ∃ x b, rs[q]? = some x ∧
          frameResult s.par x (.readEep (s.addr + BitVec.ofNat 16 (s.count.toNat - 1 - q))) = .byte b ∧
          (t.out[s.count.toNat - 1 - q]?).map (BitVec.setWidth 8) = some b) ∧
      ∀ i ∈ [Instr.erase, .wrprog, .wreep, .wrlock, .wrfuse], ∃ t, exec i s = .next t ∧
        t.mode = s.mode ∧ t.result = 0 ∧ t.status = .ok ∧ t.out = s.out)

/-- 40_codec.md R143: XCHG sends the host's four bytes unchecked, returns the whole response with RESP[0] in the highest byte, waits for
nothing and does not write `mode`; in Idle it is rejected. That `bi` stands at 0 after it is the model's choice (log 10). -/
def Obligations.XchgReturnsTheWholeResponse : Prop :=
  ∀ s : State,
    (s.mode = .idle → exec .xchg s = .next { s with status := .eMode, result := 0, busy := false }) ∧
    (s.mode = .programming → ∃ (r : Resp) (e : Env), exec .xchg s = .next
      { s with resp := r, bi := 0, env := e, draws := s.draws + 4,
               trace := s.trace ++ [.xb s.d0 r.b0, .xb s.d1 r.b1, .xb s.d2 r.b2, .xb s.d3 r.b3],
               result := r.b0.setWidth 32 <<< 24 ||| r.b1.setWidth 32 <<< 16 ||| r.b2.setWidth 32 <<< 8 |||
                 r.b3.setWidth 32,
               status := .ok, busy := false })

/-! ## The program-mode state machine -/

/-- 41_mode.md R170 with 60_exceptions.md R221: the 13 operations that need Programming, in Idle: STATUS E_MODE, RESULT 0, `busy` 0, no event, no
other change. No other instruction is rejected there: ENTER and EXIT run, with events of their own and another STATUS, and
a frame is sent and leaves STATUS alone. That the frames are instructions without a guard is the model's choice (log 8). -/
def Obligations.GuardRejectsInIdle : Prop :=
  (∀ i : Instr, i.guarded = true ↔ i ∈ [Instr.erase, .poll, .wrprog, .wreep, .rdprog, .rdeep, .rdlock, .wrlock, .rdsig,
    .wrfuse, .rdfuse, .rdcal, .xchg]) ∧
  (∀ (i : Instr) (s : State), i.guarded = true → s.mode = .idle →
    exec i s = .next { s with status := .eMode, result := 0, busy := false }) ∧
  ∀ (i : Instr) (s : State), i ∉ [Instr.erase, .poll, .wrprog, .wreep, .rdprog, .rdeep, .rdlock, .wrlock, .rdsig, .wrfuse,
      .rdfuse, .rdcal, .xchg] → s.mode = .idle →
    ∃ t, exec i s = .next t ∧ s.trace.length < t.trace.length ∧
      (i.isFrame = false → t.status ≠ .eMode) ∧ (i.isFrame = true → t.status = s.status)

/-- 41_mode.md R171, R172: ENTER in either mode and with any RESET_SEQ: the transport enabled, the reset pulse, the enable frame, and the
verdict on RESP[2] alone; a failure rolls back to Idle. No other register changes but the transient ones: that `bi` stands at 0
after it is the model's choice (log 10), and that the timer stands at 0 after a wait is DEDUCED (log 9). -/
def Obligations.EnterIsDecidedByTheEcho : Prop :=
  ∀ s : State, ∃ (r : Resp) (e : Env) (front : List Event),
    front = s.trace ++ [.busEnable] ++
      (s.par.resetSeq.steps.flatMap fun q =>
        if q.settle = true then [Event.reset q.level, .wait .reset] else [Event.reset q.level]) ++
      [.xb 0xAC r.b0, .xb 0x53 r.b1, .xb 0x00 r.b2, .xb 0x00 r.b3] ∧
    (r.b2 = 0x53 → exec .enter s = .next
      { s with mode := .programming, busEn := true, rst := false, resp := r, bi := 0, env := e, draws := s.draws + 4,
               tmr := if s.par.resetSeq.steps.any (·.settle) = true then 0 else s.tmr, trace := front,
               result := 1, status := .ok, busy := false }) ∧
    (r.b2 ≠ 0x53 → exec .enter s = .next
      { s with mode := .idle, busEn := false, rst := true, resp := r, bi := 0, env := e, draws := s.draws + 4,
               tmr := if s.par.resetSeq.steps.any (·.settle) = true then 0 else s.tmr,
               trace := front ++ [.reset true, .busDisable],
               result := 0, status := .eEntry, busy := false })

/-- 41_mode.md R174: EXIT in either mode: reset released, the transport disabled, Idle; RESP and every other register unchanged. -/
def Obligations.ExitReleasesTheTarget : Prop :=
  ∀ s : State, exec .exit s = .next
    { s with rst := true, busEn := false, mode := .idle, env := (s.env.resetLine true).busDisable,
             trace := s.trace ++ [.reset true, .busDisable], result := 0, status := .ok, busy := false }

/-- 41_mode.md R175: EXIT is idempotent in state: after one EXIT a second one changes nothing, and emits its two events all the same; in
Idle with the outputs of Idle it leaves them as they were. -/
def Obligations.ExitIsIdempotent : Prop :=
  (∀ s : State, ∃ t, exec .exit s = .next t ∧
    exec .exit t = .next { t with trace := t.trace ++ [.reset true, .busDisable] }) ∧
  ∀ s : State, s.mode = .idle → s.rst = true → s.busEn = false → ∃ t, exec .exit s = .next t ∧
    t.mode = s.mode ∧ t.rst = s.rst ∧ t.busEn = s.busEn ∧ t.trace = s.trace ++ [.reset true, .busDisable]

/-- 41_mode.md R176: ERASE sends its frame, waits, and reports OK whatever the response; RESULT 0.
In Idle: E_MODE, no event. No other register changes.
That `bi` stands at 0 afterwards is the model's choice (log 10), and that the timer does is DEDUCED (log 9). -/
def Obligations.EraseSendsItsFrameAndWaits : Prop :=
  ∀ s : State,
    (s.mode = .idle → exec .erase s = .next { s with status := .eMode, result := 0, busy := false }) ∧
    (s.mode = .programming → ∃ (r : Resp) (e : Env), exec .erase s = .next
      { s with resp := r, bi := 0, env := e, draws := s.draws + 4, tmr := 0,
               trace := s.trace ++ [.xb 0xAC r.b0, .xb 0x80 r.b1, .xb 0x00 r.b2, .xb 0x00 r.b3, .wait .erase],
               result := 0, status := .ok, busy := false })

/-- 41_mode.md R178: POLL sends one frame and returns the bit BUSY_BIT of RESP[3]; no wait, no loop.
In Idle: E_MODE, no event. No other register changes.
That `bi` stands at 0 afterwards is the model's choice (log 10). -/
def Obligations.PollReportsTheBusyBit : Prop :=
  ∀ s : State,
    (s.mode = .idle → exec .poll s = .next { s with status := .eMode, result := 0, busy := false }) ∧
    (s.mode = .programming → ∃ (r : Resp) (e : Env), exec .poll s = .next
      { s with resp := r, bi := 0, env := e, draws := s.draws + 4,
               trace := s.trace ++ [.xb 0xF0 r.b0, .xb 0x00 r.b1, .xb 0x00 r.b2, .xb 0x00 r.b3],
               result := if r.b3.getLsbD s.par.busyBit = true then 1 else 0, status := .ok, busy := false })

/-- 10_state.md R21, R23, R24: only ENTER and EXIT write `mode`, `bus_en` and `rst`. -/
def Obligations.OnlyEnterAndExitWriteTheMode : Prop :=
  ∀ (i : Instr) (s : State), i ≠ .enter → i ≠ .exit →
    ∃ t, exec i s = .next t ∧ t.mode = s.mode ∧ t.busEn = s.busEn ∧ t.rst = s.rst

/-! ## Page writes -/

/-- 42_page_write.md R180, R181: LoadUnit stages one unit: its frames, and the engine's record of it. -/
def Obligations.LoadUnitStagesOneUnit : Prop :=
  ∀ (a v : Half) (s : State),
    (∃ (r0 r1 : Resp) (e : Env), loadUnit .prog a v s =
      { s with resp := r1, bi := 0, env := e, draws := s.draws + 8,
               trace := s.trace ++
                 [.xb 0x40 r0.b0, .xb 0x00 r0.b1, .xb (loByte (a &&& 0x000F)) r0.b2, .xb (v.extractLsb' 0 8) r0.b3,
                  .xb 0x48 r1.b0, .xb 0x00 r1.b1, .xb (loByte (a &&& 0x000F)) r1.b2, .xb (v.extractLsb' 8 8) r1.b3],
               ppbValid := s.ppbValid.setIfInBounds (a &&& 0x000F).toNat true,
               ppbVal := s.ppbVal.setIfInBounds (a &&& 0x000F).toNat v }) ∧
    (∃ (r0 : Resp) (e : Env), loadUnit .eep a v s =
      { s with resp := r0, bi := 0, env := e, draws := s.draws + 4,
               trace := s.trace ++
                 [.xb 0xC1 r0.b0, .xb 0x00 r0.b1, .xb (loByte (a &&& 0x0003)) r0.b2, .xb (v.extractLsb' 0 8) r0.b3],
               ppbValid := s.ppbValid.setIfInBounds (a &&& 0x0003).toNat true,
               ppbVal := s.ppbVal.setIfInBounds (a &&& 0x0003).toNat ((v.extractLsb' 0 8).setWidth 16) }) ∧
    (a &&& 0x000F).toNat < 16 ∧ (a &&& 0x0003).toNat < 16

/-- 42_page_write.md R182, R183: Commit sends the masked page address and empties the page buffer record. -/
def Obligations.CommitSendsThePageAddress : Prop :=
  ∀ (a : Half) (s : State),
    (∃ (r : Resp) (e : Env), commit .prog a s =
      { s with resp := r, bi := 0, env := e, draws := s.draws + 4,
               trace := s.trace ++ [.xb 0x4C r.b0, .xb ((a &&& 0x03F0).extractLsb' 8 8) r.b1,
                 .xb ((a &&& 0x03F0).extractLsb' 0 8) r.b2, .xb 0x00 r.b3],
               ppbValid := Vector.replicate 16 false }) ∧
    (∃ (r : Resp) (e : Env), commit .eep a s =
      { s with resp := r, bi := 0, env := e, draws := s.draws + 4,
               trace := s.trace ++ [.xb 0xC2 r.b0, .xb 0x00 r.b1, .xb ((a &&& 0x007C).extractLsb' 0 8) r.b2, .xb 0x00 r.b3],
               ppbValid := Vector.replicate 16 false })

/-- 42_page_write.md R184, R186, R187: WRPROG and WREEP on the transport are exactly the schedule of R184: page after page in ascending order,
each its loads in ascending order, its commit at `start + j * UPP` and its settle wait. RESP is left with the last response;
the page buffer record is empty; RESULT 0 and STATUS OK; the transient registers stand where the algorithm left them
(log 10) and the timer at 0 after a wait (log 9, DEDUCED); nothing else changes. A value the host did not supply is a free
value (log 12). -/
def Obligations.WritePagesFollowsItsSchedule : Prop :=
  ∀ (r : Region) (s : State),
    (s.mode = .idle → exec (writeOp r) s = .next { s with status := .eMode, result := 0, busy := false }) ∧
    (s.mode = .programming → ∃ (cs : List Cmd) (rs : List Resp) (t : State),
      cs = writeCmds r s.addr (unitValue r s.values s.draws) s.count.toNat ∧ rs.length = frameCount cs ∧
      exec (writeOp r) s = .next t ∧
      t = { s with trace := s.trace ++ eventsOf cs rs, resp := rs.getLast?.getD s.resp,
                   ppbValid := Vector.replicate 16 false, result := 0, status := .ok, busy := false,
                   draws := s.draws + 4 * frameCount cs, env := t.env, ppbVal := t.ppbVal,
                   pa := s.addr + BitVec.ofNat 16 (pageCount r s.count.toNat * r.upp), k := s.count,
                   i := if s.count = 0 then s.i else BitVec.ofNat 5 ((s.count.toNat - 1) % r.upp + 1),
                   bi := if s.count = 0 then s.bi else 0, tmr := if s.count = 0 then s.tmr else 0 })

/-- 42_page_write.md R185: the number of commits, of waits, of loads and of frames, and the address of every commit. -/
def Obligations.CommitCountAndCommitAddresses : Prop :=
  ∀ (r : Region) (s : State), s.mode = .programming → ∃ (cs : List Cmd) (rs : List Resp) (t : State),
    exec (writeOp r) s = .next t ∧ t.trace = s.trace ++ eventsOf cs rs ∧ rs.length = frameCount cs ∧
    cs.filter (Cmd.isCommit r) =
      (List.range ((s.count.toNat + r.upp - 1) / r.upp)).map (fun j => commitCmd r (s.addr + BitVec.ofNat 16 (j * r.upp))) ∧
    cs.count (.wait r.wr) = (s.count.toNat + r.upp - 1) / r.upp ∧
    (cs.filter (Cmd.isLoad r)).length = r.unitBytes * s.count.toNat ∧
    frameCount cs = r.unitBytes * s.count.toNat + (s.count.toNat + r.upp - 1) / r.upp

/-- 42_page_write.md R188 (b): a chunk is fully loaded before its commit. From an empty record, the inner loop leaves exactly the `m` offsets
of its chunk valid, pairwise distinct; a chunk has at least one unit and at most a page; a commit empties the record; and one
pass of the outer loop loads the chunk by the inner loop, then commits at `pa` the state this leaves, whose valid offsets are
exactly the chunk's, then waits and advances `pa`. -/
def Obligations.ChunkIsLoadedBeforeItsCommit : Prop :=
  (∀ (r : Region) (s : State) (m : Nat), s.ppbEmpty → m ≤ r.upp →
    (∀ o : Fin 16, (loadUnits r m (firstIndex s)).ppbValid[o] = true ↔
      ∃ q < m, ((s.pa + BitVec.ofNat 16 q) &&& r.offs).toNat = o.val) ∧
    ∀ q < m, ∀ p < m, (s.pa + BitVec.ofNat 16 q) &&& r.offs = (s.pa + BitVec.ofNat 16 p) &&& r.offs → q = p) ∧
  (∀ (r : Region) (s : State), s.k.toNat < s.count.toNat → 1 ≤ chunkSize r s ∧ chunkSize r s ≤ r.upp) ∧
  (∀ (r : Region) (a : Half) (s : State), (commit r a s).ppbEmpty) ∧
  ∀ (r : Region) (s : State),
    writeChunk r s =
      nextPage r (waitFor r.wr (commit r s.pa (advanceValues (chunkSize r s) (loadUnits r (chunkSize r s) (firstIndex s))))) ∧
    (s.ppbEmpty → ∀ o : Fin 16,
      (advanceValues (chunkSize r s) (loadUnits r (chunkSize r s) (firstIndex s))).ppbValid[o] = true ↔
        ∃ q < chunkSize r s, ((s.pa + BitVec.ofNat 16 q) &&& r.offs).toNat = o.val)

/-- 42_page_write.md R191 (a), 43_read.md R198 (a): COUNT 0 in Programming: no event, RESP unchanged, OK. That `pa` and `k` keep what the
algorithms first write in them is the model's choice (log 10), and so is a read buffer replaced whole, here by an empty
one (log 11). -/
def Obligations.CountZeroSendsNothing : Prop :=
  ∀ (r : Region) (s : State), s.mode = .programming → s.count = 0 →
    exec (writeOp r) s = .next
      { s with pa := s.addr, k := 0, ppbValid := Vector.replicate 16 false, result := 0, status := .ok, busy := false } ∧
    exec (readOp r) s = .next { s with k := 0, out := [], result := 0, status := .ok, busy := false }

/-- 20_memory.md R56: a write or a read that starts beyond the region behaves as one that starts at `ADDR & FULL`: the same events, the
same responses and results, the same target. -/
def Obligations.AddressesWrapAtTheEndOfTheRegion : Prop :=
  ∀ (r : Region) (s : State),
    (∃ t u, exec (writeOp r) s = .next t ∧ exec (writeOp r) { s with addr := s.addr &&& r.full } = .next u ∧
      u = { t with addr := u.addr, pa := u.pa }) ∧
    (∃ t u, exec (readOp r) s = .next t ∧ exec (readOp r) { s with addr := s.addr &&& r.full } = .next u ∧
      u = { t with addr := u.addr })

/-! ## Unit reads -/

/-- 43_read.md R196: ReadUnit: a program word is its low-byte frame, then its high-byte frame, `(hi << 8) | lo`; a data byte is one
frame (zero-extended here, log 11). -/
def Obligations.ReadUnitAssemblesTheResponses : Prop :=
  ∀ (a : Half) (s : State),
    (∃ (r0 r1 : Resp) (e : Env), readUnit .prog a s =
      (r1.b3.setWidth 16 <<< 8 ||| r0.b3.setWidth 16,
        { s with resp := r1, bi := 0, env := e, draws := s.draws + 8,
                 trace := s.trace ++
                   [.xb 0x20 r0.b0, .xb ((a &&& 0x03FF).extractLsb' 8 8) r0.b1,
                    .xb ((a &&& 0x03FF).extractLsb' 0 8) r0.b2, .xb 0x00 r0.b3,
                    .xb 0x28 r1.b0, .xb ((a &&& 0x03FF).extractLsb' 8 8) r1.b1,
                    .xb ((a &&& 0x03FF).extractLsb' 0 8) r1.b2, .xb 0x00 r1.b3] })) ∧
    (∃ (r0 : Resp) (e : Env), readUnit .eep a s =
      (r0.b3.setWidth 16,
        { s with resp := r0, bi := 0, env := e, draws := s.draws + 4,
                 trace := s.trace ++
                   [.xb 0xA0 r0.b0, .xb 0x00 r0.b1, .xb ((a &&& 0x007F).extractLsb' 0 8) r0.b2, .xb 0x00 r0.b3] }))

/-- 43_read.md R197, R199, R200: RDPROG and RDEEP read the unit at `start + count - 1` first and the one at `start` last; `out[j]` is the unit at
`start + j`. RESP is left with the last response, RESULT 0, STATUS OK; nothing else changes but `k` and `bi`. On rejection the
read buffer is not written. What stands in `k` and `bi` afterwards is the model's choice (log 10), and so are a read buffer
of exactly COUNT elements and a data byte zero-extended in it (log 11). -/
def Obligations.ReadUnitsFollowsItsSchedule : Prop :=
  ∀ (r : Region) (s : State),
    (s.mode = .idle → exec (readOp r) s = .next { s with status := .eMode, result := 0, busy := false }) ∧
    (s.mode = .programming → ∃ (cs : List Cmd) (rs : List Resp) (t : State),
      cs = readAllCmds r s.addr s.count.toNat ∧ rs.length = frameCount cs ∧
      exec (readOp r) s = .next t ∧ t.out.length = s.count.toNat ∧
      t = { s with trace := s.trace ++ eventsOf cs rs, resp := rs.getLast?.getD s.resp,
                   out := (unitsRead r rs).reverse, result := 0, status := .ok, busy := false,
                   draws := s.draws + 4 * frameCount cs, env := t.env, k := 0,
                   bi := if s.count = 0 then s.bi else 0 })

/-! ## The ancillary operations -/

/-- 44_ancillary.md R206: RDLOCK sends the frame `58 00 00 00`; RESULT is RESP[3] zero-extended, STATUS OK.
In Idle: E_MODE, no event. No other register changes.
That `bi` stands at 0 afterwards is the model's choice (log 10). -/
def Obligations.RdlockReturnsTheLockByte : Prop :=
  ∀ s : State,
    (s.mode = .idle → exec .rdlock s = .next { s with status := .eMode, result := 0, busy := false }) ∧
    (s.mode = .programming → ∃ (r : Resp) (e : Env), exec .rdlock s = .next
      { s with resp := r, bi := 0, env := e, draws := s.draws + 4,
               trace := s.trace ++ [.xb 0x58 r.b0, .xb 0x00 r.b1, .xb 0x00 r.b2, .xb 0x00 r.b3],
               result := r.b3.setWidth 32, status := .ok, busy := false })

/-- 44_ancillary.md R207: WRLOCK sends the frame `AC E0 00 D0` and waits LOCK; RESULT 0, STATUS OK.
In Idle: E_MODE, no event. No other register changes.
That `bi` stands at 0 afterwards is the model's choice (log 10), and that the timer does is DEDUCED (log 9). -/
def Obligations.WrlockSendsTheLockByteAndWaits : Prop :=
  ∀ s : State,
    (s.mode = .idle → exec .wrlock s = .next { s with status := .eMode, result := 0, busy := false }) ∧
    (s.mode = .programming → ∃ (r : Resp) (e : Env), exec .wrlock s = .next
      { s with resp := r, bi := 0, env := e, draws := s.draws + 4, tmr := 0,
               trace := s.trace ++ [.xb 0xAC r.b0, .xb 0xE0 r.b1, .xb 0x00 r.b2, .xb s.d0 r.b3, .wait .lock],
               result := 0, status := .ok, busy := false })

/-- 44_ancillary.md R208: RDSIG: four reads in sub-address order 0, 1, 2, 3, assembled little-endian into RESULT; no wait.
In Idle: E_MODE, no event. No other register changes.
That `bi` stands at 0 afterwards is the model's choice (log 10). -/
def Obligations.RdsigAssemblesFourBytes : Prop :=
  ∀ s : State,
    (s.mode = .idle → exec .rdsig s = .next { s with status := .eMode, result := 0, busy := false }) ∧
    (s.mode = .programming → ∃ (r0 r1 r2 r3 : Resp) (e : Env), exec .rdsig s = .next
      { s with resp := r3, bi := 0, env := e, draws := s.draws + 16,
               trace := s.trace ++
                 [.xb 0x30 r0.b0, .xb 0x00 r0.b1, .xb 0x00 r0.b2, .xb 0x00 r0.b3,
                  .xb 0x30 r1.b0, .xb 0x00 r1.b1, .xb 0x01 r1.b2, .xb 0x00 r1.b3,
                  .xb 0x30 r2.b0, .xb 0x00 r2.b1, .xb 0x02 r2.b2, .xb 0x00 r2.b3,
                  .xb 0x30 r3.b0, .xb 0x00 r3.b1, .xb 0x03 r3.b2, .xb 0x00 r3.b3],
               result := r0.b3.setWidth 32 ||| r1.b3.setWidth 32 <<< 8 ||| r2.b3.setWidth 32 <<< 16 |||
                 r3.b3.setWidth 32 <<< 24,
               status := .ok, busy := false })

/-- 44_ancillary.md R209, R210: WRFUSE: low (D0), high (D1), extended (D2), each followed by its own wait; RESULT 0.
In Idle: E_MODE, no event. No other register changes.
That `bi` stands at 0 afterwards is the model's choice (log 10), and that the timer does is DEDUCED (log 9). -/
def Obligations.WrfuseWritesThreeBytesEachWithItsWait : Prop :=
  ∀ s : State,
    (s.mode = .idle → exec .wrfuse s = .next { s with status := .eMode, result := 0, busy := false }) ∧
    (s.mode = .programming → ∃ (r0 r1 r2 : Resp) (e : Env), exec .wrfuse s = .next
      { s with resp := r2, bi := 0, env := e, draws := s.draws + 12, tmr := 0,
               trace := s.trace ++
                 [.xb 0xAC r0.b0, .xb 0xA0 r0.b1, .xb 0x00 r0.b2, .xb s.d0 r0.b3, .wait .fuse,
                  .xb 0xAC r1.b0, .xb 0xA8 r1.b1, .xb 0x00 r1.b2, .xb s.d1 r1.b3, .wait .fuse,
                  .xb 0xAC r2.b0, .xb 0xA4 r2.b1, .xb 0x00 r2.b2, .xb s.d2 r2.b3, .wait .fuse],
               result := 0, status := .ok, busy := false })

/-- 44_ancillary.md R211: RDFUSE: low, high, extended, with the frames of FUSE_RD whatever they are, into bits 7..0, 15..8
and 23..16 of RESULT; no wait. In Idle: E_MODE, no event. No other register changes.
That `bi` stands at 0 afterwards is the model's choice (log 10). -/
def Obligations.RdfuseReadsWithTheConfiguredTable : Prop :=
  ∀ s : State,
    (s.mode = .idle → exec .rdfuse s = .next { s with status := .eMode, result := 0, busy := false }) ∧
    (s.mode = .programming → ∃ (r0 r1 r2 : Resp) (e : Env), exec .rdfuse s = .next
      { s with resp := r2, bi := 0, env := e, draws := s.draws + 12,
               trace := s.trace ++
                 [.xb s.par.fuseRd.low.opcode.byte r0.b0, .xb s.par.fuseRd.low.hi r0.b1, .xb 0x00 r0.b2, .xb 0x00 r0.b3,
                  .xb s.par.fuseRd.high.opcode.byte r1.b0, .xb s.par.fuseRd.high.hi r1.b1, .xb 0x00 r1.b2, .xb 0x00 r1.b3,
                  .xb s.par.fuseRd.ext.opcode.byte r2.b0, .xb s.par.fuseRd.ext.hi r2.b1, .xb 0x00 r2.b2, .xb 0x00 r2.b3],
               result := r0.b3.setWidth 32 ||| r1.b3.setWidth 32 <<< 8 ||| r2.b3.setWidth 32 <<< 16,
               status := .ok, busy := false })

/-- 44_ancillary.md R212: RDCAL: sub-addresses 0 and 1, assembled little-endian into RESULT; no wait.
In Idle: E_MODE, no event. No other register changes.
That the two bytes are addressed and ordered so is the spec's own analogy with RDSIG, not the source's (R212, decision D12). That
`bi` stands at 0 afterwards is the model's choice (log 10). -/
def Obligations.RdcalAssemblesTwoBytes : Prop :=
  ∀ s : State,
    (s.mode = .idle → exec .rdcal s = .next { s with status := .eMode, result := 0, busy := false }) ∧
    (s.mode = .programming → ∃ (r0 r1 : Resp) (e : Env), exec .rdcal s = .next
      { s with resp := r1, bi := 0, env := e, draws := s.draws + 8,
               trace := s.trace ++
                 [.xb 0x38 r0.b0, .xb 0x00 r0.b1, .xb 0x00 r0.b2, .xb 0x00 r0.b3,
                  .xb 0x38 r1.b0, .xb 0x00 r1.b1, .xb 0x01 r1.b2, .xb 0x00 r1.b3],
               result := r0.b3.setWidth 32 ||| r1.b3.setWidth 32 <<< 8, status := .ok, busy := false })

/-! ## The whole machine -/

/-- 10_state.md R25, R27, R32: every instruction completes in every state, leaves the operand registers, the value buffer and the
parameters as they are, and a host operation ends with `busy` 0. For a guarded operation in Idle the next state is that of its
rejection with E_MODE (41_mode.md R170). That a frame is an instruction by itself, which completes in every state and leaves
`busy` alone, is the model's choice (log 8; 40_codec.md R140). -/
def Obligations.EveryInstructionCompletesAndKeepsItsInputs : Prop :=
  ∀ (i : Instr) (s : State), ∃ t, exec i s = .next t ∧
    t.op = s.op ∧ t.addr = s.addr ∧ t.count = s.count ∧ t.d0 = s.d0 ∧ t.d1 = s.d1 ∧ t.d2 = s.d2 ∧ t.d3 = s.d3 ∧
    t.values = s.values ∧ t.par = s.par ∧ t.host = s.host ∧
    (i.isFrame = false → t.busy = false) ∧ (i.isFrame = true → t.busy = s.busy)

/-- 70_reset_and_hazards.md R263: the number of byte exchanges and of waits of every operation, ENTER with the default RESET_SEQ. -/
def Obligations.EventCountsOfEveryOperation : Prop :=
  (∀ (s : State) (n : Nat), s.mode = .programming → n = s.count.toNat →
    ∀ row ∈ [(Instr.exit, 0, 0), (.erase, 4, 1), (.poll, 4, 0), (.wrprog, 4 * (2 * n + (n + 15) / 16), (n + 15) / 16),
        (.wreep, 4 * (n + (n + 3) / 4), (n + 3) / 4), (.rdprog, 8 * n, 0), (.rdeep, 4 * n, 0), (.rdlock, 4, 0),
        (.wrlock, 4, 1), (.rdsig, 16, 0), (.wrfuse, 12, 3), (.rdfuse, 12, 0), (.rdcal, 8, 0), (.xchg, 4, 0)],
      ∃ t, exec row.1 s = .next t ∧ (eventsSince s t).countP Event.isXb = row.2.1 ∧
        (eventsSince s t).countP Event.isWait = row.2.2) ∧
  ∀ s : State, s.par.resetSeq = { before := [], lastSettle := true } → ∃ t, exec .enter s = .next t ∧
    (eventsSince s t).countP Event.isXb = 4 ∧ (eventsSince s t).countP Event.isWait = 1

/-- 60_exceptions.md R223: response bytes steer nothing but ENTER. Two runs of an operation from states that differ in the environment alone
send the same commands, and end in states that differ at most in RESP, RESULT, the read buffer, the environment and the bytes
in the trace; for ENTER this holds of two runs that reach the same verdict. -/
def Obligations.ResponsesSteerOnlyEnter : Prop :=
  ∀ (i : Instr) (s : State) (e : Env), ∃ t u,
    exec i s = .next t ∧ exec i { s with env := e } = .next u ∧
    (i ≠ .enter ∨ t.mode = u.mode →
      u = { t with resp := u.resp, result := u.result, out := u.out, env := u.env, trace := u.trace } ∧
      (eventsSince s u).map Event.command = (eventsSince s t).map Event.command)

/-- 10_state.md R32 (c), 00_scope.md R8, R12: no step writes the parameters, and the events emitted stay emitted. -/
def Obligations.StepsKeepTheParametersAndTheTrace : Prop :=
  ∀ s t : State, step s = .next t → t.par = s.par ∧ ∃ es, t.trace = s.trace ++ es

/-- 10_state.md R21, R29, R34: the state after power-on meets the invariant. The environment's part of it is the model's (log 2, log 15). -/
def Obligations.PowerOnStateMeetsTheInvariant : Prop := State.reset.Inv

/-- 10_state.md R21, R29, R30, 60_exceptions.md R230: between operations the outputs match the mode, no page is half staged, the timer has run
out and the engine is not busy; every step keeps this. The timer clause is DEDUCED (log 9): R30 says what the timer is for, and that
it stands at 0 after a step follows only because a whole wait lies inside one step of the model. That the memories of the environment
stay in canonical form is the model's (log 15). -/
def Obligations.InvariantIsKeptByEveryStep : Prop :=
  ∀ s t : State, s.Inv → step s = .next t → t.Inv

/-! ## The environment assumptions (20_memory.md R70 to R77), on the reference target -/

/-- 20_memory.md R75: a ready target answers a read frame with the byte it holds, and the read changes nothing in it. The signature,
calibration, lock and fuse bytes are DEDUCED (log 14). -/
def Obligations.ReadyTargetAnswersReads : Prop :=
  ∀ (i : Instr) (s : State) (sp : Space) (x : Nat), s.env.Ready → s.par.fuseRd.WellFormed → sourceOf i = some (sp, x) →
    ∃ t, exec i s = .next t ∧ (∀ v, s.env.peek sp x = some v → t.resp.b3 = v) ∧ t.env.Ready ∧
      ∀ sp' x', t.env.peek sp' x' = s.env.peek sp' x'

/-- 20_memory.md R72: a load stages one byte in the page buffer of a ready target and persists nothing. -/
def Obligations.ReadyTargetStagesLoads : Prop :=
  ∀ (a : Half) (d : Byte) (s : State), s.env.Ready →
    (∃ t, exec (.loadProgLo a d) s = .next t ∧ t.env.Ready ∧ ∀ sp x, t.env.peek sp x =
      if sp = .progLatch ∧ x = 2 * (a &&& 0x000F).toNat then some d else s.env.peek sp x) ∧
    (∃ t, exec (.loadProgHi a d) s = .next t ∧ t.env.Ready ∧ ∀ sp x, t.env.peek sp x =
      if sp = .progLatch ∧ x = 2 * (a &&& 0x000F).toNat + 1 then some d else s.env.peek sp x) ∧
    (∃ t, exec (.loadEep a d) s = .next t ∧ t.env.Ready ∧ ∀ sp x, t.env.peek sp x =
      if sp = .eepLatch ∧ x = (a &&& 0x0003).toNat then some d else s.env.peek sp x)

/-- 20_memory.md R73, R74: a commit to a ready target writes the loaded slots of its page; a slot not loaded is of unknown content; no byte
outside the page, and none of another space but the page buffer, changes; after the settle wait the target is ready again.
That a commit stores any value over any other is R73's text; the model asks for no erase first (log 20). -/
def Obligations.ReadyTargetStoresACommittedPage : Prop :=
  (∀ (a : Half) (s : State), s.env.Ready → s.env.wf = true → s.par.tWrProg ≠ 0 →
    ∃ t, exec (.commitProg a) s = .next t ∧ (waitFor .wrProg t).env.Ready ∧
      (∀ o < 16, ∀ lo hi, s.env.peek .progLatch (2 * o) = some lo → s.env.peek .progLatch (2 * o + 1) = some hi →
        t.env.peek .prog (2 * ((a &&& 0x03F0).toNat + o)) = some lo ∧
        t.env.peek .prog (2 * ((a &&& 0x03F0).toNat + o) + 1) = some hi) ∧
      (∀ o < 16, s.env.peek .progLatch (2 * o) = none ∨ s.env.peek .progLatch (2 * o + 1) = none →
        t.env.peek .prog (2 * ((a &&& 0x03F0).toNat + o)) = none ∧
        t.env.peek .prog (2 * ((a &&& 0x03F0).toNat + o) + 1) = none) ∧
      (∀ x, x < 2 * (a &&& 0x03F0).toNat ∨ 2 * (a &&& 0x03F0).toNat + 32 ≤ x →
        t.env.peek .prog x = s.env.peek .prog x) ∧
      ∀ sp x, sp ≠ .prog → sp ≠ .progLatch → t.env.peek sp x = s.env.peek sp x) ∧
  (∀ (a : Half) (s : State), s.env.Ready → s.env.wf = true → s.par.tWrEep ≠ 0 →
    ∃ t, exec (.commitEep a) s = .next t ∧ (waitFor .wrEep t).env.Ready ∧
      (∀ o < 4, t.env.peek .eep ((a &&& 0x007C).toNat + o) = s.env.peek .eepLatch o) ∧
      (∀ x, x < (a &&& 0x007C).toNat ∨ (a &&& 0x007C).toNat + 4 ≤ x → t.env.peek .eep x = s.env.peek .eep x) ∧
      ∀ sp x, sp ≠ .eep → sp ≠ .eepLatch → t.env.peek sp x = s.env.peek sp x)

/-- 20_memory.md R61, R75: the operations that only read leave every byte of a ready target as it was. For RDSIG, RDCAL, RDLOCK and RDFUSE
this is DEDUCED (log 14), and for POLL too (log 17). -/
def Obligations.ReadOperationsLeaveTheTargetAlone : Prop :=
  ∀ (i : Instr) (s : State), i ∈ [Instr.rdprog, .rdeep, .rdlock, .rdsig, .rdfuse, .rdcal, .poll] → s.env.Ready →
    ∃ t, exec i s = .next t ∧ t.env.Ready ∧ ∀ sp x, t.env.peek sp x = s.env.peek sp x

/-- 42_page_write.md R184 with 20_memory.md R73, R74: a page write changes no byte of the target outside the pages it commits to, its own page
buffer apart, and leaves the target ready. The premise on T_WR is 70_reset_and_hazards.md R257. -/
def Obligations.PageWriteTouchesOnlyItsPages : Prop :=
  ∀ (r : Region) (s : State), s.mode = .programming → s.env.Ready → s.env.wf = true → s.par.ticks r.wr ≠ 0 →
    ∃ t, exec (writeOp r) s = .next t ∧ t.env.Ready ∧
      ∀ sp x, sp ≠ latchOf r →
        (sp = spaceOf r → ∀ j < pageCount r s.count.toNat,
          x < r.unitBytes * ((s.addr + BitVec.ofNat 16 (j * r.upp)) &&& r.page).toNat ∨
          r.unitBytes * (((s.addr + BitVec.ofNat 16 (j * r.upp)) &&& r.page).toNat + r.upp) ≤ x) →
        t.env.peek sp x = s.env.peek sp x

/-- 43_read.md R201, the round trip: under the environment assumptions, a page-aligned write of at most a whole region of supplied values,
read back over the same range, gives exactly those values (the low byte of each for data memory, log 11). The reference target
stores over any earlier content (log 20). -/
def Obligations.PageWriteThenReadReturnsTheValues : Prop :=
  ∀ (r : Region) (s : State), s.mode = .programming → s.env.Ready → s.env.wf = true → s.par.ticks r.wr ≠ 0 →
    s.addr &&& r.offs = 0 → s.count.toNat ≤ r.full.toNat + 1 → s.values.length = s.count.toNat →
    ∃ t u, exec (writeOp r) s = .next t ∧ exec (readOp r) t = .next u ∧ u.out = s.values.map (unitOf r) ∧
      u.status = .ok

/-- 20_memory.md R74 and program P4 of 95_test_vectors.md: a lock byte and three fuse bytes written to a ready target read back as written,
and nothing else in it changes. The storage of these bytes is DEDUCED (log 14). -/
def Obligations.LockAndFuseBytesReadBack : Prop :=
  ∀ s : State, s.mode = .programming → s.env.Ready → s.par.fuseRd.WellFormed →
    (s.par.tLock ≠ 0 → ∃ t u, exec .wrlock s = .next t ∧ exec .rdlock t = .next u ∧ u.result = s.d0.setWidth 32 ∧
      ∀ sp x, sp ≠ .lock → u.env.peek sp x = s.env.peek sp x) ∧
    (s.par.tFuse ≠ 0 → ∃ t u, exec .wrfuse s = .next t ∧ exec .rdfuse t = .next u ∧
      u.result = s.d0.setWidth 32 ||| s.d1.setWidth 32 <<< 8 ||| s.d2.setWidth 32 <<< 16 ∧
      ∀ sp x, sp ≠ .fuse → u.env.peek sp x = s.env.peek sp x)

/-- 20_memory.md R77: a target that is not busy echoes the enable frame after a settled reset pulse; ENTER succeeds and leaves it ready,
its memories untouched. What the reset line and its settle wait do to the target is the model's choice (log 16), and so is that a
target already in programming mode stays in it on the enable frame, its memories as they were (log 22). -/
def Obligations.EnterFindsAWillingTarget : Prop :=
  ∀ (s : State) (tg : Target), s.env = .reference tg → tg.busy = none → s.par.resetSeq.lastSettle = true →
    s.par.tReset ≠ 0 →
    ∃ t, exec .enter s = .next t ∧ t.mode = .programming ∧ t.result = 1 ∧ t.env.Ready ∧
      ∀ sp x, t.env.peek sp x = s.env.peek sp x

/-- 20_memory.md R76: the chip erase on a ready target, by ERASE and by its frame alone: nothing is known of program memory any more, and
after a settle wait of at least one tick the target is ready (R74). R76 leaves open what else is erased and what an erased
unit reads as: that every other space, the signature and calibration bytes among them, becomes unknown too is the model's way
to assume nothing of them (log 21). -/
def Obligations.EraseForgetsTheTargetMemories : Prop :=
  ∀ s : State, s.env.Ready →
    (∃ t, exec .chipErase s = .next t ∧ (s.par.tErase ≠ 0 → (waitFor .erase t).env.Ready) ∧
      ∀ sp x, t.env.peek sp x = none) ∧
    (s.mode = .programming → ∃ t, exec .erase s = .next t ∧ (s.par.tErase ≠ 0 → t.env.Ready) ∧
      ∀ sp x, t.env.peek sp x = none)
end

