-- ==== Sys2Proof/Laws/State.lean ====
section
/-! SUPPORT. One lemma per field per update of State, so that no later proof unfolds a record update. -/

namespace Sys2Proof.Machine

variable (s : State)

/-! ## busEnable -/

@[simp] theorem busEnable_mode : (busEnable s).mode = s.mode := rfl
@[simp] theorem busEnable_resp : (busEnable s).resp = s.resp := rfl
@[simp] theorem busEnable_busEn : (busEnable s).busEn = true := rfl
@[simp] theorem busEnable_rst : (busEnable s).rst = s.rst := rfl
@[simp] theorem busEnable_busy : (busEnable s).busy = s.busy := rfl
@[simp] theorem busEnable_status : (busEnable s).status = s.status := rfl
@[simp] theorem busEnable_result : (busEnable s).result = s.result := rfl
@[simp] theorem busEnable_op : (busEnable s).op = s.op := rfl
@[simp] theorem busEnable_addr : (busEnable s).addr = s.addr := rfl
@[simp] theorem busEnable_count : (busEnable s).count = s.count := rfl
@[simp] theorem busEnable_d0 : (busEnable s).d0 = s.d0 := rfl
@[simp] theorem busEnable_d1 : (busEnable s).d1 = s.d1 := rfl
@[simp] theorem busEnable_d2 : (busEnable s).d2 = s.d2 := rfl
@[simp] theorem busEnable_d3 : (busEnable s).d3 = s.d3 := rfl
@[simp] theorem busEnable_pa : (busEnable s).pa = s.pa := rfl
@[simp] theorem busEnable_k : (busEnable s).k = s.k := rfl
@[simp] theorem busEnable_i : (busEnable s).i = s.i := rfl
@[simp] theorem busEnable_bi : (busEnable s).bi = s.bi := rfl
@[simp] theorem busEnable_ppbValid : (busEnable s).ppbValid = s.ppbValid := rfl
@[simp] theorem busEnable_ppbVal : (busEnable s).ppbVal = s.ppbVal := rfl
@[simp] theorem busEnable_tmr : (busEnable s).tmr = s.tmr := rfl
@[simp] theorem busEnable_values : (busEnable s).values = s.values := rfl
@[simp] theorem busEnable_out : (busEnable s).out = s.out := rfl
@[simp] theorem busEnable_par : (busEnable s).par = s.par := rfl
@[simp] theorem busEnable_env : (busEnable s).env = s.env.busEnable := rfl
@[simp] theorem busEnable_draws : (busEnable s).draws = s.draws := rfl
@[simp] theorem busEnable_trace : (busEnable s).trace = s.trace ++ [.busEnable] := rfl
@[simp] theorem busEnable_host : (busEnable s).host = s.host := rfl

/-! ## busDisable -/

@[simp] theorem busDisable_mode : (busDisable s).mode = s.mode := rfl
@[simp] theorem busDisable_resp : (busDisable s).resp = s.resp := rfl
@[simp] theorem busDisable_busEn : (busDisable s).busEn = false := rfl
@[simp] theorem busDisable_rst : (busDisable s).rst = s.rst := rfl
@[simp] theorem busDisable_busy : (busDisable s).busy = s.busy := rfl
@[simp] theorem busDisable_status : (busDisable s).status = s.status := rfl
@[simp] theorem busDisable_result : (busDisable s).result = s.result := rfl
@[simp] theorem busDisable_op : (busDisable s).op = s.op := rfl
@[simp] theorem busDisable_addr : (busDisable s).addr = s.addr := rfl
@[simp] theorem busDisable_count : (busDisable s).count = s.count := rfl
@[simp] theorem busDisable_d0 : (busDisable s).d0 = s.d0 := rfl
@[simp] theorem busDisable_d1 : (busDisable s).d1 = s.d1 := rfl
@[simp] theorem busDisable_d2 : (busDisable s).d2 = s.d2 := rfl
@[simp] theorem busDisable_d3 : (busDisable s).d3 = s.d3 := rfl
@[simp] theorem busDisable_pa : (busDisable s).pa = s.pa := rfl
@[simp] theorem busDisable_k : (busDisable s).k = s.k := rfl
@[simp] theorem busDisable_i : (busDisable s).i = s.i := rfl
@[simp] theorem busDisable_bi : (busDisable s).bi = s.bi := rfl
@[simp] theorem busDisable_ppbValid : (busDisable s).ppbValid = s.ppbValid := rfl
@[simp] theorem busDisable_ppbVal : (busDisable s).ppbVal = s.ppbVal := rfl
@[simp] theorem busDisable_tmr : (busDisable s).tmr = s.tmr := rfl
@[simp] theorem busDisable_values : (busDisable s).values = s.values := rfl
@[simp] theorem busDisable_out : (busDisable s).out = s.out := rfl
@[simp] theorem busDisable_par : (busDisable s).par = s.par := rfl
@[simp] theorem busDisable_env : (busDisable s).env = s.env.busDisable := rfl
@[simp] theorem busDisable_draws : (busDisable s).draws = s.draws := rfl
@[simp] theorem busDisable_trace : (busDisable s).trace = s.trace ++ [.busDisable] := rfl
@[simp] theorem busDisable_host : (busDisable s).host = s.host := rfl

/-! ## resetLine -/

@[simp] theorem resetLine_mode (l : Bool) : (resetLine l s).mode = s.mode := rfl
@[simp] theorem resetLine_resp (l : Bool) : (resetLine l s).resp = s.resp := rfl
@[simp] theorem resetLine_busEn (l : Bool) : (resetLine l s).busEn = s.busEn := rfl
@[simp] theorem resetLine_rst (l : Bool) : (resetLine l s).rst = l := rfl
@[simp] theorem resetLine_busy (l : Bool) : (resetLine l s).busy = s.busy := rfl
@[simp] theorem resetLine_status (l : Bool) : (resetLine l s).status = s.status := rfl
@[simp] theorem resetLine_result (l : Bool) : (resetLine l s).result = s.result := rfl
@[simp] theorem resetLine_op (l : Bool) : (resetLine l s).op = s.op := rfl
@[simp] theorem resetLine_addr (l : Bool) : (resetLine l s).addr = s.addr := rfl
@[simp] theorem resetLine_count (l : Bool) : (resetLine l s).count = s.count := rfl
@[simp] theorem resetLine_d0 (l : Bool) : (resetLine l s).d0 = s.d0 := rfl
@[simp] theorem resetLine_d1 (l : Bool) : (resetLine l s).d1 = s.d1 := rfl
@[simp] theorem resetLine_d2 (l : Bool) : (resetLine l s).d2 = s.d2 := rfl
@[simp] theorem resetLine_d3 (l : Bool) : (resetLine l s).d3 = s.d3 := rfl
@[simp] theorem resetLine_pa (l : Bool) : (resetLine l s).pa = s.pa := rfl
@[simp] theorem resetLine_k (l : Bool) : (resetLine l s).k = s.k := rfl
@[simp] theorem resetLine_i (l : Bool) : (resetLine l s).i = s.i := rfl
@[simp] theorem resetLine_bi (l : Bool) : (resetLine l s).bi = s.bi := rfl
@[simp] theorem resetLine_ppbValid (l : Bool) : (resetLine l s).ppbValid = s.ppbValid := rfl
@[simp] theorem resetLine_ppbVal (l : Bool) : (resetLine l s).ppbVal = s.ppbVal := rfl
@[simp] theorem resetLine_tmr (l : Bool) : (resetLine l s).tmr = s.tmr := rfl
@[simp] theorem resetLine_values (l : Bool) : (resetLine l s).values = s.values := rfl
@[simp] theorem resetLine_out (l : Bool) : (resetLine l s).out = s.out := rfl
@[simp] theorem resetLine_par (l : Bool) : (resetLine l s).par = s.par := rfl
@[simp] theorem resetLine_env (l : Bool) : (resetLine l s).env = s.env.resetLine l := rfl
@[simp] theorem resetLine_draws (l : Bool) : (resetLine l s).draws = s.draws := rfl
@[simp] theorem resetLine_trace (l : Bool) : (resetLine l s).trace = s.trace ++ [.reset l] := rfl
@[simp] theorem resetLine_host (l : Bool) : (resetLine l s).host = s.host := rfl

/-! ## sendByte -/

@[simp] theorem sendByte_mode (b : Byte) : (sendByte b s).mode = s.mode := rfl
@[simp] theorem sendByte_resp (b : Byte) : (sendByte b s).resp = s.resp.set s.bi (s.env.exchange s.par (Config.freeRx s.draws) b).1 := rfl
@[simp] theorem sendByte_busEn (b : Byte) : (sendByte b s).busEn = s.busEn := rfl
@[simp] theorem sendByte_rst (b : Byte) : (sendByte b s).rst = s.rst := rfl
@[simp] theorem sendByte_busy (b : Byte) : (sendByte b s).busy = s.busy := rfl
@[simp] theorem sendByte_status (b : Byte) : (sendByte b s).status = s.status := rfl
@[simp] theorem sendByte_result (b : Byte) : (sendByte b s).result = s.result := rfl
@[simp] theorem sendByte_op (b : Byte) : (sendByte b s).op = s.op := rfl
@[simp] theorem sendByte_addr (b : Byte) : (sendByte b s).addr = s.addr := rfl
@[simp] theorem sendByte_count (b : Byte) : (sendByte b s).count = s.count := rfl
@[simp] theorem sendByte_d0 (b : Byte) : (sendByte b s).d0 = s.d0 := rfl
@[simp] theorem sendByte_d1 (b : Byte) : (sendByte b s).d1 = s.d1 := rfl
@[simp] theorem sendByte_d2 (b : Byte) : (sendByte b s).d2 = s.d2 := rfl
@[simp] theorem sendByte_d3 (b : Byte) : (sendByte b s).d3 = s.d3 := rfl
@[simp] theorem sendByte_pa (b : Byte) : (sendByte b s).pa = s.pa := rfl
@[simp] theorem sendByte_k (b : Byte) : (sendByte b s).k = s.k := rfl
@[simp] theorem sendByte_i (b : Byte) : (sendByte b s).i = s.i := rfl
@[simp] theorem sendByte_bi (b : Byte) : (sendByte b s).bi = s.bi + 1 := rfl
@[simp] theorem sendByte_ppbValid (b : Byte) : (sendByte b s).ppbValid = s.ppbValid := rfl
@[simp] theorem sendByte_ppbVal (b : Byte) : (sendByte b s).ppbVal = s.ppbVal := rfl
@[simp] theorem sendByte_tmr (b : Byte) : (sendByte b s).tmr = s.tmr := rfl
@[simp] theorem sendByte_values (b : Byte) : (sendByte b s).values = s.values := rfl
@[simp] theorem sendByte_out (b : Byte) : (sendByte b s).out = s.out := rfl
@[simp] theorem sendByte_par (b : Byte) : (sendByte b s).par = s.par := rfl
@[simp] theorem sendByte_env (b : Byte) : (sendByte b s).env = (s.env.exchange s.par (Config.freeRx s.draws) b).2 := rfl
@[simp] theorem sendByte_draws (b : Byte) : (sendByte b s).draws = s.draws + 1 := rfl
@[simp] theorem sendByte_trace (b : Byte) : (sendByte b s).trace = s.trace ++ [.xb b (s.env.exchange s.par (Config.freeRx s.draws) b).1] := rfl
@[simp] theorem sendByte_host (b : Byte) : (sendByte b s).host = s.host := rfl

/-! ## waitFor -/

@[simp] theorem waitFor_mode (w : WaitKind) : (waitFor w s).mode = s.mode := rfl
@[simp] theorem waitFor_resp (w : WaitKind) : (waitFor w s).resp = s.resp := rfl
@[simp] theorem waitFor_busEn (w : WaitKind) : (waitFor w s).busEn = s.busEn := rfl
@[simp] theorem waitFor_rst (w : WaitKind) : (waitFor w s).rst = s.rst := rfl
@[simp] theorem waitFor_busy (w : WaitKind) : (waitFor w s).busy = s.busy := rfl
@[simp] theorem waitFor_status (w : WaitKind) : (waitFor w s).status = s.status := rfl
@[simp] theorem waitFor_result (w : WaitKind) : (waitFor w s).result = s.result := rfl
@[simp] theorem waitFor_op (w : WaitKind) : (waitFor w s).op = s.op := rfl
@[simp] theorem waitFor_addr (w : WaitKind) : (waitFor w s).addr = s.addr := rfl
@[simp] theorem waitFor_count (w : WaitKind) : (waitFor w s).count = s.count := rfl
@[simp] theorem waitFor_d0 (w : WaitKind) : (waitFor w s).d0 = s.d0 := rfl
@[simp] theorem waitFor_d1 (w : WaitKind) : (waitFor w s).d1 = s.d1 := rfl
@[simp] theorem waitFor_d2 (w : WaitKind) : (waitFor w s).d2 = s.d2 := rfl
@[simp] theorem waitFor_d3 (w : WaitKind) : (waitFor w s).d3 = s.d3 := rfl
@[simp] theorem waitFor_pa (w : WaitKind) : (waitFor w s).pa = s.pa := rfl
@[simp] theorem waitFor_k (w : WaitKind) : (waitFor w s).k = s.k := rfl
@[simp] theorem waitFor_i (w : WaitKind) : (waitFor w s).i = s.i := rfl
@[simp] theorem waitFor_bi (w : WaitKind) : (waitFor w s).bi = s.bi := rfl
@[simp] theorem waitFor_ppbValid (w : WaitKind) : (waitFor w s).ppbValid = s.ppbValid := rfl
@[simp] theorem waitFor_ppbVal (w : WaitKind) : (waitFor w s).ppbVal = s.ppbVal := rfl
@[simp] theorem waitFor_tmr (w : WaitKind) : (waitFor w s).tmr = 0 := rfl
@[simp] theorem waitFor_values (w : WaitKind) : (waitFor w s).values = s.values := rfl
@[simp] theorem waitFor_out (w : WaitKind) : (waitFor w s).out = s.out := rfl
@[simp] theorem waitFor_par (w : WaitKind) : (waitFor w s).par = s.par := rfl
@[simp] theorem waitFor_env (w : WaitKind) : (waitFor w s).env = s.env.wait s.par w := rfl
@[simp] theorem waitFor_draws (w : WaitKind) : (waitFor w s).draws = s.draws := rfl
@[simp] theorem waitFor_trace (w : WaitKind) : (waitFor w s).trace = s.trace ++ [.wait w] := rfl
@[simp] theorem waitFor_host (w : WaitKind) : (waitFor w s).host = s.host := rfl

/-! ## complete -/

@[simp] theorem complete_mode (st : Status) (r : Word) : (complete st r s).mode = s.mode := rfl
@[simp] theorem complete_resp (st : Status) (r : Word) : (complete st r s).resp = s.resp := rfl
@[simp] theorem complete_busEn (st : Status) (r : Word) : (complete st r s).busEn = s.busEn := rfl
@[simp] theorem complete_rst (st : Status) (r : Word) : (complete st r s).rst = s.rst := rfl
@[simp] theorem complete_busy (st : Status) (r : Word) : (complete st r s).busy = false := rfl
@[simp] theorem complete_status (st : Status) (r : Word) : (complete st r s).status = st := rfl
@[simp] theorem complete_result (st : Status) (r : Word) : (complete st r s).result = r := rfl
@[simp] theorem complete_op (st : Status) (r : Word) : (complete st r s).op = s.op := rfl
@[simp] theorem complete_addr (st : Status) (r : Word) : (complete st r s).addr = s.addr := rfl
@[simp] theorem complete_count (st : Status) (r : Word) : (complete st r s).count = s.count := rfl
@[simp] theorem complete_d0 (st : Status) (r : Word) : (complete st r s).d0 = s.d0 := rfl
@[simp] theorem complete_d1 (st : Status) (r : Word) : (complete st r s).d1 = s.d1 := rfl
@[simp] theorem complete_d2 (st : Status) (r : Word) : (complete st r s).d2 = s.d2 := rfl
@[simp] theorem complete_d3 (st : Status) (r : Word) : (complete st r s).d3 = s.d3 := rfl
@[simp] theorem complete_pa (st : Status) (r : Word) : (complete st r s).pa = s.pa := rfl
@[simp] theorem complete_k (st : Status) (r : Word) : (complete st r s).k = s.k := rfl
@[simp] theorem complete_i (st : Status) (r : Word) : (complete st r s).i = s.i := rfl
@[simp] theorem complete_bi (st : Status) (r : Word) : (complete st r s).bi = s.bi := rfl
@[simp] theorem complete_ppbValid (st : Status) (r : Word) : (complete st r s).ppbValid = s.ppbValid := rfl
@[simp] theorem complete_ppbVal (st : Status) (r : Word) : (complete st r s).ppbVal = s.ppbVal := rfl
@[simp] theorem complete_tmr (st : Status) (r : Word) : (complete st r s).tmr = s.tmr := rfl
@[simp] theorem complete_values (st : Status) (r : Word) : (complete st r s).values = s.values := rfl
@[simp] theorem complete_out (st : Status) (r : Word) : (complete st r s).out = s.out := rfl
@[simp] theorem complete_par (st : Status) (r : Word) : (complete st r s).par = s.par := rfl
@[simp] theorem complete_env (st : Status) (r : Word) : (complete st r s).env = s.env := rfl
@[simp] theorem complete_draws (st : Status) (r : Word) : (complete st r s).draws = s.draws := rfl
@[simp] theorem complete_trace (st : Status) (r : Word) : (complete st r s).trace = s.trace := rfl
@[simp] theorem complete_host (st : Status) (r : Word) : (complete st r s).host = s.host := rfl

/-! ## stage -/

@[simp] theorem stage_mode (o v : Half) : (stage o v s).mode = s.mode := rfl
@[simp] theorem stage_resp (o v : Half) : (stage o v s).resp = s.resp := rfl
@[simp] theorem stage_busEn (o v : Half) : (stage o v s).busEn = s.busEn := rfl
@[simp] theorem stage_rst (o v : Half) : (stage o v s).rst = s.rst := rfl
@[simp] theorem stage_busy (o v : Half) : (stage o v s).busy = s.busy := rfl
@[simp] theorem stage_status (o v : Half) : (stage o v s).status = s.status := rfl
@[simp] theorem stage_result (o v : Half) : (stage o v s).result = s.result := rfl
@[simp] theorem stage_op (o v : Half) : (stage o v s).op = s.op := rfl
@[simp] theorem stage_addr (o v : Half) : (stage o v s).addr = s.addr := rfl
@[simp] theorem stage_count (o v : Half) : (stage o v s).count = s.count := rfl
@[simp] theorem stage_d0 (o v : Half) : (stage o v s).d0 = s.d0 := rfl
@[simp] theorem stage_d1 (o v : Half) : (stage o v s).d1 = s.d1 := rfl
@[simp] theorem stage_d2 (o v : Half) : (stage o v s).d2 = s.d2 := rfl
@[simp] theorem stage_d3 (o v : Half) : (stage o v s).d3 = s.d3 := rfl
@[simp] theorem stage_pa (o v : Half) : (stage o v s).pa = s.pa := rfl
@[simp] theorem stage_k (o v : Half) : (stage o v s).k = s.k := rfl
@[simp] theorem stage_i (o v : Half) : (stage o v s).i = s.i := rfl
@[simp] theorem stage_bi (o v : Half) : (stage o v s).bi = s.bi := rfl
@[simp] theorem stage_ppbValid (o v : Half) : (stage o v s).ppbValid = s.ppbValid.setIfInBounds o.toNat true := rfl
@[simp] theorem stage_ppbVal (o v : Half) : (stage o v s).ppbVal = s.ppbVal.setIfInBounds o.toNat v := rfl
@[simp] theorem stage_tmr (o v : Half) : (stage o v s).tmr = s.tmr := rfl
@[simp] theorem stage_values (o v : Half) : (stage o v s).values = s.values := rfl
@[simp] theorem stage_out (o v : Half) : (stage o v s).out = s.out := rfl
@[simp] theorem stage_par (o v : Half) : (stage o v s).par = s.par := rfl
@[simp] theorem stage_env (o v : Half) : (stage o v s).env = s.env := rfl
@[simp] theorem stage_draws (o v : Half) : (stage o v s).draws = s.draws := rfl
@[simp] theorem stage_trace (o v : Half) : (stage o v s).trace = s.trace := rfl
@[simp] theorem stage_host (o v : Half) : (stage o v s).host = s.host := rfl

/-! ## clearPpb -/

@[simp] theorem clearPpb_mode : (clearPpb s).mode = s.mode := rfl
@[simp] theorem clearPpb_resp : (clearPpb s).resp = s.resp := rfl
@[simp] theorem clearPpb_busEn : (clearPpb s).busEn = s.busEn := rfl
@[simp] theorem clearPpb_rst : (clearPpb s).rst = s.rst := rfl
@[simp] theorem clearPpb_busy : (clearPpb s).busy = s.busy := rfl
@[simp] theorem clearPpb_status : (clearPpb s).status = s.status := rfl
@[simp] theorem clearPpb_result : (clearPpb s).result = s.result := rfl
@[simp] theorem clearPpb_op : (clearPpb s).op = s.op := rfl
@[simp] theorem clearPpb_addr : (clearPpb s).addr = s.addr := rfl
@[simp] theorem clearPpb_count : (clearPpb s).count = s.count := rfl
@[simp] theorem clearPpb_d0 : (clearPpb s).d0 = s.d0 := rfl
@[simp] theorem clearPpb_d1 : (clearPpb s).d1 = s.d1 := rfl
@[simp] theorem clearPpb_d2 : (clearPpb s).d2 = s.d2 := rfl
@[simp] theorem clearPpb_d3 : (clearPpb s).d3 = s.d3 := rfl
@[simp] theorem clearPpb_pa : (clearPpb s).pa = s.pa := rfl
@[simp] theorem clearPpb_k : (clearPpb s).k = s.k := rfl
@[simp] theorem clearPpb_i : (clearPpb s).i = s.i := rfl
@[simp] theorem clearPpb_bi : (clearPpb s).bi = s.bi := rfl
@[simp] theorem clearPpb_ppbValid : (clearPpb s).ppbValid = Vector.replicate 16 false := rfl
@[simp] theorem clearPpb_ppbVal : (clearPpb s).ppbVal = s.ppbVal := rfl
@[simp] theorem clearPpb_tmr : (clearPpb s).tmr = s.tmr := rfl
@[simp] theorem clearPpb_values : (clearPpb s).values = s.values := rfl
@[simp] theorem clearPpb_out : (clearPpb s).out = s.out := rfl
@[simp] theorem clearPpb_par : (clearPpb s).par = s.par := rfl
@[simp] theorem clearPpb_env : (clearPpb s).env = s.env := rfl
@[simp] theorem clearPpb_draws : (clearPpb s).draws = s.draws := rfl
@[simp] theorem clearPpb_trace : (clearPpb s).trace = s.trace := rfl
@[simp] theorem clearPpb_host : (clearPpb s).host = s.host := rfl

/-! ## leaveProgramming -/

@[simp] theorem leaveProgramming_mode : (leaveProgramming s).mode = .idle := rfl
@[simp] theorem leaveProgramming_resp : (leaveProgramming s).resp = s.resp := rfl
@[simp] theorem leaveProgramming_busEn : (leaveProgramming s).busEn = false := rfl
@[simp] theorem leaveProgramming_rst : (leaveProgramming s).rst = true := rfl
@[simp] theorem leaveProgramming_busy : (leaveProgramming s).busy = s.busy := rfl
@[simp] theorem leaveProgramming_status : (leaveProgramming s).status = s.status := rfl
@[simp] theorem leaveProgramming_result : (leaveProgramming s).result = s.result := rfl
@[simp] theorem leaveProgramming_op : (leaveProgramming s).op = s.op := rfl
@[simp] theorem leaveProgramming_addr : (leaveProgramming s).addr = s.addr := rfl
@[simp] theorem leaveProgramming_count : (leaveProgramming s).count = s.count := rfl
@[simp] theorem leaveProgramming_d0 : (leaveProgramming s).d0 = s.d0 := rfl
@[simp] theorem leaveProgramming_d1 : (leaveProgramming s).d1 = s.d1 := rfl
@[simp] theorem leaveProgramming_d2 : (leaveProgramming s).d2 = s.d2 := rfl
@[simp] theorem leaveProgramming_d3 : (leaveProgramming s).d3 = s.d3 := rfl
@[simp] theorem leaveProgramming_pa : (leaveProgramming s).pa = s.pa := rfl
@[simp] theorem leaveProgramming_k : (leaveProgramming s).k = s.k := rfl
@[simp] theorem leaveProgramming_i : (leaveProgramming s).i = s.i := rfl
@[simp] theorem leaveProgramming_bi : (leaveProgramming s).bi = s.bi := rfl
@[simp] theorem leaveProgramming_ppbValid : (leaveProgramming s).ppbValid = s.ppbValid := rfl
@[simp] theorem leaveProgramming_ppbVal : (leaveProgramming s).ppbVal = s.ppbVal := rfl
@[simp] theorem leaveProgramming_tmr : (leaveProgramming s).tmr = s.tmr := rfl
@[simp] theorem leaveProgramming_values : (leaveProgramming s).values = s.values := rfl
@[simp] theorem leaveProgramming_out : (leaveProgramming s).out = s.out := rfl
@[simp] theorem leaveProgramming_par : (leaveProgramming s).par = s.par := rfl
@[simp] theorem leaveProgramming_env : (leaveProgramming s).env = (s.env.resetLine true).busDisable := rfl
@[simp] theorem leaveProgramming_draws : (leaveProgramming s).draws = s.draws := rfl
@[simp] theorem leaveProgramming_trace : (leaveProgramming s).trace = (s.trace ++ [.reset true]) ++ [.busDisable] := rfl
@[simp] theorem leaveProgramming_host : (leaveProgramming s).host = s.host := rfl

end Sys2Proof.Machine
end

