-- ==== Sys2Proof/Laws/Codec.lean ====
section
/-! SUPPORT. What a frame does, said once: every later proof about an operation cites `frame_eq` and unfolds no byte exchange. -/

namespace Sys2Proof.Machine

@[simp] theorem Resp.set_zero (r : Resp) (b : Byte) : r.set 0 b = { r with b0 := b } := rfl
@[simp] theorem Resp.set_one (r : Resp) (b : Byte) : r.set 1 b = { r with b1 := b } := rfl
@[simp] theorem Resp.set_two (r : Resp) (b : Byte) : r.set 2 b = { r with b2 := b } := rfl
@[simp] theorem Resp.set_three (r : Resp) (b : Byte) : r.set 3 b = { r with b3 := b } := rfl

/-- The whole effect of a frame (40_codec.md R140): RESP and `bi`, four events, the environment's answer; nothing else. -/
theorem frame_eq (b0 b1 b2 b3 : Byte) (s : State) :
    frame b0 b1 b2 b3 s =
      { s with resp := s.responseTo b0 b1 b2 b3, bi := 0, env := s.envAfter b0 b1 b2 b3, draws := s.draws + 4,
               trace := s.trace ++ frameEvents b0 b1 b2 b3 (s.responseTo b0 b1 b2 b3) } := by
  simp only [frame, sendByte, State.responseTo, State.envAfter, Env.exchangeFrame, frameEvents,
    List.append_assoc, List.cons_append, List.nil_append]
  rfl

theorem waitFor_eq (k : WaitKind) (s : State) :
    waitFor k s = { s with tmr := 0, env := s.env.wait s.par k, trace := s.trace ++ [.wait k] } := rfl

/-! ## The fields after a frame -/

section
variable (b0 b1 b2 b3 : Byte) (s : State)

@[simp] theorem frame_mode : (frame b0 b1 b2 b3 s).mode = s.mode := rfl
@[simp] theorem frame_resp : (frame b0 b1 b2 b3 s).resp = s.responseTo b0 b1 b2 b3 := by rw [frame_eq]
@[simp] theorem frame_busEn : (frame b0 b1 b2 b3 s).busEn = s.busEn := rfl
@[simp] theorem frame_rst : (frame b0 b1 b2 b3 s).rst = s.rst := rfl
@[simp] theorem frame_busy : (frame b0 b1 b2 b3 s).busy = s.busy := rfl
@[simp] theorem frame_status : (frame b0 b1 b2 b3 s).status = s.status := rfl
@[simp] theorem frame_result : (frame b0 b1 b2 b3 s).result = s.result := rfl
@[simp] theorem frame_op : (frame b0 b1 b2 b3 s).op = s.op := rfl
@[simp] theorem frame_addr : (frame b0 b1 b2 b3 s).addr = s.addr := rfl
@[simp] theorem frame_count : (frame b0 b1 b2 b3 s).count = s.count := rfl
@[simp] theorem frame_d0 : (frame b0 b1 b2 b3 s).d0 = s.d0 := rfl
@[simp] theorem frame_d1 : (frame b0 b1 b2 b3 s).d1 = s.d1 := rfl
@[simp] theorem frame_d2 : (frame b0 b1 b2 b3 s).d2 = s.d2 := rfl
@[simp] theorem frame_d3 : (frame b0 b1 b2 b3 s).d3 = s.d3 := rfl
@[simp] theorem frame_pa : (frame b0 b1 b2 b3 s).pa = s.pa := rfl
@[simp] theorem frame_k : (frame b0 b1 b2 b3 s).k = s.k := rfl
@[simp] theorem frame_i : (frame b0 b1 b2 b3 s).i = s.i := rfl
@[simp] theorem frame_bi : (frame b0 b1 b2 b3 s).bi = 0 := by rw [frame_eq]
@[simp] theorem frame_ppbValid : (frame b0 b1 b2 b3 s).ppbValid = s.ppbValid := rfl
@[simp] theorem frame_ppbVal : (frame b0 b1 b2 b3 s).ppbVal = s.ppbVal := rfl
@[simp] theorem frame_tmr : (frame b0 b1 b2 b3 s).tmr = s.tmr := rfl
@[simp] theorem frame_values : (frame b0 b1 b2 b3 s).values = s.values := rfl
@[simp] theorem frame_out : (frame b0 b1 b2 b3 s).out = s.out := rfl
@[simp] theorem frame_par : (frame b0 b1 b2 b3 s).par = s.par := rfl
@[simp] theorem frame_env : (frame b0 b1 b2 b3 s).env = s.envAfter b0 b1 b2 b3 := by rw [frame_eq]
@[simp] theorem frame_draws : (frame b0 b1 b2 b3 s).draws = s.draws + 4 := by rw [frame_eq]
@[simp] theorem frame_trace : (frame b0 b1 b2 b3 s).trace = s.trace ++ frameEvents b0 b1 b2 b3 (s.responseTo b0 b1 b2 b3) := by rw [frame_eq]
@[simp] theorem frame_host : (frame b0 b1 b2 b3 s).host = s.host := rfl

end

end Sys2Proof.Machine
end

