-- ==== Sys2Proof/Laws/Bus.lean ====
section
/-! SUPPORT. The bus side of the state, and the commands an operation gives it. A host operation is, on the bus side, the play of a
list of commands; `Bus.play` says once what such a list does, and every operation has one lemma naming its list. -/

namespace Sys2Proof.Machine

/-- The part of the state that frames, waits and levels act on. -/
structure Bus where
  resp : Resp
  bi : BitVec 2
  busEn : Bool
  rst : Bool
  tmr : Nat
  env : Env
  draws : Nat
  trace : List Event

/-- The bus side of a state. -/
def State.bus (s : State) : Bus :=
  { resp := s.resp, bi := s.bi, busEn := s.busEn, rst := s.rst, tmr := s.tmr, env := s.env, draws := s.draws,
    trace := s.trace }

namespace Bus

def frame (p : Params) (b0 b1 b2 b3 : Byte) (b : Bus) : Bus :=
  let x := b.env.exchangeFrame p b.draws b0 b1 b2 b3
  { b with resp := x.1, bi := 0, env := x.2, draws := b.draws + 4, trace := b.trace ++ frameEvents b0 b1 b2 b3 x.1 }

/-- One command. -/
def act (p : Params) (b : Bus) : Cmd → Bus
  | .frame b0 b1 b2 b3 => b.frame p b0 b1 b2 b3
  | .wait k => { b with tmr := 0, env := b.env.wait p k, trace := b.trace ++ [.wait k] }
  | .enable => { b with busEn := true, env := b.env.busEnable, trace := b.trace ++ [.busEnable] }
  | .disable => { b with busEn := false, env := b.env.busDisable, trace := b.trace ++ [.busDisable] }
  | .line l => { b with rst := l, env := b.env.resetLine l, trace := b.trace ++ [.reset l] }

/-- A list of commands in order. -/
def play (p : Params) (cs : List Cmd) (b : Bus) : Bus := cs.foldl (act p) b

@[simp] theorem play_nil (p : Params) (b : Bus) : b.play p [] = b := rfl

@[simp] theorem play_cons (p : Params) (c : Cmd) (cs : List Cmd) (b : Bus) :
    b.play p (c :: cs) = (b.act p c).play p cs := rfl

theorem play_append (p : Params) (cs ds : List Cmd) (b : Bus) :
    b.play p (cs ++ ds) = (b.play p cs).play p ds := by simp [play]

end Bus

/-! ## The primitives on the bus side -/

section
variable (s : State)

@[simp] theorem bus_frame (b0 b1 b2 b3 : Byte) :
    (frame b0 b1 b2 b3 s).bus = s.bus.act s.par (.frame b0 b1 b2 b3) := by
  rw [frame_eq]; rfl

@[simp] theorem bus_waitFor (k : WaitKind) : (waitFor k s).bus = s.bus.act s.par (.wait k) := rfl
@[simp] theorem bus_busEnable : (busEnable s).bus = s.bus.act s.par .enable := rfl
@[simp] theorem bus_busDisable : (busDisable s).bus = s.bus.act s.par .disable := rfl
@[simp] theorem bus_resetLine (l : Bool) : (resetLine l s).bus = s.bus.act s.par (.line l) := rfl
@[simp] theorem bus_complete (st : Status) (r : Word) : (complete st r s).bus = s.bus := rfl
@[simp] theorem bus_stage (o v : Half) : (stage o v s).bus = s.bus := rfl
@[simp] theorem bus_clearPpb : (clearPpb s).bus = s.bus := rfl

end

/-! ## What a list of commands does -/

/-- The events of one command, with the answers erased. -/
theorem act_trace (p : Params) (c : Cmd) (b : Bus) :
    ∃ es, (b.act p c).trace = b.trace ++ es ∧ es.map Event.command = c.commands := by
  cases c <;> exact ⟨_, rfl, rfl⟩

/-- The events of a play, with the answers erased, are the commands' (00_scope.md R12). -/
theorem play_trace (p : Params) (cs : List Cmd) (b : Bus) :
    ∃ es, (b.play p cs).trace = b.trace ++ es ∧ es.map Event.command = cs.flatMap Cmd.commands := by
  induction cs generalizing b with
  | nil => exact ⟨[], by simp⟩
  | cons c cs ih =>
    obtain ⟨es, h, hc⟩ := ih (b.act p c)
    obtain ⟨ds, g, gc⟩ := act_trace p c b
    exact ⟨ds ++ es, by rw [Bus.play_cons, h, g, List.append_assoc], by simp [hc, gc]⟩

/-- The responses to the frames of a play, in order. -/
def Bus.responses (p : Params) : List Cmd → Bus → List Resp
  | [], _ => []
  | .frame b0 b1 b2 b3 :: cs, b =>
    (b.env.exchangeFrame p b.draws b0 b1 b2 b3).1 :: Bus.responses p cs (b.act p (.frame b0 b1 b2 b3))
  | .wait k :: cs, b => Bus.responses p cs (b.act p (.wait k))
  | .enable :: cs, b => Bus.responses p cs (b.act p .enable)
  | .disable :: cs, b => Bus.responses p cs (b.act p .disable)
  | .line l :: cs, b => Bus.responses p cs (b.act p (.line l))

/-- The events of a play are those of its commands with its responses. -/
theorem play_events (p : Params) (cs : List Cmd) (b : Bus) :
    (b.play p cs).trace = b.trace ++ eventsOf cs (b.responses p cs) := by
  induction cs generalizing b with
  | nil => simp [eventsOf]
  | cons c cs ih =>
    rw [Bus.play_cons, ih]
    cases c <;> simp [Bus.responses, eventsOf, Bus.act, Bus.frame]

theorem responses_append (p : Params) (cs ds : List Cmd) (b : Bus) :
    b.responses p (cs ++ ds) = b.responses p cs ++ (b.play p cs).responses p ds := by
  induction cs generalizing b with
  | nil => simp [Bus.responses]
  | cons c cs ih => cases c <;> simp [Bus.responses, ih]

theorem responses_length (p : Params) (cs : List Cmd) (b : Bus) : (b.responses p cs).length = frameCount cs := by
  induction cs generalizing b with
  | nil => rfl
  | cons c cs ih => cases c <;> simp [Bus.responses, frameCount, ih]

theorem frameCount_append (cs ds : List Cmd) : frameCount (cs ++ ds) = frameCount cs + frameCount ds := by
  induction cs with
  | nil => simp [frameCount]
  | cons c cs ih => (cases c <;> simp [frameCount, ih]); omega

/-- RESP after a play holds the response to its last frame (10_state.md R22). -/
theorem play_resp (p : Params) (cs : List Cmd) (b : Bus) :
    (b.play p cs).resp = (b.responses p cs).getLast?.getD b.resp := by
  induction cs generalizing b with
  | nil => rfl
  | cons c cs ih =>
    rw [Bus.play_cons, ih]
    cases c with
    | frame b0 b1 b2 b3 =>
      simp only [Bus.responses, List.getLast?_cons]
      cases h : (Bus.responses p cs (b.act p (.frame b0 b1 b2 b3))).getLast? <;> simp [Bus.act, Bus.frame]
    | wait k => rfl
    | enable => rfl
    | disable => rfl
    | line l => rfl

/-- A play draws one byte per byte exchanged. -/
theorem play_draws (p : Params) (cs : List Cmd) (b : Bus) :
    (b.play p cs).draws = b.draws + (cs.map Cmd.draws).sum := by
  induction cs generalizing b with
  | nil => simp
  | cons c cs ih => rw [Bus.play_cons, ih]; (cases c <;> simp [Bus.act, Bus.frame, Cmd.draws]); omega

/-- Frames and waits alone leave the levels as they were. -/
theorem play_levels (p : Params) (cs : List Cmd) (b : Bus)
    (h : ∀ c ∈ cs, c ≠ .enable ∧ c ≠ .disable ∧ ∀ l, c ≠ .line l) :
    (b.play p cs).busEn = b.busEn ∧ (b.play p cs).rst = b.rst := by
  induction cs generalizing b with
  | nil => simp
  | cons c cs ih =>
    have hc := h c (by simp)
    obtain ⟨h1, h2⟩ := ih (b.act p c) fun d hd => h d (by simp [hd])
    cases c <;> simp_all [Bus.act, Bus.frame]

/-- The timer has run out after a play that started with it so. -/
theorem play_tmr (p : Params) (cs : List Cmd) (b : Bus) (h : b.tmr = 0) : (b.play p cs).tmr = 0 := by
  induction cs generalizing b with
  | nil => exact h
  | cons c cs ih => exact ih _ (by cases c <;> simp [Bus.act, Bus.frame, h])

/-! ## What an operation leaves alone -/

/-- What no body of an operation writes: the mode, the host registers and inputs, and what only the end of an operation writes. -/
structure Kept (s t : State) : Prop where
  mode : t.mode = s.mode
  busy : t.busy = s.busy
  status : t.status = s.status
  result : t.result = s.result
  op : t.op = s.op
  addr : t.addr = s.addr
  count : t.count = s.count
  d0 : t.d0 = s.d0
  d1 : t.d1 = s.d1
  d2 : t.d2 = s.d2
  d3 : t.d3 = s.d3
  values : t.values = s.values
  par : t.par = s.par
  host : t.host = s.host

theorem Kept.refl (s : State) : Kept s s := by constructor <;> rfl

theorem Kept.trans {s t u : State} (h : Kept s t) (g : Kept t u) : Kept s u where
  mode := g.mode.trans h.mode
  busy := g.busy.trans h.busy
  status := g.status.trans h.status
  result := g.result.trans h.result
  op := g.op.trans h.op
  addr := g.addr.trans h.addr
  count := g.count.trans h.count
  d0 := g.d0.trans h.d0
  d1 := g.d1.trans h.d1
  d2 := g.d2.trans h.d2
  d3 := g.d3.trans h.d3
  values := g.values.trans h.values
  par := g.par.trans h.par
  host := g.host.trans h.host

theorem kept_frame (b0 b1 b2 b3 : Byte) (s : State) : Kept s (frame b0 b1 b2 b3 s) := by constructor <;> simp
theorem kept_waitFor (k : WaitKind) (s : State) : Kept s (waitFor k s) := by constructor <;> simp
theorem kept_stage (o v : Half) (s : State) : Kept s (stage o v s) := by constructor <;> simp
theorem kept_clearPpb (s : State) : Kept s (clearPpb s) := by constructor <;> simp

/-- Writing the sequencer's own counters keeps the rest. -/
theorem kept_counters (s : State) (pa k : Half) (i : BitVec 5) (out : List Half) :
    Kept s { s with pa := pa, k := k, i := i, out := out } := by constructor <;> rfl

end Sys2Proof.Machine
end

