-- ==== Sys2Proof/Laws/Encoding.lean ====
section
/-! SUPPORT. The operand bytes: splitting and joining an address, and what a mask leaves in each byte. -/

namespace Sys2Proof

@[simp] theorem ofBytes_hi_lo (v : Half) : ofBytes (hiByte v) (loByte v) = v := by
  apply BitVec.eq_of_getLsbD_eq
  intro i hi
  simp only [ofBytes, hiByte, loByte, BitVec.getLsbD_append, BitVec.getLsbD_extractLsb']
  by_cases h : i < 8
  · simp [h]
  · have : i - 8 < 8 := by omega
    have e : 8 + (i - 8) = i := by omega
    simp [h, this, e]

@[simp] theorem hiByte_ofBytes (h l : Byte) : hiByte (ofBytes h l) = h := by
  apply BitVec.eq_of_getLsbD_eq
  intro i hi
  have e : ¬ (8 + i < 8) := by omega
  simp only [ofBytes, hiByte, BitVec.getLsbD_extractLsb', BitVec.getLsbD_append]
  simp [hi, e]

@[simp] theorem loByte_ofBytes (h l : Byte) : loByte (ofBytes h l) = l := by
  apply BitVec.eq_of_getLsbD_eq
  intro i hi
  simp only [ofBytes, loByte, BitVec.getLsbD_extractLsb', BitVec.getLsbD_append]
  simp [hi]

theorem hiByte_and (a m : Half) : hiByte (a &&& m) = hiByte a &&& hiByte m := by
  ext i hi; simp [hiByte]

theorem loByte_and (a m : Half) : loByte (a &&& m) = loByte a &&& loByte m := by
  ext i hi; simp [loByte]

theorem ofBytes_and (h l hm lm : Byte) : ofBytes h l &&& ofBytes hm lm = ofBytes (h &&& hm) (l &&& lm) := by
  conv_lhs => rw [← ofBytes_hi_lo (ofBytes h l &&& ofBytes hm lm)]
  rw [hiByte_and, loByte_and]; simp

/-- The high byte of an address masked by a mask with no high bits. -/
theorem hiByte_and_of_zero (a m : Half) (h : hiByte m = 0) : hiByte (a &&& m) = 0 := by
  rw [hiByte_and, h]; exact BitVec.and_zero

/-- An address masked by a mask with no high bits is its low byte alone. -/
theorem ofBytes_zero_lo (a m : Half) (h : hiByte m = 0) : ofBytes 0 (loByte (a &&& m)) = a &&& m := by
  conv_rhs => rw [← ofBytes_hi_lo (a &&& m), hiByte_and_of_zero a m h]

/-- A byte masked by `m` has no bit of a mask disjoint from `m`. -/
theorem and_and_eq_zero (b m n : Byte) (h : m &&& n = 0) : b &&& m &&& n = 0 := by
  rw [BitVec.and_assoc, h]; exact BitVec.and_zero

/-- A byte without the bits of `n` is its own image under the complementary mask `m`. -/
theorem and_eq_of_and_eq_zero (b m n : Byte) (h : m = ~~~n) (hb : b &&& n = 0) : b &&& m = b := by
  subst h
  ext i hi
  have := congrArg (fun x => x.getLsbD i) hb
  simp only [BitVec.getLsbD_and] at this
  have hb' := congrArg (fun x : Byte => x[i]'hi) hb
  simp only [BitVec.getElem_and] at hb'
  simp only [BitVec.getElem_and, BitVec.getElem_not]
  cases hbi : b[i] <;> cases hni : n[i] <;> simp_all

theorem setWidth_extract_two (s : BitVec 2) : (s.setWidth 8).extractLsb' 0 2 = s := by
  revert s; decide

theorem setWidth_extract_one (s : BitVec 1) : (s.setWidth 8).extractLsb' 0 1 = s := by
  revert s; decide

theorem extract_setWidth_two (b : Byte) (h : b &&& 0xFC = 0) : (b.extractLsb' 0 2).setWidth 8 = b := by
  revert b; decide

theorem extract_setWidth_one (b : Byte) (h : b &&& 0xFE = 0) : (b.extractLsb' 0 1).setWidth 8 = b := by
  revert b; decide

theorem sub_address_reserved_two (s : BitVec 2) : s.setWidth 8 &&& 0xFC#8 = 0 := by
  revert s; decide

theorem sub_address_reserved_one (s : BitVec 1) : s.setWidth 8 &&& 0xFE#8 = 0 := by
  revert s; decide

end Sys2Proof
end

