-- ==== Sys2Proof/Laws/Memory.lean ====
section
/-! SUPPORT. The laws of a target memory: read after write and after forget, and that every operation keeps the canonical form. -/

namespace Sys2Proof.Machine

@[simp] theorem Memory.read_nil (a : Nat) : Memory.read [] a = none := rfl

theorem Memory.read_cons (c : Host.Cell) (m : Memory) (a : Nat) :
    Memory.read (c :: m) a = if a = c.1 then some c.2 else m.read a := rfl

/-- Above every listed address nothing is known. -/
theorem Memory.read_eq_none_of_lt {m : Memory} {a : Nat} (h : ∀ c ∈ m, a < c.1) : m.read a = none := by
  induction m with
  | nil => rfl
  | cons c m ih =>
    rw [Memory.read_cons, if_neg (by have := h c (by simp); omega)]
    exact ih fun d hd => h d (by simp [hd])

theorem Memory.read_write (m : Memory) (a b : Nat) (v : Byte) :
    (m.write a v).read b = if b = a then some v else m.read b := by
  induction m with
  | nil => rfl
  | cons c m ih =>
    obtain ⟨x, w⟩ := c
    unfold Memory.write
    split
    · rfl
    · split
      · next h => subst h; simp only [Memory.read_cons]; split <;> rfl
      · next h1 h2 =>
        simp only [Memory.read_cons, ih]
        by_cases hb : b = x
        · have : b ≠ a := by omega
          simp [hb]; omega
        · simp [hb]

theorem Memory.mem_write {m : Memory} {a : Nat} {v : Byte} {c : Host.Cell} (h : c ∈ m.write a v) :
    c = (a, v) ∨ c ∈ m := by
  induction m with
  | nil => simpa [Memory.write] using h
  | cons d m ih =>
    unfold Memory.write at h
    split at h
    · simpa using h
    · split at h
      · rcases List.mem_cons.mp h with h | h
        · exact .inl h
        · exact .inr (by simp [h])
      · rcases List.mem_cons.mp h with h | h
        · exact .inr (by simp [h])
        · rcases ih h with h | h
          · exact .inl h
          · exact .inr (by simp [h])

theorem Memory.mem_forget {m : Memory} {a : Nat} {c : Host.Cell} (h : c ∈ m.forget a) : c ∈ m := by
  induction m with
  | nil => simp [Memory.forget] at h
  | cons d m ih =>
    unfold Memory.forget at h
    split at h
    · simp [h]
    · rcases List.mem_cons.mp h with h | h
      · simp [h]
      · simp [ih h]

theorem Memory.wf_write {m : Memory} (a : Nat) (v : Byte) (h : m.wf) : (m.write a v).wf := by
  induction m with
  | nil => simp [Memory.write, Memory.wf]
  | cons d m ih =>
    obtain ⟨hd, hm⟩ := List.pairwise_cons.mp h
    unfold Memory.write
    split
    · next hlt =>
      refine List.pairwise_cons.mpr ⟨fun c hc => ?_, h⟩
      rcases List.mem_cons.mp hc with rfl | hc
      · exact hlt
      · exact Nat.lt_trans hlt (hd c hc)
    · split
      · next heq => exact List.pairwise_cons.mpr ⟨fun c hc => by have := hd c hc; simp only at *; omega, hm⟩
      · refine List.pairwise_cons.mpr ⟨fun c hc => ?_, ih hm⟩
        rcases Memory.mem_write hc with rfl | hc
        · simp only at *; omega
        · exact hd c hc

theorem Memory.wf_forget {m : Memory} (a : Nat) (h : m.wf) : (m.forget a).wf := by
  induction m with
  | nil => simp [Memory.forget, Memory.wf]
  | cons d m ih =>
    obtain ⟨hd, hm⟩ := List.pairwise_cons.mp h
    unfold Memory.forget
    split
    · exact hm
    · exact List.pairwise_cons.mpr ⟨fun c hc => hd c (Memory.mem_forget hc), ih hm⟩

theorem Memory.read_forget {m : Memory} (h : m.wf) (a b : Nat) :
    (m.forget a).read b = if b = a then none else m.read b := by
  induction m with
  | nil => simp [Memory.forget]
  | cons d m ih =>
    obtain ⟨hd, hm⟩ := List.pairwise_cons.mp h
    unfold Memory.forget
    split
    · next heq =>
      by_cases hb : b = a
      · rw [if_pos hb]
        exact Memory.read_eq_none_of_lt fun c hc => by have := hd c hc; omega
      · rw [if_neg hb, Memory.read_cons, if_neg (by omega)]
    · next hne =>
      simp only [Memory.read_cons, ih hm]
      by_cases hb : b = d.1
      · have : b ≠ a := by omega
        simp [hb]; omega
      · simp [hb]

theorem Memory.read_put {m : Memory} (h : m.wf) (a b : Nat) (v : Option Byte) :
    (m.put a v).read b = if b = a then v else m.read b := by
  cases v with
  | none => exact Memory.read_forget h a b
  | some v => exact Memory.read_write m a b v

theorem Memory.fits_write {m : Memory} {a n : Nat} (v : Byte) (h : m.fits n) (ha : a < n) : (m.write a v).fits n :=
  ⟨Memory.wf_write a v h.1, fun c hc => by
    rcases Memory.mem_write hc with rfl | hc
    · exact ha
    · exact h.2 c hc⟩

theorem Memory.fits_forget {m : Memory} {n : Nat} (a : Nat) (h : m.fits n) : (m.forget a).fits n :=
  ⟨Memory.wf_forget a h.1, fun c hc => h.2 c (Memory.mem_forget hc)⟩

theorem Memory.fits_put {m : Memory} {a n : Nat} (v : Option Byte) (h : m.fits n) (ha : a < n) :
    (m.put a v).fits n := by
  cases v with
  | none => exact Memory.fits_forget a h
  | some v => exact Memory.fits_write v h ha

theorem Memory.fits_nil (n : Nat) : Memory.fits [] n := ⟨List.Pairwise.nil, fun _ h => by simp at h⟩

/-- In canonical form, memories that read alike are equal: equal memories are equal data. -/
theorem Memory.ext_of_wf {m n : Memory} (hm : m.wf) (hn : n.wf) (h : ∀ a, m.read a = n.read a) : m = n := by
  induction m generalizing n with
  | nil =>
    cases n with
    | nil => rfl
    | cons d n => have := h d.1; simp [Memory.read_cons] at this
  | cons c m ih =>
    obtain ⟨hc, hm⟩ := List.pairwise_cons.mp hm
    cases n with
    | nil => have := h c.1; simp [Memory.read_cons] at this
    | cons d n =>
      obtain ⟨hd, hn⟩ := List.pairwise_cons.mp hn
      have low {x : Host.Cell} {l : Memory} (hl : ∀ y ∈ l, x.1 < y.1) {a : Nat} (ha : a ≤ x.1) :
          l.read a = none := Memory.read_eq_none_of_lt fun y hy => Nat.lt_of_le_of_lt ha (hl y hy)
      have hcd : c.1 = d.1 := by
        rcases Nat.lt_trichotomy c.1 d.1 with hlt | heq | hgt
        · have := h c.1
          rw [Memory.read_cons, Memory.read_cons, if_pos rfl, if_neg (by omega), low hd (by omega)] at this
          cases this
        · exact heq
        · have := h d.1
          rw [Memory.read_cons, Memory.read_cons, if_pos rfl, if_neg (by omega), low hc (by omega)] at this
          cases this
      have hv : c.2 = d.2 := by
        have := h c.1
        rw [Memory.read_cons, Memory.read_cons, if_pos rfl, if_pos hcd] at this
        exact Option.some.inj this
      have hrest : m = n := ih hm hn fun a => by
        rcases Nat.lt_trichotomy a c.1 with hlt | heq | hgt
        · rw [low hc (by omega), low hd (by omega)]
        · rw [low hc (by omega), low hd (by omega)]
        · have := h a
          rwa [Memory.read_cons, Memory.read_cons, if_neg (by omega), if_neg (by omega)] at this
      rw [hrest, Prod.ext hcd hv]

end Sys2Proof.Machine
end

