-- ==== Sys2Proof/Laws/PageRead.lean ====
section
/-! SUPPORT. The read path: on the bus side ReadUnits plays exactly `readAllCmds`, and the read buffer holds what the responses carry. -/

namespace Sys2Proof.Machine

theorem readUnit_bus (r : Region) (a : Half) (s : State) :
    (readUnit r a s).2.bus = s.bus.play s.par (readCmds r a) := by
  cases r <;> simp [readUnit, readCmds, sendReadProgLo, sendReadProgHi, sendReadEep, wholeAddr, Region.full]

theorem readUnit_kept (r : Region) (a : Half) (s : State) : Kept s (readUnit r a s).2 := by
  cases r
  · exact (kept_frame _ _ _ _ _).trans (kept_frame _ _ _ _ _)
  · exact kept_frame _ _ _ _ _

section
variable (r : Region) (a : Half) (s : State)
@[simp] theorem readUnit_k : (readUnit r a s).2.k = s.k := by
  cases r <;> simp [readUnit, sendReadProgLo, sendReadProgHi, sendReadEep]
@[simp] theorem readUnit_out : (readUnit r a s).2.out = s.out := by
  cases r <;> simp [readUnit, sendReadProgLo, sendReadProgHi, sendReadEep]
@[simp] theorem readUnit_ppbValid : (readUnit r a s).2.ppbValid = s.ppbValid := by
  cases r <;> simp [readUnit, sendReadProgLo, sendReadProgHi, sendReadEep]
@[simp] theorem readUnit_ppbVal : (readUnit r a s).2.ppbVal = s.ppbVal := by
  cases r <;> simp [readUnit, sendReadProgLo, sendReadProgHi, sendReadEep]
@[simp] theorem readUnit_pa : (readUnit r a s).2.pa = s.pa := by
  cases r <;> simp [readUnit, sendReadProgLo, sendReadProgHi, sendReadEep]
@[simp] theorem readUnit_i : (readUnit r a s).2.i = s.i := by
  cases r <;> simp [readUnit, sendReadProgLo, sendReadProgHi, sendReadEep]
end

/-- The unit read is the one its responses carry (43_read.md R196). -/
theorem readUnit_value (r : Region) (a : Half) (s : State) (rs : List Resp) :
    unitsRead r (s.bus.responses s.par (readCmds r a) ++ rs) = (readUnit r a s).1 :: unitsRead r rs := by
  cases r
  · simp [readUnit, readCmds, Bus.responses, unitsRead, sendReadProgLo, sendReadProgHi, wholeAddr, Region.full,
      State.responseTo, State.envAfter, State.bus, Bus.act, Bus.frame]
  · simp [readUnit, readCmds, Bus.responses, unitsRead, sendReadEep, wholeAddr, Region.full, State.responseTo, State.bus]

/-! ## The loop -/

theorem kept_lowerIndex (s : State) : Kept s (lowerIndex s) := by constructor <;> rfl
theorem kept_deliver (u : Half) (s : State) : Kept s (deliver u s) := by constructor <;> rfl
theorem kept_beginReads (s : State) : Kept s (beginReads s) := by constructor <;> rfl

/-- What one pass of the loop leaves (43_read.md R197). -/
theorem readNext_spec (r : Region) (s : State) :
    (readNext r s).bus = s.bus.play s.par (readCmds r (s.addr + (s.k - 1))) ∧
      (readNext r s).k = s.k - 1 ∧ Kept s (readNext r s) ∧ (readNext r s).ppbValid = s.ppbValid ∧
      (readNext r s).ppbVal = s.ppbVal ∧ (readNext r s).pa = s.pa ∧ (readNext r s).i = s.i ∧
      ∃ u, (readNext r s).out = u :: s.out ∧
        ∀ rs, unitsRead r (s.bus.responses s.par (readCmds r (s.addr + (s.k - 1))) ++ rs) = u :: unitsRead r rs := by
  let t : State := lowerIndex s
  have ht : Kept s t := kept_lowerIndex s
  refine ⟨?_, ?_, ?_, ?_, ?_, ?_, ?_, (readUnit r (t.addr + t.k) t).1, ?_, ?_⟩
  · exact readUnit_bus r _ t
  · exact readUnit_k r _ t
  · exact (ht.trans (readUnit_kept r _ t)).trans (kept_deliver _ _)
  · exact readUnit_ppbValid r _ t
  · exact readUnit_ppbVal r _ t
  · exact readUnit_pa r _ t
  · exact readUnit_i r _ t
  · exact congrArg _ (readUnit_out r _ t)
  · exact fun rs => readUnit_value r _ t rs

/-- The loop with `n` passes to go and `k = n` reads the units `n-1`, …, 0 and puts them in front of the buffer. -/
theorem readLoop_spec (r : Region) (n : Nat) (s : State) (hk : s.k.toNat = n) :
    (readLoop r n s).bus = s.bus.play s.par (readAllCmds r s.addr n) ∧ Kept s (readLoop r n s) ∧
      (readLoop r n s).ppbValid = s.ppbValid ∧ (readLoop r n s).ppbVal = s.ppbVal ∧
      (readLoop r n s).pa = s.pa ∧ (readLoop r n s).i = s.i ∧
      (readLoop r n s).out = (unitsRead r (s.bus.responses s.par (readAllCmds r s.addr n))).reverse ++ s.out := by
  induction n generalizing s with
  | zero => exact ⟨by simp [readLoop, readAllCmds], Kept.refl s, rfl, rfl, rfl, rfl, by
      simp [readLoop, readAllCmds, Bus.responses, unitsRead]⟩
  | succ n ih =>
    obtain ⟨nb, nk, nK, nv, nl, np, ni, u, no, nu⟩ := readNext_spec r s
    have hsub : s.k - 1 = BitVec.ofNat 16 n := by
      apply BitVec.eq_of_toNat_eq
      have := s.k.isLt
      rw [BitVec.toNat_sub_of_le (by rw [BitVec.le_def]; simp; omega)]
      simp; omega
    have hn : n < 65536 := by have := s.k.isLt; omega
    obtain ⟨lb, lK, lv, ll, lp, li, lo⟩ := ih (readNext r s) (by rw [nk, hsub]; simp; omega)
    have split : readAllCmds r s.addr (n + 1) = readCmds r (s.addr + (s.k - 1)) ++ readAllCmds r s.addr n := by
      rw [readAllCmds, List.range_succ_eq_map, List.flatMap_cons, hsub]
      congr 1
      rw [readAllCmds, List.flatMap_map]
      apply List.flatMap_congr
      intro q _
      rw [show n + 1 - 1 - (q + 1) = n - 1 - q by omega]
    rw [readLoop]
    refine ⟨?_, nK.trans lK, lv.trans nv, ll.trans nl, lp.trans np, li.trans ni, ?_⟩
    · rw [lb, nb, nK.par, nK.addr, split, Bus.play_append]
    · rw [lo, no, split, responses_append, nu, nb, nK.par, nK.addr]; simp

/-- Where the loop leaves `k` and `bi` (43_read.md R197; log 10). -/
theorem readLoop_counters (r : Region) (n : Nat) (s : State) (h : s.k.toNat = n) :
    (readLoop r n s).k = 0 ∧ (readLoop r n s).bi = if n = 0 then s.bi else 0 := by
  induction n generalizing s with
  | zero => exact ⟨BitVec.eq_of_toNat_eq (by simpa [readLoop] using h), rfl⟩
  | succ n ih =>
    rw [readLoop]
    have hk : (readNext r s).k = s.k - 1 := (readNext_spec r s).2.1
    have hb : (readNext r s).bi = 0 := by
      cases r <;> simp [readNext, deliver, readUnit, sendReadProgLo, sendReadProgHi, sendReadEep]
    have : (s.k - 1).toNat = n := by rw [BitVec.toNat_sub]; simp; have := s.k.isLt; omega
    obtain ⟨a, b⟩ := ih (readNext r s) (by rw [hk, this])
    refine ⟨a, ?_⟩
    rw [b, hb]; simp

/-- A read of `n` units gives `n` units (43_read.md R197). -/
theorem unitsRead_length (p : Params) (r : Region) (a : Half) (n : Nat) (b : Bus) :
    (unitsRead r (b.responses p (readAllCmds r a n))).length = n := by
  have key (as : List Half) (b : Bus) : (unitsRead r (b.responses p (as.flatMap (readCmds r)))).length = as.length := by
    induction as generalizing b with
    | nil => rfl
    | cons x as ih =>
      rw [List.flatMap_cons, responses_append]
      cases r <;> simp [readCmds, Bus.responses, unitsRead] <;> exact ih _
  have := key ((List.range n).map fun q => a + BitVec.ofNat 16 (n - 1 - q)) b
  rwa [List.flatMap_map, List.length_map, List.length_range] at this

/-! ## What one element of a read is made of (43_read.md R196, R197) -/

theorem unitsRead_prog_get (rs : List Resp) (q : Nat) (x y : Resp) (hx : rs[2 * q]? = some x) (hy : rs[2 * q + 1]? = some y) :
    (unitsRead .prog rs)[q]? = some (ofBytes y.b3 x.b3) := by
  induction q generalizing rs with
  | zero =>
    match rs with
    | [] => simp at hx
    | [a] => simp at hy
    | a :: b :: rs => simp at hx hy; subst hx hy; simp [unitsRead]
  | succ q ih =>
    match rs with
    | [] => simp at hx
    | [a] => simp at hy
    | a :: b :: rs =>
      have := ih rs (by rw [← hx]; simp [Nat.mul_add])
        (by rw [← hy, show 2 * (q + 1) + 1 = (2 * q + 1) + 1 + 1 by omega]; simp)
      simpa [unitsRead] using this

theorem unitsRead_eep_get (rs : List Resp) (q : Nat) (x : Resp) (hx : rs[q]? = some x) :
    (unitsRead .eep rs)[q]? = some (x.b3.setWidth 16) := by
  induction rs generalizing q with
  | nil => simp at hx
  | cons a rs ih =>
    cases q with
    | zero => simp at hx; subst hx; simp [unitsRead]
    | succ q => simpa [unitsRead] using ih q (by simpa using hx)

/-- The number of frames of a read (43_read.md R198). -/
theorem frameCount_readAllCmds (r : Region) (a : Half) (n : Nat) : frameCount (readAllCmds r a n) = r.unitBytes * n := by
  have key (l : List Nat) (f : Nat → Half) :
      frameCount (l.flatMap fun q => readCmds r (f q)) = r.unitBytes * l.length := by
    induction l with
    | nil => cases r <;> rfl
    | cons x l ih =>
      rw [List.flatMap_cons, frameCount_append, ih]
      cases r <;> simp [readCmds, frameCount, Region.unitBytes] <;> omega
  rw [readAllCmds]; simpa using key (List.range n) _

/-- ReadUnits on the bus side is exactly its schedule, and the read buffer holds what the responses carry (43_read.md R197). -/
theorem readUnits_spec (r : Region) (s : State) :
    (readUnits r s).bus = s.bus.play s.par (readAllCmds r s.addr s.count.toNat) ∧ Kept s (readUnits r s) ∧
      (readUnits r s).ppbValid = s.ppbValid ∧ (readUnits r s).ppbVal = s.ppbVal ∧
      (readUnits r s).pa = s.pa ∧ (readUnits r s).i = s.i ∧
      (readUnits r s).out =
        (unitsRead r (s.bus.responses s.par (readAllCmds r s.addr s.count.toNat))).reverse := by
  obtain ⟨h1, h2, h3, h4, h5, h6, h7⟩ := readLoop_spec r s.count.toNat (beginReads s) rfl
  exact ⟨h1, (kept_beginReads s).trans h2, h3, h4, h5, h6, h7.trans (List.append_nil _)⟩

end Sys2Proof.Machine
end

