-- ==== Sys2Proof/Laws/PageWrite.lean ====
section
/-! SUPPORT. The write path: on the bus side WritePages plays exactly `writeCmds`; it keeps every register but its own. -/

namespace Sys2Proof.Machine

/-! ## LoadUnit and Commit -/

theorem loadUnit_bus (r : Region) (a v : Half) (s : State) :
    (loadUnit r a v s).bus = s.bus.play s.par (loadCmds r a v) := by
  cases r with
  | prog => simp [loadUnit, loadCmds, sendLoadProgHi, sendLoadProgLo, offsetOf, Region.offs]
  | eep => simp [loadUnit, loadCmds, sendLoadEep, offsetOf, Region.offs]

theorem loadUnit_kept (r : Region) (a v : Half) (s : State) : Kept s (loadUnit r a v s) := by
  cases r
  · exact ((kept_frame _ _ _ _ _).trans (kept_frame _ _ _ _ _)).trans (kept_stage _ _ _)
  · exact (kept_frame _ _ _ _ _).trans (kept_stage _ _ _)

theorem commit_bus (r : Region) (a : Half) (s : State) :
    (commit r a s).bus = s.bus.act s.par (commitCmd r a) := by
  cases r with
  | prog => simp [commit, commitCmd, sendCommitProg, pageOf, Region.page]
  | eep => simp [commit, commitCmd, sendCommitEep, pageOf, Region.page]

theorem commit_kept (r : Region) (a : Half) (s : State) : Kept s (commit r a s) := by
  cases r <;> exact (kept_frame _ _ _ _ _).trans (kept_clearPpb _)

section
variable (r : Region) (a v : Half) (s : State)
@[simp] theorem loadUnit_pa : (loadUnit r a v s).pa = s.pa := by
  cases r <;> simp [loadUnit, sendLoadProgLo, sendLoadProgHi, sendLoadEep]
@[simp] theorem loadUnit_k : (loadUnit r a v s).k = s.k := by
  cases r <;> simp [loadUnit, sendLoadProgLo, sendLoadProgHi, sendLoadEep]
@[simp] theorem loadUnit_i : (loadUnit r a v s).i = s.i := by
  cases r <;> simp [loadUnit, sendLoadProgLo, sendLoadProgHi, sendLoadEep]
@[simp] theorem loadUnit_out : (loadUnit r a v s).out = s.out := by
  cases r <;> simp [loadUnit, sendLoadProgLo, sendLoadProgHi, sendLoadEep]
@[simp] theorem loadUnit_tmr : (loadUnit r a v s).tmr = s.tmr := by
  cases r <;> simp [loadUnit, sendLoadProgLo, sendLoadProgHi, sendLoadEep]
@[simp] theorem loadUnit_ppbValid :
    (loadUnit r a v s).ppbValid = s.ppbValid.setIfInBounds (offsetOf r a).toNat true := by
  cases r <;> simp [loadUnit, sendLoadProgLo, sendLoadProgHi, sendLoadEep, offsetOf]
@[simp] theorem loadUnit_draws : (loadUnit r a v s).draws = s.draws + 4 * r.unitBytes := by
  cases r <;> simp [loadUnit, sendLoadProgLo, sendLoadProgHi, sendLoadEep, Region.unitBytes]
@[simp] theorem commit_pa : (commit r a s).pa = s.pa := by
  cases r <;> simp [commit, sendCommitProg, sendCommitEep]
@[simp] theorem commit_k : (commit r a s).k = s.k := by
  cases r <;> simp [commit, sendCommitProg, sendCommitEep]
@[simp] theorem commit_i : (commit r a s).i = s.i := by
  cases r <;> simp [commit, sendCommitProg, sendCommitEep]
@[simp] theorem commit_out : (commit r a s).out = s.out := by
  cases r <;> simp [commit, sendCommitProg, sendCommitEep]
@[simp] theorem commit_draws : (commit r a s).draws = s.draws + 4 := by
  cases r <;> simp [commit, sendCommitProg, sendCommitEep]
@[simp] theorem commit_ppbValid : (commit r a s).ppbValid = Vector.replicate 16 false := by
  cases r <;> simp [commit, sendCommitProg, sendCommitEep]
end

/-! ## The sequencer's counters -/

theorem kept_advanceIndex (s : State) : Kept s (advanceIndex s) := by constructor <;> rfl
theorem kept_firstIndex (s : State) : Kept s (firstIndex s) := by constructor <;> rfl
theorem kept_advanceValues (n : Nat) (s : State) : Kept s (advanceValues n s) := by constructor <;> rfl
theorem kept_nextPage (r : Region) (s : State) : Kept s (nextPage r s) := by constructor <;> rfl

section
variable (r : Region) (n : Nat) (s : State)
@[simp] theorem advanceIndex_bus : (advanceIndex s).bus = s.bus := rfl
@[simp] theorem advanceIndex_pa : (advanceIndex s).pa = s.pa := rfl
@[simp] theorem advanceIndex_k : (advanceIndex s).k = s.k := rfl
@[simp] theorem advanceIndex_i : (advanceIndex s).i = s.i + 1 := rfl
@[simp] theorem advanceIndex_out : (advanceIndex s).out = s.out := rfl
@[simp] theorem advanceIndex_draws : (advanceIndex s).draws = s.draws := rfl
@[simp] theorem advanceIndex_ppbValid : (advanceIndex s).ppbValid = s.ppbValid := rfl
@[simp] theorem firstIndex_bus : (firstIndex s).bus = s.bus := rfl
@[simp] theorem firstIndex_pa : (firstIndex s).pa = s.pa := rfl
@[simp] theorem firstIndex_k : (firstIndex s).k = s.k := rfl
@[simp] theorem firstIndex_i : (firstIndex s).i = 0 := rfl
@[simp] theorem firstIndex_out : (firstIndex s).out = s.out := rfl
@[simp] theorem firstIndex_draws : (firstIndex s).draws = s.draws := rfl
@[simp] theorem firstIndex_ppbValid : (firstIndex s).ppbValid = s.ppbValid := rfl
@[simp] theorem advanceValues_bus : (advanceValues n s).bus = s.bus := rfl
@[simp] theorem advanceValues_pa : (advanceValues n s).pa = s.pa := rfl
@[simp] theorem advanceValues_k : (advanceValues n s).k = s.k + BitVec.ofNat 16 n := rfl
@[simp] theorem advanceValues_out : (advanceValues n s).out = s.out := rfl
@[simp] theorem advanceValues_draws : (advanceValues n s).draws = s.draws := rfl
@[simp] theorem nextPage_bus : (nextPage r s).bus = s.bus := rfl
@[simp] theorem nextPage_pa : (nextPage r s).pa = s.pa + BitVec.ofNat 16 r.upp := rfl
@[simp] theorem nextPage_k : (nextPage r s).k = s.k := rfl
@[simp] theorem nextPage_out : (nextPage r s).out = s.out := rfl
@[simp] theorem nextPage_draws : (nextPage r s).draws = s.draws := rfl
@[simp] theorem nextPage_tmr : (nextPage r s).tmr = s.tmr := rfl
@[simp] theorem nextPage_ppbValid : (nextPage r s).ppbValid = s.ppbValid := rfl
@[simp] theorem commitPage_pa : (commitPage r s).pa = s.pa := by simp [commitPage]
@[simp] theorem commitPage_k : (commitPage r s).k = s.k := by simp [commitPage]
@[simp] theorem commitPage_out : (commitPage r s).out = s.out := by simp [commitPage]
@[simp] theorem commitPage_draws : (commitPage r s).draws = s.draws + 4 := by simp [commitPage]
@[simp] theorem commitPage_tmr : (commitPage r s).tmr = 0 := by simp [commitPage]
@[simp] theorem commitPage_ppbValid : (commitPage r s).ppbValid = Vector.replicate 16 false := by simp [commitPage]
end

theorem commitPage_bus (r : Region) (s : State) :
    (commitPage r s).bus = s.bus.play s.par [commitCmd r s.pa, .wait r.wr] := by
  simp [commitPage, commit_bus, (commit_kept r s.pa s).par]

theorem kept_commitPage (r : Region) (s : State) : Kept s (commitPage r s) :=
  (commit_kept r s.pa s).trans (kept_waitFor _ _)

theorem loadNext_kept (r : Region) (s : State) : Kept s (loadNext r s) :=
  (loadUnit_kept r _ _ s).trans (kept_advanceIndex _)

/-! ## The inner loop -/

theorem loadUnits_kept (r : Region) (m : Nat) (s : State) : Kept s (loadUnits r m s) := by
  induction m generalizing s with
  | zero => exact Kept.refl s
  | succ m ih => exact (loadNext_kept r s).trans (ih _)

/-- The value of unit `j` now. -/
theorem hostValue_eq (s : State) (j : Nat) :
    hostValue s j = match s.values[j]? with | some v => v | none => Config.freeUnit s.draws j := rfl

theorem succ_i (i : BitVec 5) (h : i.toNat < 16) : (i + 1).toNat = i.toNat + 1 := by
  rw [BitVec.toNat_add]; simp; omega

theorem setWidth_i (i : BitVec 5) : i.setWidth 16 = BitVec.ofNat 16 i.toNat := by
  apply BitVec.eq_of_toNat_eq; simp

/-- The inner loop plays the loads of units `i`, `i+1`, … of the page at `pa`, and moves only its own index. -/
theorem loadUnits_spec (r : Region) (m : Nat) (s : State) (h : s.i.toNat + m ≤ 16) (v : Nat → Half)
    (hv : ∀ q, q < m → v (s.i.toNat + q) =
      match s.values[s.k.toNat + s.i.toNat + q]? with
      | some x => x
      | none => Config.freeUnit (s.draws + 4 * r.unitBytes * q) (s.k.toNat + s.i.toNat + q)) :
    (loadUnits r m s).bus = s.bus.play s.par
        ((List.range' s.i.toNat m).flatMap fun i => loadCmds r (s.pa + BitVec.ofNat 16 i) (v i)) ∧
      (loadUnits r m s).pa = s.pa ∧ (loadUnits r m s).k = s.k ∧ (loadUnits r m s).out = s.out ∧
      (loadUnits r m s).draws = s.draws + 4 * r.unitBytes * m := by
  induction m generalizing s with
  | zero => simp [loadUnits]
  | succ m ih =>
    have hk := loadNext_kept r s
    have hi : (loadNext r s).i.toNat = s.i.toNat + 1 := by
      rw [loadNext, advanceIndex_i, loadUnit_i]; exact succ_i _ (by omega)
    have hkk : (loadNext r s).k = s.k := by simp [loadNext]
    have hd : (loadNext r s).draws = s.draws + 4 * r.unitBytes := by simp [loadNext]
    have hv0 : hostValue s (s.k.toNat + s.i.toNat) = v s.i.toNat := by
      have := hv 0 (by omega)
      simp only [Nat.add_zero, Nat.mul_zero] at this
      rw [this, hostValue_eq]
    have hb : (loadNext r s).bus = s.bus.play s.par (loadCmds r (s.pa + BitVec.ofNat 16 s.i.toNat) (v s.i.toNat)) := by
      rw [loadNext, advanceIndex_bus, loadUnit_bus, setWidth_i, hv0]
    obtain ⟨kb, kpa, kk, ko, kd⟩ := ih (loadNext r s) (by omega) fun q hq => by
      have := hv (q + 1) (by omega)
      rw [hi, hkk, hk.values, hd, show s.i.toNat + 1 + q = s.i.toNat + (q + 1) by omega, this,
        show s.k.toNat + (s.i.toNat + 1) + q = s.k.toNat + s.i.toNat + (q + 1) by omega,
        show s.draws + 4 * r.unitBytes * (q + 1) = s.draws + 4 * r.unitBytes + 4 * r.unitBytes * q by ring]
    rw [loadUnits]
    refine ⟨?_, by rw [kpa]; simp [loadNext], kk.trans hkk, by rw [ko]; simp [loadNext], by rw [kd, hd]; ring⟩
    rw [kb, hb, hi, hk.par, List.range'_succ, List.flatMap_cons, Bus.play_append]
    simp [loadNext]

/-! ## One page -/

theorem writeChunk_kept (r : Region) (s : State) : Kept s (writeChunk r s) :=
  ((((kept_firstIndex s).trans (loadUnits_kept r _ _)).trans (kept_advanceValues _ _)).trans
    (kept_commitPage r _)).trans (kept_nextPage r _)

theorem upp_le (r : Region) : r.upp ≤ 16 := by cases r <;> decide
theorem upp_pos (r : Region) : 0 < r.upp := by cases r <;> decide

/-- One pass of the outer loop plays one page. -/
theorem writeChunk_spec (r : Region) (s : State) (hlt : s.k.toNat < s.count.toNat) (v : Nat → Half)
    (hv : ∀ q, q < chunkSize r s → v q =
      match s.values[s.k.toNat + q]? with
      | some x => x
      | none => Config.freeUnit (s.draws + 4 * r.unitBytes * q) (s.k.toNat + q)) :
    (writeChunk r s).bus = s.bus.play s.par (pageCmds r s.pa v (chunkSize r s)) ∧
      (writeChunk r s).pa = s.pa + BitVec.ofNat 16 r.upp ∧
      (writeChunk r s).k.toNat = s.k.toNat + chunkSize r s ∧ (writeChunk r s).out = s.out ∧
      (writeChunk r s).draws = s.draws + 4 * (r.unitBytes * chunkSize r s + 1) ∧
      (writeChunk r s).ppbValid = Vector.replicate 16 false ∧ (writeChunk r s).tmr = 0 := by
  have hn : chunkSize r s ≤ 16 := le_trans (Nat.min_le_left ..) (upp_le r)
  obtain ⟨hb, hpa, hk, ho, hd⟩ := loadUnits_spec r (chunkSize r s) (firstIndex s) (by simpa using hn) v (by
    intro q hq; simpa [(kept_firstIndex s).values] using hv q hq)
  have hp := ((kept_firstIndex s).trans (loadUnits_kept r (chunkSize r s) (firstIndex s))).par
  have hle : s.k.toNat + chunkSize r s ≤ s.count.toNat := by
    have : chunkSize r s ≤ s.count.toNat - s.k.toNat := Nat.min_le_right ..
    omega
  have hcount : s.count.toNat < 65536 := s.count.isLt
  rw [writeChunk]
  refine ⟨?_, by simp [hpa], ?_, by simp [ho], by simp [hd]; ring, by simp, by simp⟩
  · rw [nextPage_bus, commitPage_bus, advanceValues_bus, hb, pageCmds, Bus.play_append]
    simp [(kept_advanceValues _ _).par, hp, hpa, List.range_eq_range', (kept_firstIndex s).par]
  · simp [hk, BitVec.toNat_add]; omega

/-! ## The whole write -/

theorem writeLoop_kept (r : Region) (fuel : Nat) (s : State) : Kept s (writeLoop r fuel s) := by
  induction fuel generalizing s with
  | zero => exact Kept.refl s
  | succ fuel ih =>
    unfold writeLoop
    split
    · exact (writeChunk_kept r s).trans (ih _)
    · exact Kept.refl s

theorem lt_pageCount (r : Region) (n j : Nat) (h : j * r.upp < n) : j < pageCount r n := by
  have hp := upp_pos r
  rw [pageCount, Nat.lt_div_iff_mul_lt hp]
  omega

theorem pageCount_le (r : Region) (n j : Nat) (h : n ≤ j * r.upp) : pageCount r n ≤ j := by
  have hp := upp_pos r
  rw [pageCount, Nat.div_le_iff_le_mul_add_pred hp]
  rw [Nat.mul_comm] at h
  omega

/-- The outer loop, entered before page `j`, plays the pages from `j` on. -/
theorem writeLoop_spec (r : Region) (fuel : Nat) (s : State) (start : Half) (j : Nat) (v : Nat → Half)
    (hf : s.count.toNat - s.k.toNat ≤ fuel) (hk : s.k.toNat = min (j * r.upp) s.count.toNat)
    (hpa : s.pa = start + BitVec.ofNat 16 (j * r.upp))
    (hv : ∀ q, s.k.toNat + q < s.count.toNat → v (s.k.toNat + q) =
      match s.values[s.k.toNat + q]? with
      | some x => x
      | none => Config.freeUnit (s.draws + 4 * (r.unitBytes * q + q / r.upp)) (s.k.toNat + q))
    (hp : s.ppbValid = Vector.replicate 16 false) :
    (writeLoop r fuel s).bus = s.bus.play s.par
        ((List.range' j (pageCount r s.count.toNat - j)).flatMap (nthPageCmds r start v s.count.toNat)) ∧
      (writeLoop r fuel s).out = s.out ∧ (writeLoop r fuel s).ppbValid = Vector.replicate 16 false ∧
      (writeLoop r fuel s).k = s.count := by
  have hu := upp_pos r
  have hcount : s.count.toNat < 65536 := s.count.isLt
  have done (h : ¬ s.k.toNat < s.count.toNat) : pageCount r s.count.toNat - j = 0 ∧ s.k = s.count := by
    refine ⟨?_, BitVec.eq_of_toNat_eq (by omega)⟩
    have := pageCount_le r s.count.toNat j (by omega)
    omega
  induction fuel generalizing s j with
  | zero =>
    obtain ⟨h1, h2⟩ := done (by omega)
    simp [writeLoop, h1, hp, h2]
  | succ fuel ih =>
    unfold writeLoop
    split
    · next hlt =>
      have hc := writeChunk_kept r s
      have hkj : s.k.toNat = j * r.upp := by omega
      have hn : chunkSize r s = min r.upp (s.count.toNat - j * r.upp) := by rw [chunkSize, hkj]
      have small (q : Nat) (hq : q < r.upp) : q / r.upp = 0 := Nat.div_eq_of_lt hq
      obtain ⟨cb, cpa, ck, co, cd, cp, _⟩ := writeChunk_spec r s hlt (fun i => v (j * r.upp + i)) fun q hq => by
        have := hv q (by omega)
        rw [hkj] at this ⊢
        rw [this, small q (by omega), Nat.add_zero, Nat.mul_assoc]
      have hcc : (writeChunk r s).count = s.count := hc.count
      obtain ⟨lb, lo, lp, lk⟩ := ih (writeChunk r s) (j + 1) (by rw [hcc, ck, hn]; omega)
        (by rw [ck, hcc, hn, hkj, Nat.add_mul]; omega)
        (by rw [cpa, hpa, BitVec.add_assoc]
            congr 1
            apply BitVec.eq_of_toNat_eq
            simp [BitVec.toNat_add, Nat.add_mul])
        (fun q hq => by
          rw [hcc] at hq
          have full : chunkSize r s = r.upp := by omega
          have := hv (r.upp + q) (by omega)
          rw [ck, full, hc.values, cd, full]
          rw [show s.k.toNat + r.upp + q = s.k.toNat + (r.upp + q) by omega, this]
          rw [show (r.upp + q) / r.upp = 1 + q / r.upp by rw [Nat.add_comm, Nat.add_div_right _ hu, Nat.add_comm]]
          rw [show s.draws + 4 * (r.unitBytes * r.upp + 1) + 4 * (r.unitBytes * q + q / r.upp)
            = s.draws + 4 * (r.unitBytes * (r.upp + q) + (1 + q / r.upp)) by ring])
        cp (by rw [hcc]; exact hcount) (by
          intro h
          rw [hcc] at h ⊢
          refine ⟨?_, BitVec.eq_of_toNat_eq (by rw [ck] at h ⊢; omega)⟩
          have := pageCount_le r s.count.toNat (j + 1) (by rw [ck] at h; rw [Nat.add_mul]; omega)
          omega)
      have hpc := lt_pageCount r s.count.toNat j (by omega)
      rw [hcc] at lb lk
      refine ⟨?_, lo.trans co, lp, lk⟩
      rw [lb, cb, hc.par, ← Bus.play_append]
      congr 1
      rw [show pageCount r s.count.toNat - j = (pageCount r s.count.toNat - (j + 1)) + 1 by omega, List.range'_succ,
        List.flatMap_cons, nthPageCmds, hn, hpa]
    · next h =>
      obtain ⟨h1, h2⟩ := done h
      simp [h1, hp, h2]

/-- Where the loads of a chunk leave the index. -/
theorem loadUnits_i (r : Region) (m : Nat) (s : State) : (loadUnits r m s).i = s.i + BitVec.ofNat 5 m := by
  induction m generalizing s with
  | zero => simp [loadUnits]
  | succ m ih =>
    rw [loadUnits, ih]; simp [loadNext]; rw [BitVec.add_assoc]; congr 1
    apply BitVec.eq_of_toNat_eq; simp; omega

/-- Where one page leaves the small registers. -/
theorem writeChunk_counters (r : Region) (s : State) : (writeChunk r s).bi = 0 ∧
    (writeChunk r s).tmr = 0 ∧ (writeChunk r s).i = BitVec.ofNat 5 (chunkSize r s) := by
  refine ⟨?_, ?_, ?_⟩
  · cases r <;> simp [writeChunk, nextPage, commitPage, commit, sendCommitProg, sendCommitEep]
  · cases r <;> simp [writeChunk, nextPage, commitPage, commit, sendCommitProg, sendCommitEep]
  · have : (loadUnits r (chunkSize r s) (firstIndex s)).i = BitVec.ofNat 5 (chunkSize r s) := by rw [loadUnits_i]; simp
    rw [← this]
    cases r <;> simp [writeChunk, nextPage, commitPage, commit, sendCommitProg, sendCommitEep, advanceValues]

/-- Where the outer loop leaves the transient registers (42_page_write.md R184; log 10). -/
theorem writeLoop_counters (r : Region) (fuel : Nat) (s : State)
    (hf : s.count.toNat - s.k.toNat ≤ fuel) (hk : s.k.toNat ≤ s.count.toNat) :
    (writeLoop r fuel s).k = s.count ∧
    (writeLoop r fuel s).pa = s.pa + BitVec.ofNat 16 (pageCount r (s.count.toNat - s.k.toNat) * r.upp) ∧
    (writeLoop r fuel s).bi = (if s.k = s.count then s.bi else 0) ∧
    (writeLoop r fuel s).tmr = (if s.k = s.count then s.tmr else 0) ∧
    (writeLoop r fuel s).i = (if s.k = s.count then s.i else BitVec.ofNat 5 ((s.count.toNat - s.k.toNat - 1) % r.upp + 1)) := by
  induction fuel generalizing s with
  | zero =>
    have : s.k = s.count := BitVec.eq_of_toNat_eq (by omega)
    refine ⟨this, ?_, ?_, ?_, ?_⟩ <;> simp [writeLoop, this]
    cases r <;> simp [pageCount, Region.upp]
  | succ fuel ih =>
    unfold writeLoop
    split
    · next hlt =>
      obtain ⟨_, cpa, ck, _, _, _, _⟩ := writeChunk_spec r s hlt (fun q =>
        match s.values[s.k.toNat + q]? with
        | some x => x
        | none => Config.freeUnit (s.draws + 4 * r.unitBytes * q) (s.k.toNat + q)) (fun _ _ => rfl)
      obtain ⟨b1, b2, b3⟩ := writeChunk_counters r s
      have hc : (writeChunk r s).count = s.count := (writeChunk_kept r s).count
      have hcs : chunkSize r s = min r.upp (s.count.toNat - s.k.toNat) := rfl
      have hu := upp_pos r
      obtain ⟨i1, i2, i3, i4, i5⟩ := ih (writeChunk r s) (by rw [hc, ck]; omega) (by rw [hc, ck]; omega)
      have hne : s.k ≠ s.count := fun h => by rw [h] at hlt; omega
      rw [hc] at i1 i2 i3 i4 i5
      refine ⟨i1, ?_, ?_, ?_, ?_⟩
      · rw [i2, cpa, ck, BitVec.add_assoc]; congr 1
        apply BitVec.eq_of_toNat_eq
        rw [BitVec.toNat_add, BitVec.toNat_ofNat, BitVec.toNat_ofNat, BitVec.toNat_ofNat, hcs]
        unfold pageCount
        cases r <;> simp only [Region.upp] <;> omega
      · rw [i3, b1, if_neg hne, ite_self]
      · rw [i4, b2, if_neg hne, ite_self]
      · rw [i5, b3, if_neg hne, ck, hcs]
        split
        · next h =>
          have : s.k.toNat + min r.upp (s.count.toNat - s.k.toNat) = s.count.toNat := by rw [← hcs, ← ck, h]
          congr 1
          cases r <;> simp only [Region.upp] at * <;> omega
        · next h =>
          have : s.k.toNat + min r.upp (s.count.toNat - s.k.toNat) ≠ s.count.toNat := fun h' =>
            h (BitVec.eq_of_toNat_eq (by rw [ck, hcs, h']))
          congr 2
          cases r <;> simp only [Region.upp] at * <;> omega
    · next h =>
      have : s.k = s.count := BitVec.eq_of_toNat_eq (by omega)
      refine ⟨this, ?_, ?_, ?_, ?_⟩ <;> simp [this]
      cases r <;> simp [pageCount, Region.upp]

theorem kept_beginPages (s : State) : Kept s (beginPages s) := by constructor <;> rfl
@[simp] theorem beginPages_bus (s : State) : (beginPages s).bus = s.bus := rfl
@[simp] theorem beginPages_k (s : State) : (beginPages s).k.toNat = 0 := rfl
@[simp] theorem beginPages_values (s : State) : (beginPages s).values = s.values := rfl
@[simp] theorem beginPages_draws (s : State) : (beginPages s).draws = s.draws := rfl

/-- WritePages on the bus side is exactly its schedule (42_page_write.md R184), and it leaves the pending page buffer empty. -/
theorem writePages_spec (r : Region) (s : State) :
    (writePages r s).bus = s.bus.play s.par
        (writeCmds r s.addr (unitValue r s.values s.draws) s.count.toNat) ∧
      (writePages r s).out = s.out ∧ (writePages r s).ppbValid = Vector.replicate 16 false ∧
      Kept s (writePages r s) := by
  obtain ⟨h1, h2, h3, _⟩ := writeLoop_spec r s.count.toNat (beginPages s) s.addr 0 (unitValue r s.values s.draws)
    (Nat.sub_le ..) (by simp [beginPages]) (by simp [beginPages])
    (fun q _ => by
      simp only [beginPages_k, beginPages_values, beginPages_draws, unitValue, Nat.zero_add]
      first | done | rfl) rfl
  refine ⟨?_, h2, h3, (kept_beginPages s).trans (writeLoop_kept r _ _)⟩
  rw [writeCmds, List.range_eq_range']
  exact h1

end Sys2Proof.Machine
end

