-- ==== Sys2Proof/Laws/Target.lean ====
section
/-! SUPPORT. The reference target: every environment operation keeps its memories in canonical form, and what its commits read as. -/

namespace Sys2Proof.Machine

/-- `Env.wf` of a reference target, as a proposition. -/
structure Target.WF (t : Target) : Prop where
  pmem : t.pmem.fits 2048
  emem : t.emem.fits 128
  plat : t.plat.fits 32
  elat : t.elat.fits 4
  sig : t.sig.fits 4
  cal : t.cal.fits 2
  fuse : t.fuse.fits 3
  lock : t.lock.fits 1
  got : t.got.length < 4

theorem Env.wf_reference (t : Target) : (Env.reference t).wf = true ↔ t.WF := by
  simp only [Env.wf, Bool.and_eq_true, decide_eq_true_eq]
  constructor
  · rintro ⟨⟨⟨⟨⟨⟨⟨⟨h1, h2⟩, h3⟩, h4⟩, h5⟩, h6⟩, h7⟩, h8⟩, h9⟩
    exact ⟨h1, h2, h3, h4, h5, h6, h7, h8, h9⟩
  · rintro ⟨h1, h2, h3, h4, h5, h6, h7, h8, h9⟩
    exact ⟨⟨⟨⟨⟨⟨⟨⟨h1, h2⟩, h3⟩, h4⟩, h5⟩, h6⟩, h7⟩, h8⟩, h9⟩

@[simp] theorem Env.wf_unconstrained (q : List Byte) : (Env.unconstrained q).wf = true := rfl

/-! ## Addresses within their spaces (20_memory.md R54) -/

theorem and_toNat_le (a m : Half) : (a &&& m).toNat ≤ m.toNat := by
  rw [BitVec.toNat_and]; exact Nat.and_le_right

theorem wholeAddr_prog_lt (a : Half) : (wholeAddr .prog a).toNat < 1024 :=
  Nat.lt_of_le_of_lt (and_toNat_le ..) (by decide)
theorem wholeAddr_eep_lt (a : Half) : (wholeAddr .eep a).toNat < 128 :=
  Nat.lt_of_le_of_lt (and_toNat_le ..) (by decide)
theorem offsetOf_prog_lt (a : Half) : (offsetOf .prog a).toNat < 16 :=
  Nat.lt_of_le_of_lt (and_toNat_le ..) (by decide)
theorem offsetOf_eep_lt (a : Half) : (offsetOf .eep a).toNat < 4 :=
  Nat.lt_of_le_of_lt (and_toNat_le ..) (by decide)
theorem pageOf_prog_le (a : Half) : (pageOf .prog a).toNat ≤ 1008 := and_toNat_le ..
theorem pageOf_eep_le (a : Half) : (pageOf .eep a).toNat ≤ 124 := and_toNat_le ..

/-! ## Commits -/

theorem fits_commitWord {m : Memory} (plat : Memory) {page o : Nat} (h : m.fits 2048) (hp : page + o < 1024) :
    (commitWord plat page o m).fits 2048 := by
  unfold commitWord
  split
  · exact Memory.fits_write _ (Memory.fits_write _ h (by omega)) (by omega)
  · exact Memory.fits_forget _ (Memory.fits_forget _ h)

theorem fits_commitWords {m : Memory} (plat : Memory) {page : Nat} (n : Nat) (h : m.fits 2048) (hp : page + n ≤ 1024) :
    (commitWords plat page n m).fits 2048 := by
  induction n with
  | zero => exact h
  | succ n ih => exact fits_commitWord plat (ih (by omega)) (by omega)

theorem fits_commitBytes {m : Memory} (elat : Memory) {page : Nat} (n : Nat) (h : m.fits 128) (hp : page + n ≤ 128) :
    (commitBytes elat page n m).fits 128 := by
  induction n with
  | zero => exact h
  | succ n ih => exact Memory.fits_put _ (ih (by omega)) (by omega)

/-- What a committed data page reads as: the loaded bytes, nothing known of the others, the rest as before (20_memory.md R73). -/
theorem read_commitBytes {m : Memory} (elat : Memory) (page n a : Nat) (h : m.fits 128) (hp : page + n ≤ 128) :
    (commitBytes elat page n m).read a = if page ≤ a ∧ a < page + n then elat.read (a - page) else m.read a := by
  induction n with
  | zero => rw [commitBytes, if_neg (by omega)]
  | succ n ih =>
    rw [commitBytes, Memory.read_put (fits_commitBytes elat n h (by omega)).1, ih (by omega)]
    by_cases h1 : a = page + n
    · subst h1; simp
    · rw [if_neg h1]
      by_cases h2 : page ≤ a ∧ a < page + n
      · rw [if_pos h2, if_pos (by omega)]
      · rw [if_neg h2, if_neg (by omega)]

/-- The byte a committed program word has at byte `b` (0 low, 1 high) of a slot (20_memory.md R73). -/
def latched (plat : Memory) (o b : Nat) : Option Byte :=
  match plat.read (2 * o), plat.read (2 * o + 1) with
  | some lo, some hi => some (if b = 0 then lo else hi)
  | _, _ => none

theorem read_commitWord {m : Memory} (plat : Memory) (page o a : Nat) (h : m.fits 2048) :
    (commitWord plat page o m).read a =
      if a = 2 * (page + o) then latched plat o 0
      else if a = 2 * (page + o) + 1 then latched plat o 1 else m.read a := by
  unfold commitWord latched
  rcases hlo : plat.read (2 * o) with _ | lo <;> rcases hhi : plat.read (2 * o + 1) with _ | hi
  case some.some =>
    simp only [Memory.read_write]
    by_cases h1 : a = 2 * (page + o) + 1
    · rw [if_pos h1, if_neg (by omega), if_pos h1]; rfl
    · simp [h1]
  all_goals
    simp only [Memory.read_forget (Memory.fits_forget _ h).1, Memory.read_forget h.1]
    by_cases h1 : a = 2 * (page + o) + 1
    · rw [if_pos h1, if_neg (by omega), if_pos h1]
    · simp [h1]

/-- What a committed program page reads as, byte by byte (20_memory.md R73). -/
theorem read_commitWords {m : Memory} (plat : Memory) (page n a : Nat) (h : m.fits 2048) (hp : page + n ≤ 1024) :
    (commitWords plat page n m).read a =
      if 2 * page ≤ a ∧ a < 2 * (page + n) then latched plat (a / 2 - page) (a % 2) else m.read a := by
  induction n with
  | zero => rw [commitWords, if_neg (by omega)]
  | succ n ih =>
    rw [commitWords, read_commitWord plat page n a (fits_commitWords plat n h (by omega)), ih (by omega)]
    by_cases h1 : a = 2 * (page + n)
    · rw [if_pos h1, if_pos (by omega), show a / 2 - page = n by omega, show a % 2 = 0 by omega]
    · rw [if_neg h1]
      by_cases h2 : a = 2 * (page + n) + 1
      · rw [if_pos h2, if_pos (by omega), show a / 2 - page = n by omega, show a % 2 = 1 by omega]
      · rw [if_neg h2]
        by_cases h3 : 2 * page ≤ a ∧ a < 2 * (page + n)
        · rw [if_pos h3, if_pos (by omega)]
        · rw [if_neg h3, if_neg (by omega)]

/-! ## The environment stays well formed -/

theorem Target.WF.withGot {t : Target} (h : t.WF) (g : List Byte) (hg : g.length < 4) (f : Bool) :
    ({ t with got := g, fresh := f } : Target).WF :=
  ⟨h.1, h.2, h.3, h.4, h.5, h.6, h.7, h.8, hg⟩

theorem Env.wf_ite {c : Prop} [Decidable c] {d e : Env} (hd : d.wf = true) (he : e.wf = true) :
    (if c then d else e).wf = true := by split <;> assumption

theorem Target.wf_serve {t : Target} (p : Params) (b0 b1 b2 b3 : Byte) (h : t.WF) :
    (t.serve p b0 b1 b2 b3).wf = true := by
  have po := offsetOf_prog_lt (ofBytes 0 b2)
  have eo := offsetOf_eep_lt (ofBytes 0 b2)
  have pp := pageOf_prog_le (ofBytes b1 b2)
  have ep := pageOf_eep_le (ofBytes 0 b2)
  have ref {u : Target} (hu : u.WF) : (Env.reference u).wf = true := (Env.wf_reference u).mpr hu
  have fuse (i : Nat) (hi : i < 3) : ({ t with fuse := t.fuse.write i b3, busy := some .fuse } : Target).WF :=
    ⟨h.1, h.2, h.3, h.4, h.5, h.6, Memory.fits_write _ h.7 hi, h.8, h.9⟩
  refine Env.wf_ite (ref h) <| Env.wf_ite (ref h) <| Env.wf_ite (ref h) <| Env.wf_ite (ref ?_) <| Env.wf_ite (ref ?_) <|
    Env.wf_ite (ref ?_) <| Env.wf_ite (ref ?_) <| Env.wf_ite (ref ?_) <| Env.wf_ite (ref ?_) <|
    Env.wf_ite (ref (fuse 0 (by omega))) <| Env.wf_ite (ref (fuse 1 (by omega))) <|
    Env.wf_ite (ref (fuse 2 (by omega))) <| Env.wf_ite (ref ?_) rfl
  · exact ⟨h.1, h.2, Memory.fits_write _ h.3 (by omega), h.4, h.5, h.6, h.7, h.8, h.9⟩
  · exact ⟨h.1, h.2, Memory.fits_write _ h.3 (by omega), h.4, h.5, h.6, h.7, h.8, h.9⟩
  · exact ⟨h.1, h.2, h.3, Memory.fits_write _ h.4 (by omega), h.5, h.6, h.7, h.8, h.9⟩
  · exact ⟨fits_commitWords _ _ h.1 (by omega), h.2, Memory.fits_nil _, h.4, h.5, h.6, h.7, h.8, h.9⟩
  · exact ⟨h.1, fits_commitBytes _ _ h.2 (by omega), h.3, Memory.fits_nil _, h.5, h.6, h.7, h.8, h.9⟩
  · exact ⟨Memory.fits_nil _, Memory.fits_nil _, Memory.fits_nil _, Memory.fits_nil _, Memory.fits_nil _, Memory.fits_nil _,
      Memory.fits_nil _, Memory.fits_nil _, h.9⟩
  · exact ⟨h.1, h.2, h.3, h.4, h.5, h.6, h.7, Memory.fits_write _ h.8 (by decide), h.9⟩

theorem Target.wf_complete {t : Target} (p : Params) (rx b0 b1 b2 b3 : Byte) (h : t.WF) :
    (t.complete p rx b0 b1 b2 b3).wf = true := by
  have u := h.withGot [] (by decide) false
  unfold Target.complete
  split
  · split
    · split <;> rw [Env.wf_reference] <;> exact ⟨h.1, h.2, h.3, h.4, h.5, h.6, h.7, h.8, u.9⟩
    · rfl
  · split
    · exact Target.wf_serve p _ _ _ _ u
    · split
      · rw [Env.wf_reference]; exact ⟨h.1, h.2, h.3, h.4, h.5, h.6, h.7, h.8, u.9⟩
      · rfl

theorem Env.wf_exchange {e : Env} (p : Params) (free tx : Byte) (h : e.wf = true) : (e.exchange p free tx).2.wf = true := by
  cases e with
  | unconstrained q => cases q <;> rfl
  | reference t =>
    have ht := (Env.wf_reference t).mp h
    simp only [Env.exchange, Target.exchange]
    split
    · split
      · exact (Env.wf_reference _).mpr (ht.withGot _ (by simp) _)
      · exact (Env.wf_reference _).mpr (ht.withGot _ (by simp) _)
      · exact (Env.wf_reference _).mpr (ht.withGot _ (by simp) _)
      · exact Target.wf_complete p _ _ _ _ _ ht
      · rfl
    · rfl

theorem Env.wf_exchangeFrame {e : Env} (p : Params) (n : Nat) (b0 b1 b2 b3 : Byte) (h : e.wf = true) :
    (e.exchangeFrame p n b0 b1 b2 b3).2.wf = true :=
  Env.wf_exchange p _ _ (Env.wf_exchange p _ _ (Env.wf_exchange p _ _ (Env.wf_exchange p _ _ h)))

theorem Env.wf_busEnable {e : Env} (h : e.wf = true) : e.busEnable.wf = true := by
  cases e with
  | unconstrained q => rfl
  | reference t =>
    have ht := (Env.wf_reference t).mp h
    exact (Env.wf_reference _).mpr ⟨ht.1, ht.2, ht.3, ht.4, ht.5, ht.6, ht.7, ht.8, ht.9⟩

theorem Env.wf_busDisable {e : Env} (h : e.wf = true) : e.busDisable.wf = true := by
  cases e with
  | unconstrained q => rfl
  | reference t =>
    have ht := (Env.wf_reference t).mp h
    exact (Env.wf_reference _).mpr ⟨ht.1, ht.2, ht.3, ht.4, ht.5, ht.6, ht.7, ht.8, ht.9⟩

theorem Env.wf_resetLine {e : Env} (l : Bool) (h : e.wf = true) : (e.resetLine l).wf = true := by
  cases e with
  | unconstrained q => rfl
  | reference t =>
    have ht := (Env.wf_reference t).mp h
    exact (Env.wf_reference _).mpr ⟨ht.1, ht.2, ht.3, ht.4, ht.5, ht.6, ht.7, ht.8, by simp⟩

theorem Env.wf_wait {e : Env} (p : Params) (k : WaitKind) (h : e.wf = true) : (e.wait p k).wf = true := by
  cases e with
  | unconstrained q => rfl
  | reference t =>
    have ht := (Env.wf_reference t).mp h
    simp only [Env.wait]
    split
    · exact h
    · exact (Env.wf_reference _).mpr ⟨ht.1, ht.2, ht.3, ht.4, ht.5, ht.6, ht.7, ht.8, ht.9⟩

end Sys2Proof.Machine
end

