-- ==== Sys2Proof/Laws/Operations.lean ====
section
/-! SUPPORT. What every instruction can do, said once: on the bus side it plays `opCmds`, and it keeps the operand registers, the inputs
and the parameters. -/

namespace Sys2Proof.Machine

/-- The operand registers, the inputs and the parameters, which no instruction writes (10_state.md R27, R32). -/
structure Inputs (s t : State) : Prop where
  op : t.op = s.op
  addr : t.addr = s.addr
  count : t.count = s.count
  d0 : t.d0 = s.d0
  d1 : t.d1 = s.d1
  d2 : t.d2 = s.d2
  d3 : t.d3 = s.d3
  values : t.values = s.values
  par : t.par = s.par
  host : t.host = s.host

theorem Kept.inputs {s t : State} (h : Kept s t) : Inputs s t :=
  ⟨h.op, h.addr, h.count, h.d0, h.d1, h.d2, h.d3, h.values, h.par, h.host⟩

/-- An operation of Programming that ran to its end. -/
structure Ran (s t : State) (cs : List Cmd) : Prop where
  bus : t.bus = s.bus.play s.par cs
  inputs : Inputs s t
  mode : t.mode = s.mode
  busy : t.busy = false
  status : t.status = .ok
  ppb : t.ppbValid = s.ppbValid ∨ t.ppbValid = Vector.replicate 16 false

/-- A body that keeps its registers, completed with OK. -/
theorem Ran.complete {s t : State} {cs : List Cmd} (r : Word) (hb : t.bus = s.bus.play s.par cs) (hk : Kept s t)
    (hp : t.ppbValid = s.ppbValid ∨ t.ppbValid = Vector.replicate 16 false) : Ran s (complete .ok r t) cs :=
  ⟨hb, ⟨hk.op, hk.addr, hk.count, hk.d0, hk.d1, hk.d2, hk.d3, hk.values, hk.par, hk.host⟩, hk.mode, rfl, rfl, hp⟩

/-! ## The frames -/

/-- A frame instruction is one frame, its image. -/
theorem exec_frame (i : Instr) (s : State) (h : i.isFrame = true) :
    ∃ b0 b1 b2 b3, encode s.par.fuseRd i = [b0, b1, b2, b3] ∧ exec i s = .next (frame b0 b1 b2 b3 s) := by
  cases i <;> first | (exact Bool.noConfusion h) | exact ⟨_, _, _, _, rfl, rfl⟩

/-! ## The guarded operations -/

/-- A guarded operation in Programming plays its commands and completes with OK. -/
theorem exec_ran (i : Instr) (s : State) (hi : i.guarded = true) (hm : s.mode = .programming) :
    ∃ t, exec i s = .next t ∧ Ran s t (opCmds i s) := by
  have run (body : State → State) : Machine.guarded body s = body s := if_pos hm
  cases i
  case erase =>
    refine ⟨eraseBody s, congrArg Host.Outcome.next (run eraseBody), .complete (t := waitFor .erase (sendChipErase s)) 0 ?_ ?_ (.inl ?_)⟩
    · simp [sendChipErase, opCmds]
    · exact (kept_frame _ _ _ _ _).trans (kept_waitFor _ _)
    · rfl
  case poll =>
    refine ⟨pollBody s, congrArg Host.Outcome.next (run pollBody), .complete (t := sendPollBusy s) _ ?_ ?_ (.inl ?_)⟩
    · simp [sendPollBusy, opCmds]
    · exact kept_frame _ _ _ _ _
    · rfl
  case wrprog =>
    obtain ⟨hb, _, hp, hk⟩ := writePages_spec .prog s
    exact ⟨wrprogBody s, congrArg Host.Outcome.next (run wrprogBody), .complete (t := writePages .prog s) 0 hb hk (.inr hp)⟩
  case wreep =>
    obtain ⟨hb, _, hp, hk⟩ := writePages_spec .eep s
    exact ⟨wreepBody s, congrArg Host.Outcome.next (run wreepBody), .complete (t := writePages .eep s) 0 hb hk (.inr hp)⟩
  case rdprog =>
    obtain ⟨hb, hk, hp, _⟩ := readUnits_spec .prog s
    exact ⟨rdprogBody s, congrArg Host.Outcome.next (run rdprogBody), .complete (t := readUnits .prog s) 0 hb hk (.inl hp)⟩
  case rdeep =>
    obtain ⟨hb, hk, hp, _⟩ := readUnits_spec .eep s
    exact ⟨rdeepBody s, congrArg Host.Outcome.next (run rdeepBody), .complete (t := readUnits .eep s) 0 hb hk (.inl hp)⟩
  case rdlock =>
    refine ⟨rdlockBody s, congrArg Host.Outcome.next (run rdlockBody), .complete (t := sendReadLock s) _ ?_ ?_ (.inl ?_)⟩
    · simp [sendReadLock, opCmds]
    · exact kept_frame _ _ _ _ _
    · rfl
  case wrlock =>
    refine ⟨wrlockBody s, congrArg Host.Outcome.next (run wrlockBody), .complete (t := waitFor .lock (sendWriteLock s.d0 s)) 0 ?_ ?_ (.inl ?_)⟩
    · simp [sendWriteLock, opCmds]
    · exact (kept_frame _ _ _ _ _).trans (kept_waitFor _ _)
    · rfl
  case rdsig =>
    refine ⟨rdsigBody s, congrArg Host.Outcome.next (run rdsigBody), .complete
      (t := sendReadSig 3 (sendReadSig 2 (sendReadSig 1 (sendReadSig 0 s)))) _ ?_ ?_ (.inl ?_)⟩
    · simp [sendReadSig, opCmds]
    · exact (((kept_frame _ _ _ _ _).trans (kept_frame _ _ _ _ _)).trans (kept_frame _ _ _ _ _)).trans
        (kept_frame _ _ _ _ _)
    · simp [sendReadSig]
  case wrfuse =>
    have h : Ran s (complete .ok 0 (waitFor .fuse (sendWriteFuseExt s.d2 (waitFor .fuse (sendWriteFuseHi s.d1
        (waitFor .fuse (sendWriteFuseLo s.d0 s))))))) (opCmds .wrfuse s) := by
      refine .complete 0 ?_ ?_ (.inl ?_)
      · simp [sendWriteFuseLo, sendWriteFuseHi, sendWriteFuseExt, opCmds]
      · exact (((((kept_frame _ _ _ _ _).trans (kept_waitFor _ _)).trans (kept_frame _ _ _ _ _)).trans
          (kept_waitFor _ _)).trans (kept_frame _ _ _ _ _)).trans (kept_waitFor _ _)
      · simp [sendWriteFuseLo, sendWriteFuseHi, sendWriteFuseExt]
    exact ⟨wrfuseBody s, congrArg Host.Outcome.next (run wrfuseBody), h⟩
  case rdfuse =>
    refine ⟨rdfuseBody s, congrArg Host.Outcome.next (run rdfuseBody), .complete (t := sendReadFuseExt (sendReadFuseHi (sendReadFuseLo s))) _
      ?_ ?_ (.inl ?_)⟩
    · simp [sendReadFuseLo, sendReadFuseHi, sendReadFuseExt, sendFuseSel, opCmds]
    · exact ((kept_frame _ _ _ _ _).trans (kept_frame _ _ _ _ _)).trans (kept_frame _ _ _ _ _)
    · simp [sendReadFuseLo, sendReadFuseHi, sendReadFuseExt, sendFuseSel]
  case rdcal =>
    refine ⟨rdcalBody s, congrArg Host.Outcome.next (run rdcalBody), .complete (t := sendReadCal 1 (sendReadCal 0 s)) _ ?_ ?_ (.inl ?_)⟩
    · simp [sendReadCal, opCmds]
    · exact (kept_frame _ _ _ _ _).trans (kept_frame _ _ _ _ _)
    · rfl
  case xchg =>
    refine ⟨xchgBody s, congrArg Host.Outcome.next (run xchgBody), .complete (t := frame s.d0 s.d1 s.d2 s.d3 s) _ ?_ ?_ (.inl ?_)⟩
    · simp [opCmds]
    · exact kept_frame _ _ _ _ _
    · rfl
  all_goals exact Bool.noConfusion hi

/-- A guarded operation in Idle is rejected with E_MODE (41_mode.md R170). -/
theorem exec_rejected (i : Instr) (s : State) (hi : i.guarded = true) (hm : s.mode = .idle) :
    exec i s = .next (reject .eMode s) := by
  have rej (body : State → State) : Machine.guarded body s = reject .eMode s := if_neg (by rw [hm]; decide)
  cases i <;> first | exact Bool.noConfusion hi | exact congrArg Host.Outcome.next (rej _)

/-! ## ENTER and EXIT -/

theorem kept_resetLine (l : Bool) (s : State) : Kept s (resetLine l s) := by constructor <;> rfl
theorem kept_busEnable (s : State) : Kept s (busEnable s) := by constructor <;> rfl

theorem pulseStep_spec (s : State) (q : PulseStep) :
    (pulseStep s q).bus = s.bus.play s.par (pulseCmds q) ∧ Kept s (pulseStep s q) ∧
      (pulseStep s q).ppbValid = s.ppbValid := by
  unfold pulseStep pulseCmds
  split
  · exact ⟨by simp, (kept_resetLine _ _).trans (kept_waitFor _ _), rfl⟩
  · exact ⟨by simp, kept_resetLine _ _, rfl⟩

theorem pulse_spec (qs : List PulseStep) (s : State) :
    (qs.foldl pulseStep s).bus = s.bus.play s.par (qs.flatMap pulseCmds) ∧ Kept s (qs.foldl pulseStep s) ∧
      (qs.foldl pulseStep s).ppbValid = s.ppbValid := by
  induction qs generalizing s with
  | nil => exact ⟨rfl, Kept.refl s, rfl⟩
  | cons q qs ih =>
    obtain ⟨h1, h2, h3⟩ := pulseStep_spec s q
    obtain ⟨g1, g2, g3⟩ := ih (pulseStep s q)
    exact ⟨by rw [List.foldl_cons, g1, h1, h2.par, List.flatMap_cons, Bus.play_append], h2.trans g2, g3.trans h3⟩

/-- ENTER up to its verdict plays `enterCmds` (41_mode.md R172). -/
theorem enter_front (s : State) :
    (sendProgEnable (resetPulse (busEnable s))).bus = s.bus.play s.par (enterCmds s.par) ∧
      Kept s (sendProgEnable (resetPulse (busEnable s))) ∧
      (sendProgEnable (resetPulse (busEnable s))).ppbValid = s.ppbValid := by
  obtain ⟨h1, h2, h3⟩ := pulse_spec s.par.resetSeq.steps (busEnable s)
  have hp : (resetPulse (busEnable s)).par = s.par := h2.par
  refine ⟨?_, ((kept_busEnable s).trans h2).trans (kept_frame _ _ _ _ _), by simp [sendProgEnable]; exact h3⟩
  rw [sendProgEnable, bus_frame, hp, enterCmds, Bus.play_append]
  exact congrArg (fun b => Bus.act s.par b _) h1

theorem leaveProgramming_bus (s : State) : (leaveProgramming s).bus = s.bus.play s.par exitCmds := rfl

/-- The two ends of ENTER (41_mode.md R172). -/
theorem exec_enter (s : State) :
    ∃ t, exec .enter s = .next t ∧ Inputs s t ∧ t.busy = false ∧ t.ppbValid = s.ppbValid ∧
      ((s.bus.play s.par (enterCmds s.par)).resp.b2 = 0x53 ∧ t.bus = s.bus.play s.par (enterCmds s.par) ∧
          t.mode = .programming ∧ t.status = .ok ∧ t.result = 1 ∨
        (s.bus.play s.par (enterCmds s.par)).resp.b2 ≠ 0x53 ∧
          t.bus = s.bus.play s.par (enterCmds s.par ++ exitCmds) ∧
          t.mode = .idle ∧ t.status = .eEntry ∧ t.result = 0) := by
  obtain ⟨hb, hk, hp⟩ := enter_front s
  have hr : (s.bus.play s.par (enterCmds s.par)).resp = (sendProgEnable (resetPulse (busEnable s))).resp := by
    rw [← hb]; rfl
  refine ⟨_, rfl, ?_⟩
  unfold enterVerdict
  rw [hr]
  split
  · next h => exact ⟨⟨hk.op, hk.addr, hk.count, hk.d0, hk.d1, hk.d2, hk.d3, hk.values, hk.par, hk.host⟩, rfl, hp, .inl ⟨h, hb, rfl, rfl, rfl⟩⟩
  · next h =>
    refine ⟨⟨hk.op, hk.addr, hk.count, hk.d0, hk.d1, hk.d2, hk.d3, hk.values, hk.par, hk.host⟩, rfl, hp, .inr ⟨h, ?_, rfl, rfl, rfl⟩⟩
    rw [bus_complete, leaveProgramming_bus, hk.par, hb, Bus.play_append]

/-- EXIT (41_mode.md R174). -/
theorem exec_exit (s : State) :
    ∃ t, exec .exit s = .next t ∧ Inputs s t ∧ t.busy = false ∧ t.ppbValid = s.ppbValid ∧
      t.bus = s.bus.play s.par exitCmds ∧ t.mode = .idle ∧ t.status = .ok ∧ t.result = 0 ∧ t.resp = s.resp :=
  ⟨_, rfl, by constructor <;> rfl, rfl, rfl, rfl, rfl, rfl, rfl, rfl⟩

/-! ## Every instruction -/

/-- Every instruction answers a next state, whose bus side is a play of its commands (followed, for a failed ENTER, by the rollback;
nothing at all for a rejected one), and keeps the inputs. -/
theorem exec_cases (i : Instr) (s : State) :
    ∃ t cs, exec i s = .next t ∧ Inputs s t ∧ t.bus = s.bus.play s.par cs ∧
      (cs = opCmds i s ∨ i = .enter ∧ cs = enterCmds s.par ++ exitCmds ∨
        i.guarded = true ∧ s.mode = .idle ∧ cs = []) := by
  by_cases hf : i.isFrame = true
  · obtain ⟨b0, b1, b2, b3, he, hx⟩ := exec_frame i s hf
    refine ⟨_, [.frame b0 b1 b2 b3], hx, (kept_frame _ _ _ _ _).inputs, by simp, .inl ?_⟩
    have : opCmds i s = imageCmds s.par.fuseRd i := by cases i <;> first | exact Bool.noConfusion hf | rfl
    rw [this, imageCmds, he]
  by_cases hg : i.guarded = true
  · cases hm : s.mode with
    | idle => exact ⟨_, [], exec_rejected i s hg hm, by constructor <;> rfl, rfl, .inr (.inr ⟨hg, rfl, rfl⟩)⟩
    | programming =>
      obtain ⟨t, h, hr⟩ := exec_ran i s hg hm
      exact ⟨t, _, h, hr.inputs, hr.bus, .inl rfl⟩
  have : i = .enter ∨ i = .exit := by cases i <;> simp_all [Instr.isFrame, Instr.guarded]
  rcases this with rfl | rfl
  · obtain ⟨t, h, hi, _, _, ⟨_, hb, _⟩ | ⟨_, hb, _⟩⟩ := exec_enter s
    · exact ⟨t, _, h, hi, hb, .inl rfl⟩
    · exact ⟨t, _, h, hi, hb, .inr (.inl ⟨rfl, rfl⟩)⟩
  · obtain ⟨t, h, hi, _, _, hb, _⟩ := exec_exit s
    exact ⟨t, _, h, hi, hb, .inl rfl⟩

end Sys2Proof.Machine
end

