-- ==== Sys2Proof/Laws/PerInstr.lean ====
section
/-! SUPPORT. Statements made per instruction. `CodecRoundTrip`: decoding the encoding of a well-formed instruction gives it back, for
every fuse-read table that tells its frames apart. -/

namespace Sys2Proof.Laws

/-- Decode after encode is the identity on a well-formed instruction (30_encoding.md R96, R97). -/
def CodecRoundTrip.Statement (i : Instr) : Prop :=
  ∀ f : FuseTable, f.WellFormed → i.wellFormed = true → decode f (encode f i) = .ok i

namespace CodecRoundTrip

/-- The masked address of a load, whose operand_lo has its high bits zero. -/
theorem low_only (a m : Half) (n : Byte) (hm : hiByte m = 0) (hn : loByte m &&& n = 0) (ha : a &&& m = a) :
    loByte (a &&& m) &&& n = 0 ∧ ofBytes 0 (loByte (a &&& m)) = a :=
  ⟨by rw [loByte_and]; exact and_and_eq_zero _ _ _ hn, by rw [ofBytes_zero_lo a m hm, ha]⟩

/-- The masked address of a program-memory read or commit. -/
theorem high_low (a m : Half) (hn ln : Byte) (h : hiByte m &&& hn = 0) (l : loByte m &&& ln = 0) (ha : a &&& m = a) :
    hiByte (a &&& m) &&& hn = 0 ∧ loByte (a &&& m) &&& ln = 0 ∧ ofBytes (hiByte (a &&& m)) (loByte (a &&& m)) = a :=
  ⟨by rw [hiByte_and]; exact and_and_eq_zero _ _ _ h, by rw [loByte_and]; exact and_and_eq_zero _ _ _ l,
    by rw [ofBytes_hi_lo, ha]⟩

theorem progEnable : Statement .progEnable := fun _ _ _ => rfl
theorem chipErase : Statement .chipErase := fun _ _ _ => rfl

theorem loadProgLo (a : Half) (d : Byte) : Statement (.loadProgLo a d) := fun f _ h => by
  obtain ⟨h1, h2⟩ := low_only a 0x000F 0xF0 (by decide) (by decide) (by simpa [Instr.wellFormed] using h)
  simp only [BitVec.ofNat_eq_ofNat] at h1 h2
  simp [encode, decode, decodeFrame, Region.offs, h1, h2]

theorem loadProgHi (a : Half) (d : Byte) : Statement (.loadProgHi a d) := fun f _ h => by
  obtain ⟨h1, h2⟩ := low_only a 0x000F 0xF0 (by decide) (by decide) (by simpa [Instr.wellFormed] using h)
  simp only [BitVec.ofNat_eq_ofNat] at h1 h2
  simp [encode, decode, decodeFrame, Region.offs, h1, h2]

theorem commitProg (a : Half) : Statement (.commitProg a) := fun f _ h => by
  obtain ⟨h1, h2, h3⟩ :=
    high_low a 0x03F0 0xFC 0x0F (by decide) (by decide) (by simpa [Instr.wellFormed] using h)
  simp only [BitVec.ofNat_eq_ofNat] at h1 h2 h3
  simp [encode, decode, decodeFrame, Region.page, h1, h2, h3]

theorem readProgLo (a : Half) : Statement (.readProgLo a) := fun f _ h => by
  obtain ⟨h1, _, h3⟩ :=
    high_low a 0x03FF 0xFC 0x00 (by decide) (by decide) (by simpa [Instr.wellFormed] using h)
  simp only [BitVec.ofNat_eq_ofNat] at h1 h3
  simp [encode, decode, decodeFrame, Region.full, h1, h3]

theorem readProgHi (a : Half) : Statement (.readProgHi a) := fun f _ h => by
  obtain ⟨h1, _, h3⟩ :=
    high_low a 0x03FF 0xFC 0x00 (by decide) (by decide) (by simpa [Instr.wellFormed] using h)
  simp only [BitVec.ofNat_eq_ofNat] at h1 h3
  simp [encode, decode, decodeFrame, Region.full, h1, h3]

theorem loadEep (a : Half) (d : Byte) : Statement (.loadEep a d) := fun f _ h => by
  obtain ⟨h1, h2⟩ := low_only a 0x0003 0xFC (by decide) (by decide) (by simpa [Instr.wellFormed] using h)
  simp only [BitVec.ofNat_eq_ofNat] at h1 h2
  simp [encode, decode, decodeFrame, Region.offs, h1, h2]

theorem commitEep (a : Half) : Statement (.commitEep a) := fun f _ h => by
  obtain ⟨h1, h2⟩ := low_only a 0x007C 0x83 (by decide) (by decide) (by simpa [Instr.wellFormed] using h)
  simp only [BitVec.ofNat_eq_ofNat] at h1 h2
  simp [encode, decode, decodeFrame, Region.page, h1, h2]

theorem readEep (a : Half) : Statement (.readEep a) := fun f _ h => by
  obtain ⟨h1, h2⟩ := low_only a 0x007F 0x80 (by decide) (by decide) (by simpa [Instr.wellFormed] using h)
  simp only [BitVec.ofNat_eq_ofNat] at h1 h2
  simp [encode, decode, decodeFrame, Region.full, h1, h2]

theorem writeEepByte (a : Half) (d : Byte) : Statement (.writeEepByte a d) := fun f _ h => by
  obtain ⟨h1, h2⟩ := low_only a 0x007F 0x80 (by decide) (by decide) (by simpa [Instr.wellFormed] using h)
  simp only [BitVec.ofNat_eq_ofNat] at h1 h2
  simp [encode, decode, decodeFrame, Region.full, h1, h2]

theorem readLock : Statement .readLock := fun _ _ _ => rfl
theorem writeLock (d : Byte) : Statement (.writeLock d) := fun _ _ _ => rfl

theorem readSig (s : BitVec 2) : Statement (.readSig s) := fun f _ _ => by
  have h := sub_address_reserved_two s
  have e := setWidth_extract_two s
  rw [encode, decode, decodeFrame, if_neg (by simp), if_neg (by simp), if_pos ⟨rfl, rfl, h, rfl⟩, e]

theorem writeFuseLo (d : Byte) : Statement (.writeFuseLo d) := fun _ _ _ => rfl
theorem writeFuseHi (d : Byte) : Statement (.writeFuseHi d) := fun _ _ _ => rfl
theorem writeFuseExt (d : Byte) : Statement (.writeFuseExt d) := fun _ _ _ => rfl

/-- A fuse-read frame other than READ_LOCK reaches the three fuse rows of the decoder. -/
theorem decode_fuse (f : FuseTable) (x : FuseSel) (hx : x ≠ ⟨.x58, 0x00⟩) :
    decode f [x.opcode.byte, x.hi, 0x00, 0x00] =
      if x = f.low then .ok .readFuseLo
      else if x = f.high then .ok .readFuseHi
      else if x = f.ext then .ok .readFuseExt
      else .error (.undefinedFrame x.opcode.byte x.hi 0 0) := by
  obtain ⟨⟨lo, lb⟩, ⟨ho, hb⟩, ⟨eo, eb⟩⟩ := f
  obtain ⟨o, b⟩ := x
  have hne : o = .x58 → b ≠ 0 := fun h h' => hx (by rw [h, h'])
  cases lo <;> cases ho <;> cases eo <;> cases o <;> simp_all [decode, decodeFrame, FuseOpcode.byte]

theorem readFuseLo : Statement .readFuseLo := fun f hf _ => by
  rw [encode, decode_fuse f f.low hf.2.2.2.2.1, if_pos rfl]

theorem readFuseHi : Statement .readFuseHi := fun f hf _ => by
  rw [encode, decode_fuse f f.high hf.2.2.2.2.2.1, if_neg (fun h => hf.2.1 h.symm), if_pos rfl]

theorem readFuseExt : Statement .readFuseExt := fun f hf _ => by
  rw [encode, decode_fuse f f.ext hf.2.2.2.2.2.2, if_neg (fun h => hf.2.2.2.1 h.symm),
    if_neg (fun h => hf.2.2.1 h.symm), if_pos rfl]

theorem readCal (s : BitVec 1) : Statement (.readCal s) := fun f _ _ => by
  have h := sub_address_reserved_one s
  have e := setWidth_extract_one s
  rw [encode, decode, decodeFrame, if_neg (by simp), if_neg (by simp), if_neg (by simp), if_pos ⟨rfl, rfl, h, rfl⟩, e]

theorem pollBusy : Statement .pollBusy := fun _ _ _ => rfl
theorem enter : Statement .enter := fun _ _ _ => rfl
theorem exit : Statement .exit := fun _ _ _ => rfl
theorem erase : Statement .erase := fun _ _ _ => rfl
theorem poll : Statement .poll := fun _ _ _ => rfl
theorem wrprog : Statement .wrprog := fun _ _ _ => rfl
theorem wreep : Statement .wreep := fun _ _ _ => rfl
theorem rdprog : Statement .rdprog := fun _ _ _ => rfl
theorem rdeep : Statement .rdeep := fun _ _ _ => rfl
theorem rdlock : Statement .rdlock := fun _ _ _ => rfl
theorem wrlock : Statement .wrlock := fun _ _ _ => rfl
theorem rdsig : Statement .rdsig := fun _ _ _ => rfl
theorem wrfuse : Statement .wrfuse := fun _ _ _ => rfl
theorem rdfuse : Statement .rdfuse := fun _ _ _ => rfl
theorem rdcal : Statement .rdcal := fun _ _ _ => rfl
theorem xchg : Statement .xchg := fun _ _ _ => rfl

end CodecRoundTrip

end Sys2Proof.Laws
end

