-- ==== Sys2Proof/Laws/Ready.lean ====
section
/-! SUPPORT. A target that stands ready: what one frame does to it, form by form, and what a settle wait does. -/

namespace Sys2Proof.Machine

/-- The target between two frames, the reset pulse forgotten. -/
def Target.settled (t : Target) : Target := { t with fresh := false }

theorem Target.Ready.settled {t : Target} (h : t.Ready) : t.settled.Ready := h

@[simp] theorem settled_space (t : Target) (sp : Space) : t.settled.space sp = t.space sp := by cases sp <;> rfl

@[simp] theorem peek_reference (t : Target) (sp : Space) (a : Nat) : (Env.reference t).peek sp a = (t.space sp).read a := rfl

theorem Env.Ready.exists {e : Env} (h : e.Ready) : ∃ t, e = .reference t ∧ t.Ready := by
  cases e with
  | unconstrained q => exact h.elim
  | reference t => exact ⟨t, rfl, h⟩

/-- What a frame does to a ready target: it serves the frame, and its last answer is `lastByte`. -/
theorem exchangeFrame_ready {t : Target} (h : t.Ready) (p : Params) (n : Nat) (b0 b1 b2 b3 : Byte) :
    ((Env.reference t).exchangeFrame p n b0 b1 b2 b3).2 = t.settled.serve p b0 b1 b2 b3 ∧
      ((Env.reference t).exchangeFrame p n b0 b1 b2 b3).1.b3 =
        t.lastByte p (Config.freeRx (n + 3)) b0 b1 b2 b3 := by
  obtain ⟨hb, he, hn, hg⟩ := h
  obtain ⟨pmem, emem, plat, elat, sig, cal, fuse, lock, busy, bus, low, fresh, enabled, got⟩ := t
  subst hb he hn hg
  exact ⟨rfl, rfl⟩

theorem responseTo_ready {s : State} {t : Target} (hs : s.env = .reference t) (h : t.Ready) (b0 b1 b2 b3 : Byte) :
    (s.responseTo b0 b1 b2 b3).b3 = t.lastByte s.par (Config.freeRx (s.draws + 3)) b0 b1 b2 b3 := by
  rw [State.responseTo, hs]; exact (exchangeFrame_ready h _ _ _ _ _ _).2

theorem envAfter_ready {s : State} {t : Target} (hs : s.env = .reference t) (h : t.Ready) (b0 b1 b2 b3 : Byte) :
    s.envAfter b0 b1 b2 b3 = t.settled.serve s.par b0 b1 b2 b3 := by
  rw [State.envAfter, hs]; exact (exchangeFrame_ready h _ _ _ _ _ _).1

/-- A ready target's last answer to any frame but a poll. -/
theorem lastByte_ready {t : Target} (h : t.Ready) (p : Params) (free b0 b1 b2 b3 : Byte) (hp : isPoll b0 b1 b2 b3 = false) :
    t.lastByte p free b0 b1 b2 b3 = (t.answer p b0 b1 b2 b3).getD free := by
  rw [Target.lastByte, if_pos ⟨h.2.1, h.2.2.1⟩, hp]; rfl

/-! ## Frames that read -/

theorem serve_readsOnly {t : Target} (p : Params) (b0 b1 b2 b3 : Byte) (h : readsOnly p b0 b1 b2 b3 = true) :
    t.serve p b0 b1 b2 b3 = .reference t := if_pos h

theorem serve_poll (t : Target) (p : Params) : t.serve p 0xF0 0 0 0 = .reference t := by
  unfold Target.serve
  by_cases h : readsOnly p 0xF0 0 0 0 = true
  · rw [if_pos h]
  · rw [if_neg h, if_pos ⟨rfl, rfl, rfl, rfl⟩]

theorem serve_enable (t : Target) (p : Params) : t.serve p 0xAC 0x53 0 0 = .reference t := by
  unfold Target.serve
  by_cases h : readsOnly p 0xAC 0x53 0 0 = true
  · rw [if_pos h]
  · rw [if_neg h, if_neg (by decide), if_pos ⟨rfl, rfl, rfl, rfl⟩]

/-! ## Frames that write -/

/-- A frame whose first byte is none of the read opcodes is no read. -/
theorem not_readsOnly (p : Params) (b0 b1 b2 b3 : Byte)
    (h : b0 = 0xAC ∨ b0 = 0x40 ∨ b0 = 0x48 ∨ b0 = 0xC1 ∨ b0 = 0x4C ∨ b0 = 0xC2) : readsOnly p b0 b1 b2 b3 = false := by
  have fuse (o : FuseOpcode) : (b0 == o.byte) = false := by
    rcases h with rfl | rfl | rfl | rfl | rfl | rfl <;> cases o <;> rfl
  have read (x : Byte) (hx : x = 0x20 ∨ x = 0x28 ∨ x = 0xA0 ∨ x = 0x30 ∨ x = 0x38 ∨ x = 0x58) : (b0 == x) = false := by
    rcases h with rfl | rfl | rfl | rfl | rfl | rfl <;> rcases hx with rfl | rfl | rfl | rfl | rfl | rfl <;> rfl
  rw [readsOnly, fuse, fuse, fuse, read 0x20 (by decide), read 0x28 (by decide), read 0xA0 (by decide),
    read 0x30 (by decide), read 0x38 (by decide), read 0x58 (by decide)]
  cases b3 == 0 <;> cases b1 == 0 <;> cases b2 == 0 <;> rfl

section
variable (t : Target) (p : Params)

theorem serve_loadProgLo (o d : Byte) :
    t.serve p 0x40 0 o d =
      .reference { t with plat := t.plat.write (2 * (offsetOf .prog (ofBytes 0 o)).toNat) d } := by
  rw [Target.serve, not_readsOnly p _ _ _ _ (by simp)]; simp

theorem serve_loadProgHi (o d : Byte) :
    t.serve p 0x48 0 o d =
      .reference { t with plat := t.plat.write (2 * (offsetOf .prog (ofBytes 0 o)).toNat + 1) d } := by
  rw [Target.serve, not_readsOnly p _ _ _ _ (by simp)]; simp

theorem serve_loadEep (o d : Byte) :
    t.serve p 0xC1 0 o d = .reference { t with elat := t.elat.write (offsetOf .eep (ofBytes 0 o)).toNat d } := by
  rw [Target.serve, not_readsOnly p _ _ _ _ (by simp)]; simp

theorem serve_commitProg (h l : Byte) :
    t.serve p 0x4C h l 0 =
      .reference { t with pmem := commitWords t.plat (pageOf .prog (ofBytes h l)).toNat 16 t.pmem, plat := [],
                          busy := some .wrProg } := by
  rw [Target.serve, not_readsOnly p _ _ _ _ (by simp)]; simp

theorem serve_commitEep (l : Byte) :
    t.serve p 0xC2 0 l 0 =
      .reference { t with emem := commitBytes t.elat (pageOf .eep (ofBytes 0 l)).toNat 4 t.emem, elat := [],
                          busy := some .wrEep } := by
  rw [Target.serve, not_readsOnly p _ _ _ _ (by simp)]; simp

theorem serve_writeFuseLo (d : Byte) :
    t.serve p 0xAC 0xA0 0 d = .reference { t with fuse := t.fuse.write 0 d, busy := some .fuse } := by
  rw [Target.serve, not_readsOnly p _ _ _ _ (by simp)]; simp

theorem serve_writeFuseHi (d : Byte) :
    t.serve p 0xAC 0xA8 0 d = .reference { t with fuse := t.fuse.write 1 d, busy := some .fuse } := by
  rw [Target.serve, not_readsOnly p _ _ _ _ (by simp)]; simp

theorem serve_writeFuseExt (d : Byte) :
    t.serve p 0xAC 0xA4 0 d = .reference { t with fuse := t.fuse.write 2 d, busy := some .fuse } := by
  rw [Target.serve, not_readsOnly p _ _ _ _ (by simp)]; simp

theorem serve_writeLock (d : Byte) :
    t.serve p 0xAC 0xE0 0 d = .reference { t with lock := t.lock.write 0 d, busy := some .lock } := by
  rw [Target.serve, not_readsOnly p _ _ _ _ (by simp)]; simp

end

/-! ## The settle wait (20_memory.md R74) -/

/-- The wait that covers the write in progress ends it. -/
theorem wait_ready {t : Target} (p : Params) (k : WaitKind) (hk : k ≠ .reset) (ht : p.ticks k ≠ 0)
    (h : t.bus = true ∧ t.enabled = true ∧ t.busy = some k ∧ t.got = []) :
    (Env.reference t).wait p k = .reference { t with busy := none } ∧ ({ t with busy := none } : Target).Ready := by
  refine ⟨?_, h.1, h.2.1, rfl, h.2.2.2⟩
  obtain ⟨-, -, hb, -⟩ := h
  have : (k == WaitKind.reset) = false := by simpa using hk
  simp only [Env.wait, if_neg ht, hb, if_true, this, Bool.false_and, Bool.or_false]

/-! ## Frames sent by the engine to a ready target -/

/-- A frame sent to a ready target: the target serves it. -/
theorem frame_env_ready {s : State} {t : Target} (hs : s.env = .reference t) (h : t.Ready) (b0 b1 b2 b3 : Byte) :
    (frame b0 b1 b2 b3 s).env = t.settled.serve s.par b0 b1 b2 b3 := by
  rw [frame_env, envAfter_ready hs h]

/-- A read frame whose byte is known answers it and leaves the target as it was. -/
theorem frame_reads {s : State} {t : Target} (hs : s.env = .reference t) (h : t.Ready) (b0 b1 b2 b3 : Byte) (x : Nat)
    (sp : Space)
    (hr : readsOnly s.par b0 b1 b2 b3 = true) (hp : isPoll b0 b1 b2 b3 = false)
    (ha : t.answer s.par b0 b1 b2 b3 = (t.space sp).read x) :
    (∀ v, s.env.peek sp x = some v → (frame b0 b1 b2 b3 s).resp.b3 = v) ∧ (frame b0 b1 b2 b3 s).env.Ready ∧
      ∀ sp' x', (frame b0 b1 b2 b3 s).env.peek sp' x' = s.env.peek sp' x' := by
  rw [frame_env_ready hs h, serve_readsOnly _ _ _ _ _ hr]
  refine ⟨fun v hv => ?_, h, fun sp' x' => by rw [hs]; simp⟩
  rw [frame_resp, responseTo_ready hs h, lastByte_ready h _ _ _ _ _ _ hp, ha]
  rw [hs, peek_reference] at hv
  rw [hv]; rfl

/-- The answer to a fuse-read frame (44_ancillary.md R211; log 14). -/
theorem answer_fuse (t : Target) (p : Params) (x : FuseSel) (hx : x ≠ ⟨.x58, 0⟩) : t.answer p x.opcode.byte x.hi 0 0 =
    if x = p.fuseRd.low then t.fuse.read 0
    else if x = p.fuseRd.high then t.fuse.read 1
    else if x = p.fuseRd.ext then t.fuse.read 2 else none := by
  obtain ⟨o, b⟩ := x
  have hne : o = .x58 → b ≠ 0 := fun h h' => hx (by rw [h, h'])
  unfold Target.answer
  generalize p.fuseRd = f
  obtain ⟨⟨lo, lb⟩, ⟨ho, hb⟩, ⟨eo, eb⟩⟩ := f
  cases lo <;> cases ho <;> cases eo <;> cases o <;> simp_all [FuseOpcode.byte]

theorem readsOnly_fuse (p : Params) (x : FuseSel) (h : x = p.fuseRd.low ∨ x = p.fuseRd.high ∨
    x = p.fuseRd.ext) : readsOnly p x.opcode.byte x.hi 0 0 = true := by
  rcases h with rfl | rfl | rfl <;> simp [readsOnly]

theorem isPoll_fuse (x : FuseSel) : isPoll x.opcode.byte x.hi 0 0 = false := by
  obtain ⟨o, b⟩ := x; cases o <;> simp [isPoll, FuseOpcode.byte]

/-- The signature and calibration reads of the table, and what the target answers to them (log 14). -/
theorem readsOnly_sig (p : Params) (x : BitVec 2) : readsOnly p 0x30 0 (x.setWidth 8) 0 = true := by
  have := sub_address_reserved_two x
  simp_all [readsOnly]

theorem readsOnly_cal (p : Params) (x : BitVec 1) : readsOnly p 0x38 0 (x.setWidth 8) 0 = true := by
  have := sub_address_reserved_one x
  simp_all [readsOnly]

theorem answer_sig (t : Target) (p : Params) (x : BitVec 2) : t.answer p 0x30 0 (x.setWidth 8) 0 = t.sig.read x.toNat := by
  have := sub_address_reserved_two x
  simp_all [Target.answer, setWidth_extract_two]

theorem answer_cal (t : Target) (p : Params) (x : BitVec 1) : t.answer p 0x38 0 (x.setWidth 8) 0 = t.cal.read x.toNat := by
  have := sub_address_reserved_one x
  simp_all [Target.answer, setWidth_extract_one]

/-- A chip erase (20_memory.md R76; log 21). -/
theorem serve_chipErase (t : Target) (p : Params) :
    t.serve p 0xAC 0x80 0 0 =
      .reference { t with pmem := [], emem := [], plat := [], elat := [], sig := [], cal := [], fuse := [], lock := [],
                          busy := some .erase } := by
  rw [Target.serve, not_readsOnly p _ _ _ _ (by simp)]; simp

/-- The wait that covers the write in progress ends it, the target's fields given one by one. -/
theorem wait_ends (p : Params) (k : WaitKind) (hk : k ≠ .reset) (ht : p.ticks k ≠ 0) (t : Target)
    (h1 : t.bus = true) (h2 : t.enabled = true) (h3 : t.busy = some k) (h4 : t.got = []) :
    (Env.reference t).wait p k = .reference { t with busy := none } :=
  (wait_ready p k hk ht ⟨h1, h2, h3, h4⟩).1

/-- A writing frame and the wait that covers it leave the target ready, its memories as the frame left them. -/
theorem frame_then_wait {s : State} {t u : Target} (hs : s.env = .reference t) (h : t.Ready) (b0 b1 b2 b3 : Byte)
    (k : WaitKind) (hk : k ≠ .reset) (hT : s.par.ticks k ≠ 0)
    (hu : t.settled.serve s.par b0 b1 b2 b3 = .reference u) (hw : u.bus = true ∧ u.enabled = true ∧ u.busy = some k ∧
     u.got = []) :
    ∃ w, (waitFor k (frame b0 b1 b2 b3 s)).env = .reference w ∧ w.Ready ∧ ∀ sp, w.space sp = u.space sp := by
  obtain ⟨w1, w2⟩ := wait_ready s.par k hk hT hw
  refine ⟨_, ?_, w2, fun sp => by cases sp <;> rfl⟩
  rw [waitFor_env, frame_env_ready hs h, hu, frame_par, w1]

end Sys2Proof.Machine
end

