-- ==== Sys2Proof/Laws/ReadyPages.lean ====
section
/-! SUPPORT. A ready target under the page buffer manager: what one load, one page and one unit read do to it. -/

namespace Sys2Proof.Machine

/-- The page address a commit frame carries is the page of its operand. -/
theorem pageOf_sent_prog (h l : Byte) (a : Half) (e : h = hiByte (pageOf .prog a))
    (e' : l = loByte (pageOf .prog a)) : pageOf .prog (ofBytes h l) = a &&& 0x3F0 := by
  subst e e'
  have : ofBytes (hiByte (pageOf .prog a)) (loByte (pageOf .prog a)) = pageOf .prog a := by simp
  rw [this]; show a &&& 0x3F0 &&& 0x3F0 = _; rw [BitVec.and_assoc, BitVec.and_self]

theorem pageOf_sent_eep (a : Half) : pageOf .eep (ofBytes 0 (loByte (pageOf .eep a))) = a &&& 0x7C := by
  rw [show pageOf .eep a = a &&& 0x7C from rfl, ofBytes_zero_lo a 0x7C (by decide)]
  show a &&& 0x7C &&& 0x7C = _; rw [BitVec.and_assoc, BitVec.and_self]

/-- A slot with both bytes loaded. -/
theorem latched_some (plat : Memory) (o : Nat) (lo hi : Byte) (h1 : plat.read (2 * o) = some lo)
    (h2 : plat.read (2 * o + 1) = some hi) (b : Nat) :
    latched plat o b = some (if b = 0 then lo else hi) := by rw [latched, h1, h2]

/-- A slot with a byte not loaded. -/
theorem latched_none (plat : Memory) (o : Nat) (h : plat.read (2 * o) = none ∨ plat.read (2 * o + 1) = none) (b : Nat) :
    latched plat o b = none := by
  rw [latched]; rcases h with h | h <;> (rw [h]; try cases plat.read (2 * o)) <;> rfl

/-- A memory of the region holds this unit at this unit address. -/
def holdsUnit (m : Memory) (r : Region) (a : Nat) (v : Half) : Prop :=
  match r with
  | .prog => m.read (2 * a) = some (loByte v) ∧ m.read (2 * a + 1) = some (hiByte v)
  | .eep => m.read a = some (loByte v)

/-- A frame on the bus side of a ready target. -/
theorem act_frame_ready {b : Bus} {t : Target} (p : Params) (hb : b.env = .reference t) (h : t.Ready) (b0 b1 b2 b3 : Byte) :
    (b.act p (.frame b0 b1 b2 b3)).env = t.settled.serve p b0 b1 b2 b3 := by
  show (b.env.exchangeFrame p b.draws b0 b1 b2 b3).2 = _
  rw [hb]; exact (exchangeFrame_ready h _ _ _ _ _ _).1

/-- One load stages its unit at its slot and nothing else (20_memory.md R72). -/
theorem loadCmds_ready (r : Region) (p : Params) (b : Bus) (t : Target) (hb : b.env = .reference t) (h : t.Ready) (hw : t.WF)
    (a v : Half) :
    ∃ u, (b.play p (loadCmds r a v)).env = .reference u ∧ u.Ready ∧ u.WF ∧ (∀ sp, sp ≠ latchOf r → u.space sp = t.space sp) ∧
     holdsUnit (u.space (latchOf r)) r (a &&& r.offs).toNat v ∧ ∀ o v', o ≠ (a &&& r.offs).toNat →
       holdsUnit (t.space (latchOf r)) r o v' → holdsUnit (u.space (latchOf r)) r o v' := by
  cases r
  · have o : offsetOf .prog (ofBytes 0 (loByte (a &&& 0xF))) = a &&& 0xF := by
      rw [ofBytes_zero_lo a 0xF (by decide)]
      show a &&& 0xF &&& 0xF = _; rw [BitVec.and_assoc, BitVec.and_self]
    have e1 := act_frame_ready p hb h 0x40 0 (loByte (a &&& 0xF)) (loByte v)
    rw [serve_loadProgLo, o] at e1
    have e2 := act_frame_ready p e1 (by exact h) 0x48 0 (loByte (a &&& 0xF)) (hiByte v)
    rw [serve_loadProgHi, o] at e2
    refine ⟨_, e2, h, ?_, ?_, ?_, ?_⟩
    · have := offsetOf_prog_lt a
      have he : offsetOf .prog a = a &&& 0xF := rfl
      rw [he] at this
      refine ⟨hw.1, hw.2, ?_, hw.4, hw.5, hw.6, hw.7, hw.8, hw.9⟩
      exact Memory.fits_write _ (Memory.fits_write _ hw.3 (by omega)) (by omega)
    · intro sp hsp; cases sp <;> first | exact absurd rfl hsp | rfl
    · show Memory.read _ _ = _ ∧ Memory.read _ _ = _
      simp [latchOf, Target.space, Target.settled, Memory.read_write, Region.offs]
    · intro o' v' ho hh
      have hh : t.plat.read (2 * o') = _ ∧ t.plat.read (2 * o' + 1) = _ := hh
      have ho : o' ≠ (a &&& 0xF).toNat := ho
      show Memory.read _ _ = _ ∧ Memory.read _ _ = _
      simp only [latchOf, Target.space, Target.settled, Memory.read_write]
      rw [if_neg (by omega), if_neg (by omega), if_neg (by omega), if_neg (by omega)]
      exact hh
  · have o : offsetOf .eep (ofBytes 0 (loByte (a &&& 3))) = a &&& 3 := by
      rw [ofBytes_zero_lo a 3 (by decide)]
      show a &&& 3 &&& 3 = _; rw [BitVec.and_assoc, BitVec.and_self]
    have e1 := act_frame_ready p hb h 0xC1 0 (loByte (a &&& 3)) (loByte v)
    rw [serve_loadEep, o] at e1
    refine ⟨_, e1, h, ?_, ?_, ?_, ?_⟩
    · have := offsetOf_eep_lt a
      have he : offsetOf .eep a = a &&& 3 := rfl
      rw [he] at this
      refine ⟨hw.1, hw.2, hw.3, ?_, hw.5, hw.6, hw.7, hw.8, hw.9⟩
      exact Memory.fits_write _ hw.4 (by omega)
    · intro sp hsp; cases sp <;> first | exact absurd rfl hsp | rfl
    · show Memory.read _ _ = _
      simp [latchOf, Target.space, Target.settled, Memory.read_write, Region.offs]
    · intro o' v' ho hh
      have hh : t.elat.read o' = _ := hh
      have ho : o' ≠ (a &&& 3).toNat := ho
      show Memory.read _ _ = _
      simp only [latchOf, Target.space, Target.settled, Memory.read_write]
      rw [if_neg (by omega)]
      exact hh

/-! ## Masked addresses as numbers (20_memory.md R54, R55) -/

theorem offs_toNat (r : Region) (a : Half) : (a &&& r.offs).toNat = a.toNat % r.upp := by
  rw [BitVec.toNat_and]
  cases r
  · exact Nat.and_two_pow_sub_one_eq_mod _ 4
  · exact Nat.and_two_pow_sub_one_eq_mod _ 2

theorem full_toNat (r : Region) (a : Half) : (a &&& r.full).toNat = a.toNat % (r.full.toNat + 1) := by
  rw [BitVec.toNat_and]
  cases r
  · exact Nat.and_two_pow_sub_one_eq_mod _ 10
  · exact Nat.and_two_pow_sub_one_eq_mod _ 7

theorem page_toNat (r : Region) (a : Half) : (a &&& r.page).toNat = (a.toNat % (r.full.toNat + 1)) / r.upp * r.upp := by
  have hp : r.page = (r.full >>> (match r with | .prog => 4 | .eep => 2)) <<< (match r with | .prog => 4 | .eep => 2) :=
    by cases r <;> decide
  have : a &&& r.page = ((a &&& r.full) >>> (match r with | .prog => 4 | .eep => 2)) <<< (match r with | .prog => 4 | .eep => 2) := by
    rw [hp]; cases r
    · ext i hi; by_cases h : i < 4
      · simp [h]
      · simp [h, show 4 + (i - 4) = i by omega, BitVec.getLsbD_eq_getElem, hi]
    · ext i hi; by_cases h : i < 2
      · simp [h]
      · simp [h, show 2 + (i - 2) = i by omega, BitVec.getLsbD_eq_getElem, hi]
  rw [this, BitVec.toNat_shiftLeft, BitVec.toNat_ushiftRight, full_toNat]
  cases r <;> simp [Nat.shiftRight_eq_div_pow, Nat.shiftLeft_eq, Region.full, Region.upp] <;> omega

/-- The loads of one page. -/
theorem loads_ready (r : Region) (p : Params) (pa : Half) (v : Nat → Half) (n : Nat) (hn : n ≤ r.upp) (b : Bus) (t : Target)
    (hb : b.env = .reference t) (h : t.Ready) (hw : t.WF) :
    ∃ u, (b.play p ((List.range n).flatMap fun i => loadCmds r (pa + BitVec.ofNat 16 i) (v i))).env = .reference u ∧ u.Ready ∧
     u.WF ∧ (∀ sp, sp ≠ latchOf r → u.space sp = t.space sp) ∧
     (pa.toNat % r.upp = 0 → ∀ i < n, holdsUnit (u.space (latchOf r)) r i (v i)) := by
  induction n with
  | zero => exact ⟨t, hb, h, hw, fun _ _ => rfl, fun _ i hi => absurd hi (by omega)⟩
  | succ n ih =>
    obtain ⟨u, h1, h2, h3, h4, h5⟩ := ih (by omega)
    obtain ⟨w, g1, g2, g3, g4, g5, g6⟩ := loadCmds_ready r p _ u h1 h2 h3 (pa + BitVec.ofNat 16 n) (v n)
    refine ⟨w, ?_, g2, g3, fun sp hsp => (g4 sp hsp).trans (h4 sp hsp), fun ha i hi => ?_⟩
    · rw [List.range_succ, List.flatMap_append, Bus.play_append]; simpa using g1
    · have ho : (pa + BitVec.ofNat 16 n &&& r.offs).toNat = n := by
        rw [offs_toNat, BitVec.toNat_add, BitVec.toNat_ofNat]
        have := pa.isLt
        cases r <;> simp [Region.upp] at * <;> omega
      rw [ho] at g5 g6
      by_cases hin : i = n
      · subst hin; exact g5
      · exact g6 i (v i) hin (h5 ha i (by omega))

/-- One page of a write: nothing outside the page changes, and from an aligned address every unit is stored (20_memory.md R73,
  R74). -/
theorem pageCmds_ready (r : Region) (p : Params) (hT : p.ticks r.wr ≠ 0) (pa : Half) (v : Nat → Half) (n : Nat)
    (hn : n ≤ r.upp) (b : Bus) (t : Target) (hb : b.env = .reference t) (h : t.Ready) (hw : t.WF) :
    ∃ u, (b.play p (pageCmds r pa v n)).env = .reference u ∧ u.Ready ∧ u.WF ∧
     (∀ sp x, sp ≠ latchOf r → (sp = spaceOf r → x < r.unitBytes * (pa &&& r.page).toNat ∨
       r.unitBytes * ((pa &&& r.page).toNat + r.upp) ≤ x) → (u.space sp).read x = (t.space sp).read x) ∧
     (pa.toNat % r.upp = 0 → ∀ i < n, holdsUnit (u.space (spaceOf r)) r ((pa &&& r.page).toNat + i) (v i)) := by
  obtain ⟨u, h1, h2, h3, h4, h5⟩ := loads_ready r p pa v n hn b t hb h hw
  rw [pageCmds, Bus.play_append]
  generalize Bus.play p _ b = c at h1 ⊢
  cases r
  · have e := act_frame_ready p h1 h2 0x4C (hiByte (pageOf .prog pa)) (loByte (pageOf .prog pa)) 0
    rw [serve_commitProg, pageOf_sent_prog _ _ pa rfl rfl] at e
    have hpg : (pa &&& 0x3F0).toNat ≤ 1008 := pageOf_prog_le pa
    have e2 : (c.play p [commitCmd .prog pa, .wait .wrProg]).env = _ := congrArg (Env.wait p .wrProg) e
    rw [wait_ends p .wrProg (by decide) hT] at e2 <;> [skip; exact h2.1; exact h2.2.1; rfl; exact h2.2.2.2]
    have rd (x : Nat) := read_commitWords u.plat (pa &&& 0x3F0).toNat 16 x h3.pmem (by omega)
    refine ⟨_, e2, ⟨h2.1, h2.2.1, rfl, h2.2.2.2⟩, ⟨fits_commitWords _ _ h3.1 (by omega), h3.2, Memory.fits_nil _, h3.4, h3.5,
      h3.6, h3.7, h3.8, h3.9⟩, ?_, ?_⟩
    · intro sp x hsp hx
      rw [← h4 sp hsp]
      cases sp <;> first | exact absurd rfl hsp | rfl | skip
      have := hx rfl
      simp only [Region.unitBytes, Region.upp, Region.page] at this
      simp only [Target.space]
      exact (rd x).trans (if_neg (by omega))
    · intro ha i hi
      obtain ⟨k1, k2⟩ := h5 ha i hi
      have hl := latched_some u.plat i _ _ k1 k2
      simp only [Region.upp] at hn
      show Memory.read _ _ = _ ∧ Memory.read _ _ = _
      simp only [spaceOf, Target.space, Region.page]
      refine ⟨(rd _).trans ?_, (rd _).trans ?_⟩
      · rw [if_pos (by omega), show (2 * ((pa &&& 0x3F0).toNat + i)) / 2 - (pa &&& 0x3F0).toNat = i by omega, hl,
        if_pos (by omega)]
      · rw [if_pos (by omega), show (2 * ((pa &&& 0x3F0).toNat + i) + 1) / 2 - (pa &&& 0x3F0).toNat = i by omega, hl,
        if_neg (by omega)]
  · have e := act_frame_ready p h1 h2 0xC2 0 (loByte (pageOf .eep pa)) 0
    rw [serve_commitEep, pageOf_sent_eep] at e
    have hpg : (pa &&& 0x7C).toNat ≤ 124 := pageOf_eep_le pa
    have e2 : (c.play p [commitCmd .eep pa, .wait .wrEep]).env = _ := congrArg (Env.wait p .wrEep) e
    rw [wait_ends p .wrEep (by decide) hT] at e2 <;> [skip; exact h2.1; exact h2.2.1; rfl; exact h2.2.2.2]
    have rd (x : Nat) := read_commitBytes u.elat (pa &&& 0x7C).toNat 4 x h3.emem (by omega)
    refine ⟨_, e2, ⟨h2.1, h2.2.1, rfl, h2.2.2.2⟩, ⟨h3.1, fits_commitBytes _ _ h3.2 (by omega), h3.3, Memory.fits_nil _, h3.5,
      h3.6, h3.7, h3.8, h3.9⟩, ?_, ?_⟩
    · intro sp x hsp hx
      rw [← h4 sp hsp]
      cases sp <;> first | exact absurd rfl hsp | rfl | skip
      have := hx rfl
      simp only [Region.unitBytes, Region.upp, Region.page] at this
      simp only [Target.space]
      exact (rd x).trans (if_neg (by omega))
    · intro ha i hi
      have k1 : u.elat.read i = some _ := h5 ha i hi
      simp only [Region.upp] at hn
      show Memory.read _ _ = _
      simp only [spaceOf, Target.space, Region.page]
      refine (rd _).trans ?_
      rw [if_pos (by omega), show (pa &&& 0x7C).toNat + i - (pa &&& 0x7C).toNat = i by omega]; exact k1

/-- A ready target's last answer where its rules fix it. -/
theorem lastByte_known {t : Target} (h : t.Ready) (p : Params) (free b0 b1 b2 b3 v: Byte) (hp : isPoll b0 b1 b2 b3 = false)
    (ha : t.answer p b0 b1 b2 b3 = some v) : t.lastByte p free b0 b1 b2 b3 = v := by
  rw [lastByte_ready h _ _ _ _ _ _ hp, ha]; rfl

/-- One unit read of a known unit gives it and leaves the target as it was (20_memory.md R75). -/
theorem readCmds_ready (r : Region) (p : Params) (b : Bus) (t : Target) (hb : b.env = .reference t) (h : t.Ready) (a v : Half)
    (hh : holdsUnit (t.space (spaceOf r)) r (a &&& r.full).toNat v) (rs : List Resp) :
    unitsRead r (b.responses p (readCmds r a) ++ rs) = unitOf r v :: unitsRead r rs ∧
    ∃ u, (b.play p (readCmds r a)).env = .reference u ∧ u.Ready ∧ ∀ sp, u.space sp = t.space sp := by
  cases r
  · obtain ⟨k1, k2⟩ := hh
    have e1 := act_frame_ready p hb h 0x20 (hiByte (a &&& 0x3FF)) (loByte (a &&& 0x3FF)) 0
    rw [serve_readsOnly _ _ _ _ _ (by simp [readsOnly])] at e1
    have h' : t.settled.Ready := h
    have e2 := act_frame_ready p e1 h' 0x28 (hiByte (a &&& 0x3FF)) (loByte (a &&& 0x3FF)) 0
    rw [serve_readsOnly _ _ _ _ _ (by simp [readsOnly])] at e2
    refine ⟨?_, _, e2, h, fun sp => by simp⟩
    have r1 := (exchangeFrame_ready h p b.draws 0x20 (hiByte (a &&& 0x3FF)) (loByte (a &&& 0x3FF)) 0).2
    have r2 := (exchangeFrame_ready h' p (b.draws + 4) 0x28 (hiByte (a &&& 0x3FF)) (loByte (a &&& 0x3FF)) 0).2
    rw [lastByte_known h p _ _ _ _ _ (loByte v) (by simp [isPoll]) (by
      simp [Target.answer, wholeAddr, Region.full, BitVec.and_assoc]; exact k1)] at r1
    rw [lastByte_known h' p _ _ _ _ _ (hiByte v) (by simp [isPoll]) (by
      simp [Target.answer, wholeAddr, Region.full, BitVec.and_assoc]; exact k2)] at r2
    simp only [readCmds, Bus.responses, List.cons_append, List.nil_append, unitsRead, unitOf, List.cons.injEq, and_true]
    rw [e1, hb, r1]
    show ofBytes ((Env.reference t.settled).exchangeFrame p (b.draws + 4) _ _ _ _).1.b3 _ = _
    rw [r2]; simp
  · have k1 : t.emem.read (a &&& 0x7F).toNat = _ := hh
    have e1 := act_frame_ready p hb h 0xA0 0 (loByte (a &&& 0x7F)) 0
    rw [serve_readsOnly _ _ _ _ _ (by simp [readsOnly])] at e1
    refine ⟨?_, _, e1, h, fun sp => by simp⟩
    have r1 := (exchangeFrame_ready h p b.draws 0xA0 0 (loByte (a &&& 0x7F)) 0).2
    have := ofBytes_zero_lo a 0x7F (by decide)
    simp only [BitVec.ofNat_eq_ofNat] at this
    rw [lastByte_known h p _ _ _ _ _ (loByte v) (by simp [isPoll]) (by
      simp [Target.answer, wholeAddr, Region.full, this]; exact k1)] at r1
    simp only [readCmds, Bus.responses, List.cons_append, List.nil_append, unitsRead, unitOf, List.cons.injEq, and_true]
    rw [hb, r1]

end Sys2Proof.Machine
end

