-- ==== Sys2Proof/Laws/Step.lean ====
section
/-! SUPPORT. What holds after every instruction: the levels follow the mode, the environment stays well formed, the page buffer record
stays empty, the timer has run out. -/

namespace Sys2Proof.Machine

/-! ## Commands that drive no level -/

/-- A command that drives no level. -/
def Cmd.quiet : Cmd → Bool
  | .frame _ _ _ _ | .wait _ => true
  | .enable | .disable | .line _ => false

theorem play_quiet (p : Params) (cs : List Cmd) (b : Bus) (h : ∀ c ∈ cs, c.quiet = true) :
    (b.play p cs).busEn = b.busEn ∧ (b.play p cs).rst = b.rst := by
  apply play_levels
  intro c hc
  have := h c hc
  cases c <;> simp_all [Cmd.quiet]

theorem loadCmds_quiet (r : Region) (a v : Half) : ∀ c ∈ loadCmds r a v, c.quiet = true := by
  cases r <;> simp [loadCmds, Cmd.quiet]

theorem pageCmds_quiet (r : Region) (pa : Half) (v : Nat → Half) (n : Nat) : ∀ c ∈ pageCmds r pa v n, c.quiet = true := by
  intro c hc
  rw [pageCmds, List.mem_append, List.mem_flatMap] at hc
  rcases hc with ⟨i, _, hi⟩ | hc
  · exact loadCmds_quiet r _ _ c hi
  · cases r <;> simp [commitCmd] at hc <;> rcases hc with rfl | rfl <;> rfl

theorem writeCmds_quiet (r : Region) (a : Half) (v : Nat → Half) (n : Nat) : ∀ c ∈ writeCmds r a v n, c.quiet = true := by
  intro c hc
  obtain ⟨j, _, hj⟩ := List.mem_flatMap.mp hc
  exact pageCmds_quiet r _ _ _ c hj

theorem readAllCmds_quiet (r : Region) (a : Half) (n : Nat) : ∀ c ∈ readAllCmds r a n, c.quiet = true := by
  intro c hc
  obtain ⟨q, _, hq⟩ := List.mem_flatMap.mp hc
  cases r <;> simp [readCmds] at hq
  · rcases hq with rfl | rfl <;> rfl
  · subst hq; rfl

/-- No command of a guarded operation drives a level (10_state.md R23, R24). -/
theorem opCmds_quiet (i : Instr) (s : State) (h : i.guarded = true) : ∀ c ∈ opCmds i s, c.quiet = true := by
  cases i
  case wrprog => exact writeCmds_quiet _ _ _ _
  case wreep => exact writeCmds_quiet _ _ _ _
  case rdprog => exact readAllCmds_quiet _ _ _
  case rdeep => exact readAllCmds_quiet _ _ _
  all_goals first | exact Bool.noConfusion h | simp [opCmds, Cmd.quiet]

/-! ## The timer -/

/-- Without a wait the timer stands as it was. -/
theorem play_no_wait (p : Params) (cs : List Cmd) (b : Bus) (h : ∀ c ∈ cs, ∀ k, c ≠ .wait k) :
    (b.play p cs).tmr = b.tmr := by
  induction cs generalizing b with
  | nil => rfl
  | cons c cs ih =>
    rw [Bus.play_cons, ih _ fun d hd => h d (List.mem_cons_of_mem _ hd)]
    have := h c (List.mem_cons_self ..)
    cases c <;> simp_all [Bus.act, Bus.frame]

theorem readAllCmds_no_wait (r : Region) (a : Half) (n : Nat) : ∀ c ∈ readAllCmds r a n, ∀ k, c ≠ .wait k := by
  intro c hc k
  obtain ⟨q, _, hq⟩ := List.mem_flatMap.mp hc
  cases r <;> simp [readCmds] at hq
  · rcases hq with rfl | rfl <;> simp
  · subst hq; simp

/-! ## The levels after ENTER -/

theorem pulse_levels (p : Params) (qs : List PulseStep) (b : Bus) :
    (b.play p (qs.flatMap pulseCmds)).busEn = b.busEn ∧
      (b.play p (qs.flatMap pulseCmds)).rst = (qs.getLast?.map (·.level)).getD b.rst := by
  induction qs generalizing b with
  | nil => exact ⟨rfl, rfl⟩
  | cons q qs ih =>
    rw [List.flatMap_cons, Bus.play_append]
    obtain ⟨h1, h2⟩ := ih (b.play p (pulseCmds q))
    rw [h1, h2, List.getLast?_cons]
    unfold pulseCmds
    split <;> cases qs.getLast? <;> exact ⟨rfl, rfl⟩

/-- RESET_SEQ ends low, so ENTER leaves the line low and the transport enabled (41_mode.md R171). -/
theorem enter_levels (p : Params) (b : Bus) :
    (b.play p (enterCmds p)).busEn = true ∧ (b.play p (enterCmds p)).rst = false := by
  rw [enterCmds, Bus.play_append, Bus.play_cons]
  obtain ⟨h1, h2⟩ := pulse_levels p p.resetSeq.steps (b.act p .enable)
  exact ⟨h1, h2.trans (by simp [ResetSeq.steps])⟩

/-! ## The environment stays well formed -/

theorem play_wf (p : Params) (cs : List Cmd) (b : Bus) (h : b.env.wf = true) : (b.play p cs).env.wf = true := by
  induction cs generalizing b with
  | nil => exact h
  | cons c cs ih =>
    refine ih _ ?_
    cases c with
    | frame b0 b1 b2 b3 => exact Env.wf_exchangeFrame p _ _ _ _ _ h
    | wait k => exact Env.wf_wait p k h
    | enable => exact Env.wf_busEnable h
    | disable => exact Env.wf_busDisable h
    | line l => exact Env.wf_resetLine l h

/-! ## What every instruction keeps -/

/-- The invariant without `busy`, which is 1 inside an operation. -/
structure Settled (s : State) : Prop where
  outputs : s.outputsMatchMode
  ppbEmpty : s.ppbEmpty
  timer : s.tmr = 0
  memory : s.env.wf = true

theorem ppbEmpty_replicate {s : State} (h : s.ppbValid = Vector.replicate 16 false) : s.ppbEmpty := by
  intro o; rw [h]; exact Vector.getElem_replicate _

theorem ppbEmpty_of_eq {s t : State} (h : t.ppbValid = s.ppbValid) (hs : s.ppbEmpty) : t.ppbEmpty := by
  intro o; rw [h]; exact hs o

/-- The bus side of a settled state after any play. -/
theorem Settled.of_play {s t : State} (h : Settled s) (cs : List Cmd) (hb : t.bus = s.bus.play s.par cs)
    (hp : t.ppbEmpty) (ho : t.outputsMatchMode) : Settled t where
  outputs := ho
  ppbEmpty := hp
  timer := (congrArg Bus.tmr hb).trans (play_tmr _ _ _ h.timer)
  memory := by
    have := congrArg Bus.env hb
    exact (congrArg Env.wf this).trans (play_wf _ _ _ h.memory)

theorem exec_settled (i : Instr) {s t : State} (h : Settled s) (ht : exec i s = .next t) : Settled t := by
  by_cases hf : i.isFrame = true
  · obtain ⟨b0, b1, b2, b3, -, hx⟩ := exec_frame i s hf
    cases hx.symm.trans ht
    exact h.of_play [.frame b0 b1 b2 b3] (bus_frame s b0 b1 b2 b3) h.ppbEmpty h.outputs
  by_cases hg : i.guarded = true
  · cases hm : s.mode with
    | idle =>
      cases (exec_rejected i s hg hm).symm.trans ht
      exact ⟨h.outputs, h.ppbEmpty, h.timer, h.memory⟩
    | programming =>
      obtain ⟨u, hu, hr⟩ := exec_ran i s hg hm
      cases hu.symm.trans ht
      refine h.of_play _ hr.bus ?_ ?_
      · rcases hr.ppb with hp | hp
        · exact ppbEmpty_of_eq hp h.ppbEmpty
        · exact ppbEmpty_replicate hp
      · obtain ⟨l1, l2⟩ := play_quiet s.par _ s.bus (opCmds_quiet i s hg)
        have o := h.outputs
        simp only [State.outputsMatchMode, hr.mode, hm] at o ⊢
        exact ⟨((congrArg Bus.busEn hr.bus).trans l1).trans o.1, ((congrArg Bus.rst hr.bus).trans l2).trans o.2⟩
  have : i = .enter ∨ i = .exit := by cases i <;> simp_all [Instr.isFrame, Instr.guarded]
  rcases this with rfl | rfl
  · obtain ⟨u, hu, -, -, hp, ⟨-, hb, hm, -⟩ | ⟨-, hb, hm, -⟩⟩ := exec_enter s
    · cases hu.symm.trans ht
      refine h.of_play _ hb (ppbEmpty_of_eq hp h.ppbEmpty) ?_
      obtain ⟨l1, l2⟩ := enter_levels s.par s.bus
      simp only [State.outputsMatchMode, hm]
      exact ⟨(congrArg Bus.busEn hb).trans l1, (congrArg Bus.rst hb).trans l2⟩
    · cases hu.symm.trans ht
      refine h.of_play _ hb (ppbEmpty_of_eq hp h.ppbEmpty) ?_
      simp only [State.outputsMatchMode, hm]
      rw [Bus.play_append] at hb
      exact ⟨congrArg Bus.busEn hb, congrArg Bus.rst hb⟩
  · obtain ⟨u, hu, -, -, hp, hb, hm, -⟩ := exec_exit s
    cases hu.symm.trans ht
    refine h.of_play _ hb (ppbEmpty_of_eq hp h.ppbEmpty) ?_
    simp only [State.outputsMatchMode, hm]
    exact ⟨congrArg Bus.busEn hb, congrArg Bus.rst hb⟩

/-! ## What a step runs always answers a next state -/

theorem runRequest_next (r : Request) (s : State) : ∃ t, runRequest r s = .next t := by
  unfold runRequest runOperation
  split
  · obtain ⟨t, _, h, _⟩ := exec_cases _ _
    exact ⟨t, h⟩
  · exact ⟨_, rfl⟩

theorem runFrame_next (b0 b1 b2 b3 : Byte) (s : State) : ∃ t, runFrame b0 b1 b2 b3 s = .next t := by
  unfold runFrame
  split
  · obtain ⟨t, _, h, _⟩ := exec_cases _ _
    exact ⟨t, h⟩
  · exact ⟨_, rfl⟩

theorem runAbandoned_next (r : Request) (n : Nat) (s : State) :
    ∃ t, runRequest r s = .next t ∧
      runAbandoned r n s = .next (hardReset (playEvents ((eventsSince s t).take n) (accept r s))) := by
  obtain ⟨t, h⟩ := runRequest_next r s
  exact ⟨t, h, by rw [runAbandoned, h]⟩

/-! ## Playing events back -/

theorem kept_playEvent (s : State) (e : Event) : Kept s (playEvent s e) := by
  cases e <;> constructor <;> rfl

theorem kept_playEvents (es : List Event) (s : State) : Kept s (playEvents es s) := by
  induction es generalizing s with
  | nil => exact Kept.refl s
  | cons e es ih => exact (kept_playEvent s e).trans (ih _)

theorem playEvent_wf (s : State) (e : Event) (h : s.env.wf = true) : (playEvent s e).env.wf = true := by
  cases e with
  | busEnable => exact Env.wf_busEnable h
  | busDisable => exact Env.wf_busDisable h
  | reset l => exact Env.wf_resetLine l h
  | xb tx rx => exact Env.wf_exchange _ _ _ h
  | wait k => exact Env.wf_wait _ _ h

theorem playEvents_wf (es : List Event) (s : State) (h : s.env.wf = true) : (playEvents es s).env.wf = true := by
  induction es generalizing s with
  | nil => exact h
  | cons e es ih => exact ih _ (playEvent_wf s e h)

/-- Every event played adds itself to the trace, its answer drawn afresh. -/
theorem playEvents_trace (es : List Event) (s : State) :
    ∃ fs, (playEvents es s).trace = s.trace ++ fs ∧ fs.map Event.command = es.map Event.command := by
  induction es generalizing s with
  | nil => exact ⟨[], by simp [playEvents]⟩
  | cons e es ih =>
    obtain ⟨fs, h, hc⟩ := ih (playEvent s e)
    have : ∃ f, (playEvent s e).trace = s.trace ++ [f] ∧ f.command = e.command := by
      cases e <;> exact ⟨_, rfl, rfl⟩
    obtain ⟨f, g, gc⟩ := this
    refine ⟨f :: fs, ?_, by simp [hc, gc]⟩
    show (playEvents es (playEvent s e)).trace = _
    rw [h, g]; simp

end Sys2Proof.Machine
end

