-- ==== Sys2Proof/Laws/Replay.lean ====
section
/-! SUPPORT. Replaying the events of an operation, or the first few of them, on the state it started from gives the same answers: the
environment and the draws alone decide them. -/

namespace Sys2Proof.Machine

/-- The answer an event records is the one the environment gives. -/
def answered (p : Params) (x : Env × Nat) : Event → Prop
  | .xb tx rx => rx = (x.1.exchange p (Config.freeRx x.2) tx).1
  | .busEnable | .busDisable | .reset _ | .wait _ => True

/-- Every answer of a list of events is the one the environment gives when it is exchanged. -/
def Live (p : Params) : List Event → Env × Nat → Prop
  | [], _ => True
  | e :: es, x => answered p x e ∧ Live p es (afterEvent p x e)

theorem live_append (p : Params) (es fs : List Event) (x : Env × Nat) :
    Live p (es ++ fs) x ↔ Live p es x ∧ Live p fs (afterEvents p es x) := by
  induction es generalizing x with
  | nil => simp [Live, afterEvents]
  | cons e es ih => simp [Live, afterEvents, ih, and_assoc]

theorem live_take (p : Params) (n : Nat) (es : List Event) (x : Env × Nat) (h : Live p es x) : Live p (es.take n) x := by
  rw [← List.take_append_drop n es, live_append] at h
  exact h.1

/-- Playing live events emits exactly them. -/
theorem playEvents_live (es : List Event) (s : State) (h : Live s.par es (s.env, s.draws)) :
    (playEvents es s).trace = s.trace ++ es ∧
      ((playEvents es s).env, (playEvents es s).draws) = afterEvents s.par es (s.env, s.draws) := by
  induction es generalizing s with
  | nil => exact ⟨(List.append_nil _).symm, rfl⟩
  | cons e es ih =>
    obtain ⟨he, hes⟩ := h
    have hp : (playEvent s e).par = s.par := (kept_playEvent s e).par
    have hx : ((playEvent s e).env, (playEvent s e).draws) = afterEvent s.par (s.env, s.draws) e := by cases e <;> rfl
    obtain ⟨g1, g2⟩ := ih (playEvent s e) (by rw [hp, hx]; exact hes)
    have ht : (playEvent s e).trace = s.trace ++ [e] := by
      cases e <;> first | rfl | (rw [he]; rfl)
    refine ⟨?_, ?_⟩
    · show (playEvents es (playEvent s e)).trace = _
      rw [g1, ht]; simp
    · show ((playEvents es (playEvent s e)).env, (playEvents es (playEvent s e)).draws) = _
      rw [g2, hp, hx]; rfl

/-- The events of a play are live where it starts, and lead to where it ends. -/
theorem play_live (p : Params) (cs : List Cmd) (b : Bus) :
    ∃ es, (b.play p cs).trace = b.trace ++ es ∧ Live p es (b.env, b.draws) ∧
      afterEvents p es (b.env, b.draws) = ((b.play p cs).env, (b.play p cs).draws) := by
  induction cs generalizing b with
  | nil => exact ⟨[], by simp, trivial, rfl⟩
  | cons c cs ih =>
    obtain ⟨es, h1, h2, h3⟩ := ih (b.act p c)
    have : ∃ ds, (b.act p c).trace = b.trace ++ ds ∧ Live p ds (b.env, b.draws) ∧
        afterEvents p ds (b.env, b.draws) = ((b.act p c).env, (b.act p c).draws) := by
      cases c with
      | frame b0 b1 b2 b3 => exact ⟨_, rfl, ⟨rfl, rfl, rfl, rfl, trivial⟩, rfl⟩
      | wait k => exact ⟨_, rfl, ⟨trivial, trivial⟩, rfl⟩
      | enable => exact ⟨_, rfl, ⟨trivial, trivial⟩, rfl⟩
      | disable => exact ⟨_, rfl, ⟨trivial, trivial⟩, rfl⟩
      | line l => exact ⟨_, rfl, ⟨trivial, trivial⟩, rfl⟩
    obtain ⟨ds, g1, g2, g3⟩ := this
    refine ⟨ds ++ es, ?_, (live_append p ds es _).mpr ⟨g2, g3 ▸ h2⟩, ?_⟩
    · rw [Bus.play_cons, h1, g1, List.append_assoc]
    · rw [afterEvents, List.foldl_append]
      exact (congrArg (fun x => es.foldl (afterEvent p) x) g3).trans h3

/-- The events of a request are live on the state that has accepted it. -/
theorem runRequest_live (r : Request) (s t : State) (h : runRequest r s = .next t) :
    ∃ es, t.trace = s.trace ++ es ∧ Live s.par es (s.env, s.draws) ∧
      afterEvents s.par es (s.env, s.draws) = (t.env, t.draws) := by
  unfold runRequest runOperation at h
  split at h
  · next i _ =>
    obtain ⟨u, cs, hu, -, hb, -⟩ := exec_cases i (accept r s)
    cases hu.symm.trans h
    obtain ⟨es, h1, h2, h3⟩ := play_live s.par cs (accept r s).bus
    have e1 : t.trace = (Bus.play s.par cs (accept r s).bus).trace := congrArg Bus.trace hb
    have e2 : t.env = (Bus.play s.par cs (accept r s).bus).env := congrArg Bus.env hb
    have e3 : t.draws = (Bus.play s.par cs (accept r s).bus).draws := congrArg Bus.draws hb
    exact ⟨es, e1.trans h1, h2, by rw [e2, e3]; exact h3⟩
  · cases h
    exact ⟨[], (List.append_nil _).symm, trivial, rfl⟩

/-- What the first `n` events of a request leave (70_reset_and_hazards.md R251). -/
theorem playEvents_prefix (r : Request) (n : Nat) (s t : State) (h : runRequest r s = .next t) :
    (playEvents ((eventsSince s t).take n) (accept r s)).trace = s.trace ++ (eventsSince s t).take n ∧
      (playEvents ((eventsSince s t).take n) (accept r s)).env =
        (afterEvents s.par ((eventsSince s t).take n) (s.env, s.draws)).1 ∧
      ((eventsSince s t).length ≤ n → (playEvents ((eventsSince s t).take n) (accept r s)).env = t.env) := by
  obtain ⟨es, h1, h2, h3⟩ := runRequest_live r s t h
  have he : eventsSince s t = es := by simp [eventsSince, h1]
  rw [he]
  obtain ⟨g1, g2⟩ := playEvents_live (es.take n) (accept r s) (live_take _ n es _ h2)
  refine ⟨g1, congrArg Prod.fst g2, fun hn => ?_⟩
  rw [List.take_of_length_le hn] at g2 ⊢
  exact congrArg Prod.fst (g2.trans h3)

end Sys2Proof.Machine
end

