-- ==== Sys2Proof/Tests/Slice0.lean ====
section
/-! SUPPORT. The model's own tests. Every expected value is from the spec: the vectors V1 to V57 and programs P1 to P3 of
95_test_vectors.md, or the examples of the rules; each test names its source. -/

namespace Sys2Proof.Machine.Tests

/-! ## Helpers -/

/-- The next state of an outcome, if it is one. -/
def nextOf : Host.Outcome State Fault Refusal → Option State
  | .next s => some s
  | .fault _ => none
  | .refused _ => none

/-- What `f` says of the state after an instruction. -/
def after {α : Type} (i : Instr) (s : State) (f : State → α) : Option α := (nextOf (exec i s)).map f

/-- Programming state after reset, the transport about to return these bytes. -/
def ready (script : List Byte) : State :=
  { State.reset with mode := .programming, busEn := true, rst := false, env := .unconstrained script }

/-- The frames sent, four bytes each, in the events of a trace; waits and levels are left out. -/
def txBytes : List Event → List Byte
  | [] => []
  | .xb b _ :: es => b :: txBytes es
  | .busEnable :: es | .busDisable :: es | .reset _ :: es | .wait _ :: es => txBytes es

/-- The waits of a trace. -/
def waits : List Event → List WaitKind
  | [] => []
  | .wait k :: es => k :: waits es
  | .busEnable :: es | .busDisable :: es | .reset _ :: es | .xb _ _ :: es => waits es

/-- A reference target in programming mode, with nothing known of its memories but the signature of program P1. -/
def blankTarget : Target where
  pmem := []
  emem := []
  plat := []
  elat := []
  sig := [(0, 0x1E), (1, 0x91), (2, 0x08), (3, 0xFF)]
  cal := []
  fuse := []
  lock := []
  busy := none
  bus := true
  low := true
  fresh := false
  enabled := true
  got := []

/-- Programming state with that target. -/
def wired : State := { ready [] with env := .reference blankTarget }

/-! ## WellFormed: each check refuses an ill-formed term (20_memory.md R54, R55) -/

theorem test_wf_load_prog : (Instr.loadProgLo 0x0010 0).wellFormed = false := by decide
theorem test_wf_load_prog_hi : (Instr.loadProgHi 0x01A7 0).wellFormed = false := by decide
theorem test_wf_commit_prog : (Instr.commitProg 0x0008).wellFormed = false := by decide
theorem test_wf_commit_prog_top : (Instr.commitProg 0x0410).wellFormed = false := by decide
theorem test_wf_read_prog : (Instr.readProgLo 0x0400).wellFormed = false := by decide
theorem test_wf_read_prog_hi : (Instr.readProgHi 0xFFFF).wellFormed = false := by decide
theorem test_wf_load_eep : (Instr.loadEep 0x0004 0).wellFormed = false := by decide
theorem test_wf_commit_eep : (Instr.commitEep 0x0016).wellFormed = false := by decide
theorem test_wf_read_eep : (Instr.readEep 0x0080).wellFormed = false := by decide
theorem test_wf_write_eep_byte : (Instr.writeEepByte 0x0080 0).wellFormed = false := by decide
theorem test_wf_accepts : (Instr.readProgLo 0x03FF).wellFormed = true := by decide

/-! ## Decoding: a word of every row, written out from 30_encoding.md R96 and R97 -/

theorem test_decode_prog_enable : decodeTableWord 32 0xAC530000 = some .progEnable := by decide
theorem test_decode_chip_erase : decodeTableWord 32 0xAC800000 = some .chipErase := by decide
theorem test_decode_load_prog_lo : decodeTableWord 32 0x400007EF = some (.loadProgLo 7 0xEF) := by decide
theorem test_decode_load_prog_hi : decodeTableWord 32 0x480007BE = some (.loadProgHi 7 0xBE) := by decide
theorem test_decode_commit_prog : decodeTableWord 32 0x4C01A000 = some (.commitProg 0x01A0) := by decide
theorem test_decode_read_prog_lo : decodeTableWord 32 0x2002AB00 = some (.readProgLo 0x02AB) := by decide
theorem test_decode_read_prog_hi : decodeTableWord 32 0x2803FF00 = some (.readProgHi 0x03FF) := by decide
theorem test_decode_load_eep : decodeTableWord 32 0xC100025A = some (.loadEep 2 0x5A) := by decide
theorem test_decode_commit_eep : decodeTableWord 32 0xC2001400 = some (.commitEep 0x14) := by decide
theorem test_decode_read_eep : decodeTableWord 32 0xA0007F00 = some (.readEep 0x7F) := by decide
theorem test_decode_write_eep_byte : decodeTableWord 32 0xC00010AA = some (.writeEepByte 0x10 0xAA) := by decide
theorem test_decode_read_lock : decodeTableWord 32 0x58000000 = some .readLock := by decide
theorem test_decode_write_lock : decodeTableWord 32 0xACE000FC = some (.writeLock 0xFC) := by decide
theorem test_decode_read_sig : decodeTableWord 32 0x30000200 = some (.readSig 2) := by decide
theorem test_decode_write_fuse_lo : decodeTableWord 32 0xACA00062 = some (.writeFuseLo 0x62) := by decide
theorem test_decode_write_fuse_hi : decodeTableWord 32 0xACA800DF = some (.writeFuseHi 0xDF) := by decide
theorem test_decode_write_fuse_ext : decodeTableWord 32 0xACA400FF = some (.writeFuseExt 0xFF) := by decide
theorem test_decode_read_fuse_lo : decodeTableWord 32 0x50000000 = some .readFuseLo := by decide
theorem test_decode_read_fuse_hi : decodeTableWord 32 0x58080000 = some .readFuseHi := by decide
theorem test_decode_read_fuse_ext : decodeTableWord 32 0x50080000 = some .readFuseExt := by decide
theorem test_decode_read_cal : decodeTableWord 32 0x38000100 = some (.readCal 1) := by decide
theorem test_decode_poll_busy : decodeTableWord 32 0xF0000000 = some .pollBusy := by decide
theorem test_decode_host_ops :
    [0x01, 0x02, 0x03, 0x04, 0x10, 0x11, 0x12, 0x13, 0x20, 0x21, 0x22, 0x23, 0x24, 0x25, 0x30].map (decodeTableWord 8)
      = [.enter, .exit, .erase, .poll, .wrprog, .wreep, .rdprog, .rdeep, .rdlock, .wrlock, .rdsig, .wrfuse, .rdfuse,
         .rdcal, .xchg].map some := by decide

/-- Reserved bits do not fall through to a neighbour (masks of R148, R152, R157); V19a for the operation codes. -/
theorem test_decode_reserved :
    [0x4C01A100, 0x4C04A000, 0x4C01A001, 0xC2008000, 0x30000400, 0xAC540000, 0x58010000].map (decodeTableWord 32)
      ++ [0x00, 0x05, 0x14, 0x26, 0x31, 0xFF].map (decodeTableWord 8) = List.replicate 13 none := by decide

/-! ## Frame images: V3b, V4b, V5b, V6a, V7b, V8a, V9b, V9e -/

theorem test_encode_masks :
    encode FuseTable.default (.loadProgLo 0xFFFF 0xFF) = [0x40, 0x00, 0x0F, 0xFF] ∧
    encode FuseTable.default (.commitProg 0xFC0F) = [0x4C, 0x00, 0x00, 0x00] ∧
    encode FuseTable.default (.commitProg 0x03FF) = [0x4C, 0x03, 0xF0, 0x00] ∧
    encode FuseTable.default (.readProgLo 0x0400) = [0x20, 0x00, 0x00, 0x00] ∧
    encode FuseTable.default (.loadEep 0xFFFF 0xFF) = [0xC1, 0x00, 0x03, 0xFF] ∧
    encode FuseTable.default (.commitEep 0x0084) = [0xC2, 0x00, 0x04, 0x00] ∧
    encode FuseTable.default (.readEep 0x0080) = [0xA0, 0x00, 0x00, 0x00] ∧
    encode FuseTable.default (.readSig 2) = [0x30, 0x00, 0x02, 0x00] ∧
    encode FuseTable.default (.readCal 1) = [0x38, 0x00, 0x01, 0x00] := by decide

/-! ## The codec: "Response capture" of 95_test_vectors.md 2.1 -/

theorem test_frame_capture :
    after (.readProgLo 5) (ready [0xA1, 0xB2, 0xC3, 0xD4]) (fun s => (s.resp, s.trace, s.mode)) =
      some (⟨0xA1, 0xB2, 0xC3, 0xD4⟩, [.xb 0x20 0xA1, .xb 0x00 0xB2, .xb 0x05 0xC3, .xb 0x00 0xD4], .programming) := by
  decide

/-- The mixture of 10_state.md R22 after the second byte. -/
theorem test_resp_mixture :
    (sendByte 0x00 (sendByte 0x20 { ready [0xA1, 0xB2] with resp := ⟨1, 2, 3, 4⟩ })).resp = ⟨0xA1, 0xB2, 3, 4⟩ := by
  decide

/-! ## State machine: V10, V11, V12, V13, V14, V16, V17, V18, V18a, V19b -/

theorem test_enter_success :
    after .enter { State.reset with env := .unconstrained [0, 0xAC, 0x53, 0] }
        (fun s => ((s.mode, s.busEn, s.rst), (s.result, s.status), s.trace)) =
      some ((.programming, true, false), (1, .ok),
        [.busEnable, .reset false, .wait .reset, .xb 0xAC 0, .xb 0x53 0xAC, .xb 0 0x53, .xb 0 0]) := by decide

theorem test_enter_failure :
    after .enter { ready [0x53, 0x53, 0x52, 0x53] with mode := .programming }
        (fun s => ((s.mode, s.busEn, s.rst), (s.result, s.status), s.trace.drop 7)) =
      some ((.idle, false, true), (0, .eEntry), [.reset true, .busDisable]) := by decide

theorem test_enter_three_step_pulse :
    after .enter { State.reset with
        par := { Params.default with resetSeq := { before := [⟨false, true⟩, ⟨true, true⟩], lastSettle := true } },
        env := .unconstrained [0, 0, 0x53, 0] } (fun s => (s.mode, s.trace.take 7)) =
      some (.programming, [.busEnable, .reset false, .wait .reset, .reset true, .wait .reset, .reset false,
        .wait .reset]) := by decide

theorem test_exit :
    after .exit (ready []) (fun s => (s.mode, s.busEn, s.rst, s.status, s.trace)) =
      some (.idle, false, true, .ok, [.reset true, .busDisable]) := by decide

theorem test_erase :
    after .erase (ready [1, 2, 3, 4]) (fun s => (s.mode, s.status, s.trace)) =
      some (.programming, .ok, [.xb 0xAC 1, .xb 0x80 2, .xb 0 3, .xb 0 4, .wait .erase]) := by decide

theorem test_erase_in_idle :
    exec .erase State.reset = .next { State.reset with status := .eMode } := by rfl

theorem test_poll :
    after .poll (ready [0, 0, 0, 0x01]) (·.result) = some 1 ∧
    after .poll (ready [0, 0, 0, 0xFE]) (·.result) = some 0 := by decide

/-! ## Page writes: V22, V30, V31, V33; V21 -/

theorem test_wrprog_partial_page :
    after .wrprog { ready [] with addr := 0x0120, count := 3, values := [0x940C, 0x0034, 0xCFFF] }
        (fun s => (txBytes s.trace, waits s.trace)) =
      some ([0x40, 0, 0, 0x0C, 0x48, 0, 0, 0x94, 0x40, 0, 1, 0x34, 0x48, 0, 1, 0x00, 0x40, 0, 2, 0xFF, 0x48, 0, 2, 0xCF,
        0x4C, 0x01, 0x20, 0x00], [.wrProg]) := by decide

theorem test_wreep_crosses_the_top :
    after .wreep { ready [] with addr := 0x7C, count := 6, values := [1, 2, 3, 4, 5, 6] }
        (fun s => ((txBytes s.trace).drop 16, waits s.trace)) =
      some ([0xC2, 0, 0x7C, 0, 0xC1, 0, 0, 5, 0xC1, 0, 1, 6, 0xC2, 0, 0, 0], [.wrEep, .wrEep]) := by decide

theorem test_wreep_five_bytes :
    after .wreep { ready [] with addr := 0x10, count := 5, values := [0x11, 0x22, 0x33, 0x44, 0x55] }
        (fun s => (txBytes s.trace, waits s.trace)) =
      some ([0xC1, 0, 0, 0x11, 0xC1, 0, 1, 0x22, 0xC1, 0, 2, 0x33, 0xC1, 0, 3, 0x44, 0xC2, 0, 0x10, 0,
        0xC1, 0, 0, 0x55, 0xC2, 0, 0x14, 0], [.wrEep, .wrEep]) := by decide

theorem test_wreep_unaligned :
    after .wreep { ready [] with addr := 2, count := 4, values := [0xA1, 0xB2, 0xC3, 0xD4] }
        (fun s => (txBytes s.trace, s.ppbValid == Vector.replicate 16 false)) =
      some ([0xC1, 0, 2, 0xA1, 0xC1, 0, 3, 0xB2, 0xC1, 0, 0, 0xC3, 0xC1, 0, 1, 0xD4, 0xC2, 0, 0, 0], true) := by decide

theorem test_wrprog_nothing :
    after .wrprog { ready [] with count := 0 } (fun s => (s.trace, s.status)) = some ([], .ok) := by decide

/-! ## Reads: V42 and V44 -/

theorem test_rdeep_wraps :
    after .rdeep { ready [0, 0, 0, 0xCC, 0, 0, 0, 0xBB, 0, 0, 0, 0xAA] with addr := 0x7E, count := 3 }
        (fun s => (txBytes s.trace, s.out, s.result)) =
      some ([0xA0, 0, 0x00, 0, 0xA0, 0, 0x7F, 0, 0xA0, 0, 0x7E, 0], [0xAA, 0xBB, 0xCC], 0) := by decide

theorem test_rdprog :
    after .rdprog { ready [0, 0, 0, 0x34, 0, 0, 0, 0x12] with addr := 0x0412, count := 1 }
        (fun s => (txBytes s.trace, s.out)) = some ([0x20, 0, 0x12, 0, 0x28, 0, 0x12, 0], [0x1234]) := by decide

/-! ## Ancillary: V50 to V57 -/

theorem test_rdlock : after .rdlock (ready [0, 0, 0, 0xFC]) (·.result) = some 0xFC := by decide

theorem test_wrlock :
    after .wrlock { ready [] with d0 := 0xFC } (fun s => (txBytes s.trace, waits s.trace)) =
      some ([0xAC, 0xE0, 0x00, 0xFC], [.lock]) := by decide

theorem test_rdsig :
    after .rdsig (ready [0, 0, 0, 0x1E, 0, 0, 0, 0x91, 0, 0, 0, 0x08, 0, 0, 0, 0xFF])
        (fun s => (s.result, txBytes s.trace)) =
      some (0xFF08911E, [0x30, 0, 0, 0, 0x30, 0, 1, 0, 0x30, 0, 2, 0, 0x30, 0, 3, 0]) := by decide

theorem test_wrfuse :
    after .wrfuse { ready [] with d0 := 0x62, d1 := 0xDF, d2 := 0xFF } (fun s => (txBytes s.trace, waits s.trace)) =
      some ([0xAC, 0xA0, 0, 0x62, 0xAC, 0xA8, 0, 0xDF, 0xAC, 0xA4, 0, 0xFF], [.fuse, .fuse, .fuse]) := by decide

theorem test_rdfuse :
    after .rdfuse (ready [0, 0, 0, 0x62, 0, 0, 0, 0xDF, 0, 0, 0, 0xFF]) (fun s => (s.result, txBytes s.trace)) =
      some (0x00FFDF62, [0x50, 0, 0, 0, 0x58, 0x08, 0, 0, 0x50, 0x08, 0, 0]) := by decide

theorem test_rdcal : after .rdcal (ready [0, 0, 0, 0x5B, 0, 0, 0, 0x00]) (·.result) = some 0x5B := by decide

theorem test_xchg :
    after .xchg { ready [0xA1, 0xB2, 0xC3, 0x93] with d0 := 0x30, d1 := 0, d2 := 1, d3 := 0 }
        (fun s => (s.result, s.mode, txBytes s.trace)) =
      some (0xA1B2C393, .programming, [0x30, 0, 1, 0]) := by decide

/-! ## Steps -/

/-- V19a: an undefined operation code. -/
theorem test_step_undefined_op :
    (nextOf (step (State.reset.withFetchWord 8 0x14))).map (fun s => (s.status, s.trace, s.busy)) =
      some (.eOp, [], false) := by decide

/-- 40_codec.md R141: a frame outside the table is sent all the same. -/
theorem test_step_any_frame :
    (nextOf (step (State.reset.withFetchWord 32 0x12345678))).map (fun s => txBytes s.trace) =
      some [0x12, 0x34, 0x56, 0x78] := by
  rfl

/-- 10_state.md R25: a request while busy is held off. -/
theorem test_step_held_off :
    step { State.reset with busy := true, host := [.host ⟨2, 0, 0, 0, 0, 0, 0, []⟩] } =
      .next { State.reset with busy := true, host := [.host ⟨2, 0, 0, 0, 0, 0, 0, []⟩] } := by
  rfl

/-- 70_reset_and_hazards.md R251: a WREEP of one byte cut after its load, before its commit. -/
theorem test_reset_between_load_and_commit :
    (nextOf (step { ready [] with host := [.resetDuring ⟨0x11, 0, 1, 0, 0, 0, 0, [0x77]⟩ 4] })).map
        (fun s => (txBytes s.trace, s.mode, s.busEn, s.rst, s.busy, s.status)) =
      some ([0xC1, 0, 0, 0x77], .idle, false, true, false, .ok) := by decide

/-! ## The reference target: S8 with V40, and V46 in part -/

theorem test_round_trip_five_bytes :
    ((nextOf (exec .wreep { wired with addr := 0x10, count := 5, values := [0x11, 0x22, 0x33, 0x44, 0x55] })).bind
        fun t => after .rdeep t (·.out)) = some [0x11, 0x22, 0x33, 0x44, 0x55] := by decide

theorem test_unaligned_lands_in_the_page :
    ((nextOf (exec .wreep { wired with addr := 2, count := 4, values := [0xA1, 0xB2, 0xC3, 0xD4] })).bind
        fun t => after .rdeep { t with addr := 0, count := 4 } (·.out)) = some [0xC3, 0xD4, 0xA1, 0xB2] := by decide

theorem test_program_word_round_trip :
    ((nextOf (exec .wrprog { wired with addr := 0x03F0, count := 2, values := [0x940C, 0x0034] })).bind
        fun t => after .rdprog t (·.out)) = some [0x940C, 0x0034] := by decide

theorem test_target_signature : after .rdsig wired (·.result) = some 0xFF08911E := by decide

/-- 30_encoding.md R98: a signature read with a sub-address outside the table gets no guaranteed answer and no guaranteed effect. -/
theorem test_target_reserved_sub_address :
    blankTarget.answer Params.default 0x30 0 4 0 = none ∧ blankTarget.answer Params.default 0x38 0 2 0 = none ∧
      blankTarget.serve Params.default 0x30 0 4 0 = .unconstrained [] ∧
      blankTarget.serve Params.default 0x30 0 3 0 = .reference blankTarget := by decide

/-- 30_encoding.md R98: outside programming mode only the enable frame after the pulse has a guaranteed effect (20_memory.md R77). -/
theorem test_target_outside_programming_mode :
    ({ blankTarget with enabled := false, fresh := true } : Target).complete Params.default 0 0xAC 0x53 0 0 =
        .reference blankTarget ∧
      ({ blankTarget with enabled := false, fresh := true } : Target).complete Params.default 0 0xAC 0x53 0 1 = .unconstrained [] ∧
      ({ blankTarget with enabled := false } : Target).complete Params.default 0 0x20 0 0 0 = .unconstrained [] := by decide

/-- 20_memory.md R76: after ERASE neither a word written before nor a signature byte is known any more. -/
theorem test_target_erase :
    ((nextOf (exec .wrprog { wired with addr := 0, count := 1, values := [0x940C] })).bind fun t =>
      after .erase t fun u => (t.env.peek .prog 0, t.env.peek .sig 0, u.env.peek .prog 0, u.env.peek .sig 0)) =
      some (some 0x0C, some 0x1E, none, none) := by decide

/-- P1 step 1: the reference target echoes the enable frame after the reset pulse. -/
theorem test_target_enters :
    after .enter { State.reset with env := .reference { blankTarget with bus := false, low := false, enabled := false } }
      (fun s => (s.mode, s.result)) = some (.programming, 1) := by decide

/-! ## Witnesses: for every statement with hypotheses, states and operands that meet them all, clause by clause -/

/-- Programming with a one-byte data-memory write waiting at the host port. -/
def oneByte : Request := ⟨0x11, 0, 1, 0, 0, 0, 0, [0x77]⟩

/-- `oneByte` emits nine events; a reset inside it and a reset after it both meet the premises. -/
theorem witness_ResetDuringAnOperationKeepsWhatWasSent :
    (ready []).busy = false ∧
      ((nextOf (runRequest oneByte (ready []))).map fun u => (eventsSince (ready []) u).length) = some 9 := by decide

theorem witness_RequestIsHeldOffWhileBusy :
    ({ State.reset with busy := true, host := [.host oneByte] } : State).busy = true := by decide

theorem witness_EngineWaitsForTheFirstOperation : State.reset.host = [] := by decide

theorem witness_StepRunsTheRequestedOperation :
    State.reset.busy = false ∧ decode State.reset.par.fuseRd [oneByte.op] = .ok .wreep := by decide

/-- Both clauses: a frame of the table, and bytes that are none. -/
theorem witness_StepRunsTheGivenFrame :
    State.reset.busy = false ∧ decode State.reset.par.fuseRd [0x50, 0x08, 0, 0] = .ok .readFuseExt ∧
      (decode State.reset.par.fuseRd [0x50, 0x09, 0, 0]).toOption = none := by decide

/-- The codes next to the defined ones, in either mode. -/
theorem witness_UndefinedOperationCodeIsRejected :
    State.reset.busy = false ∧ (ready []).busy = false ∧ ∀ c ∈ ([0x00, 0x05, 0x0F, 0x14, 0x1F, 0x26, 0x2F, 0x31, 0xFF] : List Byte),
      c ∉ ([0x01, 0x02, 0x03, 0x04, 0x10, 0x11, 0x12, 0x13, 0x20, 0x21, 0x22, 0x23, 0x24, 0x25, 0x30] : List Byte) := by
  decide

theorem witness_MachineStopsOnlyOnCodecReentry :
    step { State.reset with busy := true, host := [.frame 0xF0 0 0 0] } = .fault .codecReentered := by rfl

theorem witness_DecodeOfEncodeIsTheInstruction :
    FuseTable.default.WellFormed ∧ (Instr.commitProg 0x03F0).wellFormed = true ∧ (Instr.loadEep 3 0xFF).wellFormed = true ∧
      (Instr.readProgHi 0).wellFormed = true ∧ Instr.rdfuse.wellFormed = true := by decide

theorem witness_EncodeOfDecodeIsTheBytes :
    decode FuseTable.default [0x4C, 0x03, 0xF0, 0x00] = .ok (.commitProg 0x03F0) ∧
      decode FuseTable.default [0x30] = .ok .xchg := by decide

theorem witness_AnyResponseBytesAreTaken : (ready [0xFF, 0, 0x53, 1]).env = .unconstrained (0xFF :: 0 :: 0x53 :: 1 :: []) := by
  decide

theorem witness_FrameInstructionsWriteOnlyTheResponse :
    Instr.pollBusy.isFrame = true ∧ (Instr.commitEep 0xFFFF).isFrame = true := by decide

/-- The premises, a mode for each of the two clauses, of XchgReturnsTheWholeResponse, EraseSendsItsFrameAndWaits,
PollReportsTheBusyBit, CommitCountAndCommitAddresses, ReadUnitsFollowsItsSchedule, RdlockReturnsTheLockByte,
WrlockSendsTheLockByteAndWaits, RdsigAssemblesFourBytes, WrfuseWritesThreeBytesEachWithItsWait,
RdfuseReadsWithTheConfiguredTable and RdcalAssemblesTwoBytes. -/
theorem witness_guarded_operations :
    State.reset.mode = .idle ∧ (ready []).mode = .programming ∧ ∀ i ∈ [Instr.erase, .poll, .wrprog, .wreep, .rdprog, .rdeep,
      .rdlock, .wrlock, .rdsig, .wrfuse, .rdfuse, .rdcal, .xchg], i.guarded = true := by decide

/-- Both verdicts of ENTER are reached: the echo at index 2 alone decides (V10, V12). -/
theorem witness_EnterIsDecidedByTheEcho :
    after .enter (ready [0, 0, 0x53, 0]) (fun s => (s.resp.b2, s.mode)) = some (0x53, .programming) ∧
      after .enter (ready [0x53, 0x53, 0x52, 0x53]) (fun s => (s.resp.b2, s.mode)) = some (0x52, .idle) := by decide

/-- The rejected and the other instructions in Idle. -/
theorem witness_GuardRejectsInIdle :
    State.reset.mode = .idle ∧ Instr.rdcal.guarded = true ∧
      ∀ i ∈ [Instr.enter, .exit, .chipErase], i ∉ [Instr.erase, .poll, .wrprog, .wreep, .rdprog, .rdeep, .rdlock, .wrlock,
        .rdsig, .wrfuse, .rdfuse, .rdcal, .xchg] := by decide

/-- Programming, with the first and the last unit of a read. -/
theorem witness_ResponseDecodeTable :
    ({ ready [] with count := 3 } : State).mode = .programming ∧ 0 < ({ ready [] with count := 3 } : State).count.toNat ∧
      2 < ({ ready [] with count := 3 } : State).count.toNat := by decide

theorem witness_ExitIsIdempotent :
    State.reset.mode = .idle ∧ State.reset.rst = true ∧ State.reset.busEn = false := by decide

theorem witness_OnlyEnterAndExitWriteTheMode : Instr.xchg ≠ .enter ∧ Instr.xchg ≠ .exit := by decide

/-- Both clauses, and both sides of the tests on COUNT. -/
theorem witness_WritePagesFollowsItsSchedule :
    State.reset.mode = .idle ∧ (ready []).mode = .programming ∧ (ready []).count = 0 ∧
      ({ ready [] with count := 17 } : State).count ≠ 0 := by decide

/-- A full page and the last unit of one; the first unit of a write and the last; an empty record before a chunk to load. -/
theorem witness_ChunkIsLoadedBeforeItsCommit :
    (∀ o : Fin 16, (ready []).ppbValid[o] = false) ∧ 16 ≤ Region.upp .prog ∧ 4 ≤ Region.upp .eep ∧
      ({ ready [] with count := 1 } : State).k.toNat < ({ ready [] with count := 1 } : State).count.toNat ∧
      ({ ready [] with k := 0xFFFE, count := 0xFFFF } : State).k.toNat < 0xFFFF := by decide

theorem witness_CountZeroSendsNothing : (ready []).mode = .programming ∧ (ready []).count = 0 := by decide

theorem witness_EveryInstructionCompletesAndKeepsItsInputs :
    Instr.readLock.isFrame = true ∧ Instr.rdlock.isFrame = false := by decide

theorem witness_EventCountsOfEveryOperation :
    ({ ready [] with count := 0xFFFF } : State).mode = .programming ∧
      0xFFFF = ({ ready [] with count := 0xFFFF } : State).count.toNat ∧
      (ready []).par.resetSeq = { before := [], lastSettle := true } := by decide

/-- An operation but ENTER; and ENTER with two environments that give one verdict. -/
theorem witness_ResponsesSteerOnlyEnter :
    Instr.rdprog ≠ .enter ∧ after .enter (ready [0, 0, 0x53, 0]) (·.mode) = some .programming ∧
      after .enter { ready [] with env := .unconstrained [9, 8, 0x53, 7] } (·.mode) = some .programming := by decide

theorem witness_StepsKeepTheParametersAndTheTrace :
    (nextOf (step { ready [1, 2, 3, 4] with host := [.frame 0xF0 0 0 0] })).isSome = true := by decide

/-- The invariant holds in Programming before a reference target, and that state takes a step. -/
theorem witness_InvariantIsKeptByEveryStep :
    ({ wired with host := [.host oneByte] } : State).Inv ∧
      (nextOf (step { wired with host := [.host oneByte] })).isSome = true :=
  ⟨⟨rfl, ⟨rfl, rfl⟩, fun o => by simp [wired, ready, State.reset], rfl, by decide⟩, by decide⟩

theorem wired_ready : wired.env.Ready := ⟨rfl, rfl, rfl, rfl⟩

theorem witness_ReadyTargetAnswersReads :
    wired.env.Ready ∧ wired.par.fuseRd.WellFormed ∧ sourceOf (.readSig 3) = some (.sig, 3) ∧
      wired.env.peek .sig 3 = some 0xFF :=
  ⟨wired_ready, by decide⟩

theorem witness_ReadyTargetStagesLoads : wired.env.Ready := wired_ready

/-- A target with slot 15 of its program page buffer loaded and slot 0 half loaded. -/
def latched15 : State :=
  { wired with env := .reference { blankTarget with plat := [(1, 0x11), (30, 0x22), (31, 0x33)] } }

theorem witness_ReadyTargetStoresACommittedPage :
    latched15.env.Ready ∧ latched15.env.wf = true ∧ latched15.par.tWrProg ≠ 0 ∧ latched15.par.tWrEep ≠ 0 ∧
      latched15.env.peek .progLatch (2 * 15) = some 0x22 ∧ latched15.env.peek .progLatch (2 * 15 + 1) = some 0x33 ∧
      latched15.env.peek .progLatch (2 * 0) = none :=
  ⟨⟨rfl, rfl, rfl, rfl⟩, by decide⟩

theorem witness_ReadOperationsLeaveTheTargetAlone :
    Instr.poll ∈ [Instr.rdprog, .rdeep, .rdlock, .rdsig, .rdfuse, .rdcal, .poll] ∧ wired.env.Ready :=
  ⟨by decide, wired_ready⟩

/-- A write of three data pages: byte 11 is outside them, byte 12 inside. -/
theorem witness_PageWriteTouchesOnlyItsPages :
    wired.mode = .programming ∧ wired.env.Ready ∧ wired.env.wf = true ∧ wired.par.ticks (Region.wr .eep) ≠ 0 ∧
      Space.eep ≠ latchOf .eep ∧ ∀ j < pageCount .eep 9,
        11 < Region.unitBytes .eep * (((12 : Half) + BitVec.ofNat 16 (j * Region.upp .eep)) &&& Region.page .eep).toNat :=
  ⟨rfl, wired_ready, by decide⟩

/-- The whole of data memory, and two words at the top of program memory. -/
theorem witness_PageWriteThenReadReturnsTheValues :
    wired.mode = .programming ∧ wired.env.Ready ∧ wired.env.wf = true ∧ wired.par.ticks (Region.wr .eep) ≠ 0 ∧
      wired.par.ticks (Region.wr .prog) ≠ 0 ∧ (0x0080 : Half) &&& Region.offs .eep = 0 ∧
      (0x80 : Half).toNat ≤ (Region.full .eep).toNat + 1 ∧ (List.replicate 0x80 (0x1234 : Half)).length = (0x80 : Half).toNat ∧
      (0x03F0 : Half) &&& Region.offs .prog = 0 ∧ (2 : Half).toNat ≤ (Region.full .prog).toNat + 1 :=
  ⟨rfl, wired_ready, by decide, by decide, by decide, by decide, by decide, List.length_replicate, by decide⟩

theorem witness_LockAndFuseBytesReadBack :
    wired.mode = .programming ∧ wired.env.Ready ∧ wired.par.fuseRd.WellFormed ∧ wired.par.tLock ≠ 0 ∧ wired.par.tFuse ≠ 0 :=
  ⟨rfl, wired_ready, by decide⟩

theorem witness_EraseForgetsTheTargetMemories :
    wired.env.Ready ∧ wired.mode = .programming ∧ wired.par.tErase ≠ 0 ∧ wired.env.peek .sig 0 = some 0x1E :=
  ⟨wired_ready, by decide⟩

theorem witness_EnterFindsAWillingTarget :
    State.reset.par.resetSeq.lastSettle = true ∧ State.reset.par.tReset ≠ 0 ∧
      ({ blankTarget with bus := false, low := false, enabled := false } : Target).busy = none := by decide

end Sys2Proof.Machine.Tests
end

section
/-! PROOFS of the family 00_scope.md: every step keeps the parameters and only adds to the trace (00_scope.md R8, R12; 10_state.md R32 c). -/

namespace Sys2Proof.Machine

/-- State `t` has the parameters of `s`, and every event of `s` in its place at the start of the trace. -/
structure Extends (s t : State) : Prop where
  par : t.par = s.par
  trace : s.trace <+: t.trace

theorem Extends.refl (s : State) : Extends s s := ⟨rfl, List.prefix_rfl⟩

theorem Extends.trans {s t u : State} (h : Extends s t) (g : Extends t u) : Extends s u :=
  ⟨g.par.trans h.par, h.trace.trans g.trace⟩

/-- Commands played on the bus side only add events. -/
theorem Extends.of_play {s t : State} (cs : List Cmd) (hp : t.par = s.par) (hb : t.bus = s.bus.play s.par cs) :
    Extends s t := by
  obtain ⟨es, he, -⟩ := play_trace s.par cs s.bus
  have ht : t.trace = s.trace ++ es := (congrArg Bus.trace hb).trans he
  exact ⟨hp, es, ht.symm⟩

theorem accept_extends (r : Request) (s : State) : Extends s (accept r s) := ⟨rfl, List.prefix_rfl⟩

theorem reject_extends (code : Status) (s : State) : Extends s (reject code s) := ⟨rfl, List.prefix_rfl⟩

/-- A hardware reset emits no event and takes none back (70_reset_and_hazards.md R250). -/
theorem hardReset_extends (s : State) : Extends s (hardReset s) := ⟨rfl, List.prefix_rfl⟩

theorem playEvents_extends (es : List Event) (s : State) : Extends s (playEvents es s) := by
  obtain ⟨fs, h, -⟩ := playEvents_trace es s
  exact ⟨(kept_playEvents es s).par, fs, h.symm⟩

theorem exec_extends (i : Instr) {s t : State} (h : exec i s = .next t) : Extends s t := by
  obtain ⟨u, cs, hu, hi, hb, -⟩ := exec_cases i s
  cases hu.symm.trans h
  exact .of_play cs hi.par hb

theorem runRequest_extends (r : Request) {s t : State} (h : runRequest r s = .next t) : Extends s t := by
  unfold runRequest runOperation at h
  split at h
  case h_1 i _ => exact (accept_extends r s).trans (exec_extends i h)
  case h_2 =>
    cases h
    exact (accept_extends r s).trans (reject_extends .eOp _)

theorem runFrame_extends (b0 b1 b2 b3 : Byte) {s t : State} (h : runFrame b0 b1 b2 b3 s = .next t) : Extends s t := by
  unfold runFrame at h
  split at h
  case h_1 i _ => exact exec_extends i h
  case h_2 =>
    cases h
    exact .of_play [.frame b0 b1 b2 b3] (frame_par b0 b1 b2 b3 s) (bus_frame s b0 b1 b2 b3)

/-- The events before the reset happened, and stay in the trace (70_reset_and_hazards.md R251). -/
theorem runAbandoned_extends (r : Request) (n : Nat) {s t : State} (h : runAbandoned r n s = .next t) : Extends s t := by
  obtain ⟨u, -, hu⟩ := runAbandoned_next r n s
  cases hu.symm.trans h
  exact ((accept_extends r s).trans (playEvents_extends _ _)).trans (hardReset_extends _)

/-- Taking the next item from the world changes neither the parameters nor the trace. -/
theorem Extends.of_withHost {s t : State} {rest : List Work} (h : Extends { s with host := rest } t) : Extends s t :=
  ⟨h.par, h.trace⟩

theorem step_extends {s t : State} (h : step s = .next t) : Extends s t := by
  unfold step at h
  split at h
  case h_1 => cases h; exact .refl s
  case h_2 r rest _ =>
    split at h
    · cases h; exact .refl s
    · exact (runRequest_extends r h).of_withHost
  case h_3 b0 b1 b2 b3 rest _ =>
    split at h
    · cases h
    · exact (runFrame_extends b0 b1 b2 b3 h).of_withHost
  case h_4 rest _ => cases h; exact (hardReset_extends _).of_withHost
  case h_5 r n rest _ =>
    split at h
    · cases h; exact (hardReset_extends _).of_withHost
    · exact (runAbandoned_extends r n h).of_withHost

/-- Settles O47: each thing the world can present extends the state, so every step does. -/
theorem stepsKeepTheParametersAndTheTrace : Obligations.StepsKeepTheParametersAndTheTrace := by
  intro s t h
  obtain ⟨hp, es, ht⟩ := step_extends h
  exact ⟨hp, es, ht.symm⟩

end Sys2Proof.Machine
end

section
/-! PROOFS of the family 10_state.md: what the step does with each thing the world presents, which instructions write the levels, and
the invariant between operations (10_state.md R21, R25, R27, R29, R30, R32, R34; 60_exceptions.md R230). -/

namespace Sys2Proof.Machine

/-! ## One equation of `step` per thing presented -/

section
variable {s : State} {rest : List Work}

theorem step_nothing (hh : s.host = []) : step s = .next s := by simp [step, hh]

/-- A request presented while busy is held off (10_state.md R25). -/
theorem step_host_busy {r : Request} (hh : s.host = .host r :: rest) (hb : s.busy = true) : step s = .next s := by
  simp [step, hh, hb]

theorem step_host {r : Request} (hh : s.host = .host r :: rest) (hb : s.busy = false) :
    step s = runRequest r { s with host := rest } := by
  simp [step, hh, hb]

theorem step_frame {b0 b1 b2 b3 : Byte} (hh : s.host = .frame b0 b1 b2 b3 :: rest) (hb : s.busy = false) :
    step s = runFrame b0 b1 b2 b3 { s with host := rest } := by
  simp [step, hh, hb]

theorem step_reset (hh : s.host = .reset :: rest) : step s = .next (hardReset { s with host := rest }) := by
  simp [step, hh]

theorem step_resetDuring {r : Request} {n : Nat} (hh : s.host = .resetDuring r n :: rest) (hb : s.busy = false) :
    step s = runAbandoned r n { s with host := rest } := by
  simp [step, hh, hb]

end

/-- An accepted request whose code is defined is `exec` of its operation. -/
theorem runRequest_ok {r : Request} {i : Instr} (s : State) (hd : decodeHostOp r.op = .ok i) :
    runRequest r s = exec i (accept r s) := by
  have ho : (accept r s).op = r.op := rfl
  simp [runRequest, runOperation, ho, hd]

/-! ## What `exec` does to the levels and to `busy` -/

/-- The three kinds of instruction: frames, guarded operations, and the two operations that move between the modes. -/
theorem isFrame_or_guarded_or_modeOp (i : Instr) :
    i.isFrame = true ∨ i.guarded = true ∨ i = .enter ∨ i = .exit := by
  cases i <;> simp [Instr.isFrame, Instr.guarded]

/-- A guarded operation that ran leaves the levels alone: no command of it drives one (10_state.md R23, R24). -/
theorem Ran.levels {i : Instr} {s t : State} (hi : i.guarded = true) (h : Ran s t (opCmds i s)) :
    t.busEn = s.busEn ∧ t.rst = s.rst := by
  obtain ⟨hbus, hrst⟩ := play_quiet s.par (opCmds i s) s.bus (opCmds_quiet i s hi)
  exact ⟨(congrArg Bus.busEn h.bus).trans hbus, (congrArg Bus.rst h.bus).trans hrst⟩

/-- Settles O28: a frame, a rejection and a guarded operation that runs each leave the mode and the levels alone. -/
theorem onlyEnterAndExitWriteTheMode : Obligations.OnlyEnterAndExitWriteTheMode := by
  intro i s henter hexit
  rcases isFrame_or_guarded_or_modeOp i with hf | hg | rfl | rfl
  · obtain ⟨b0, b1, b2, b3, -, hx⟩ := exec_frame i s hf
    exact ⟨_, hx, frame_mode .., frame_busEn .., frame_rst ..⟩
  · cases hm : s.mode with
    | idle => exact ⟨_, exec_rejected i s hg hm, hm, rfl, rfl⟩
    | programming =>
      obtain ⟨t, ht, hr⟩ := exec_ran i s hg hm
      exact ⟨t, ht, hr.mode.trans hm, hr.levels hg⟩
  · exact absurd rfl henter
  · exact absurd rfl hexit

/-- A frame is no host operation: it leaves `busy` alone (40_codec.md R140). -/
theorem exec_frame_busy {i : Instr} {s t : State} (hf : i.isFrame = true) (ht : exec i s = .next t) : t.busy = s.busy := by
  obtain ⟨b0, b1, b2, b3, -, hx⟩ := exec_frame i s hf
  cases hx.symm.trans ht
  exact frame_busy ..

/-- A host operation ends with `busy` 0 (10_state.md R25). -/
theorem exec_hostOp_busy {i : Instr} {s t : State} (hf : i.isFrame = false) (ht : exec i s = .next t) : t.busy = false := by
  rcases isFrame_or_guarded_or_modeOp i with hf' | hg | rfl | rfl
  · exact absurd (hf.symm.trans hf') Bool.false_ne_true
  · cases hm : s.mode with
    | idle => cases (exec_rejected i s hg hm).symm.trans ht; rfl
    | programming =>
      obtain ⟨u, hu, hr⟩ := exec_ran i s hg hm
      cases hu.symm.trans ht
      exact hr.busy
  · obtain ⟨u, hu, -, hb, -⟩ := exec_enter s
    cases hu.symm.trans ht
    exact hb
  · obtain ⟨u, hu, -, hb, -⟩ := exec_exit s
    cases hu.symm.trans ht
    exact hb

/-- Settles O44: `exec_cases` gives the next state and the inputs, the two lemmas above its `busy`. -/
theorem everyInstructionCompletesAndKeepsItsInputs : Obligations.EveryInstructionCompletesAndKeepsItsInputs := by
  intro i s
  obtain ⟨t, -, ht, hi, -⟩ := exec_cases i s
  exact ⟨t, ht, hi.op, hi.addr, hi.count, hi.d0, hi.d1, hi.d2, hi.d3, hi.values, hi.par, hi.host,
    fun hf => exec_hostOp_busy hf ht, fun hf => exec_frame_busy hf ht⟩

/-! ## The invariant -/

/-- One row of the table of operation codes, with the rows after it as `e`. -/
theorem not_isFrame_of_ite {c : Prop} [Decidable c] {a i : Instr} {e : Except DecodeError Instr} (ha : a.isFrame = false)
    (he : e = .ok i → i.isFrame = false) (h : (if c then .ok a else e) = .ok i) : i.isFrame = false := by
  split at h
  · cases h; exact ha
  · exact he h

/-- No operation code selects a frame: none of the fifteen rows does (30_encoding.md R97). -/
theorem decodeHostOp_not_isFrame {op : Byte} {i : Instr} (h : decodeHostOp op = .ok i) : i.isFrame = false := by
  revert h
  unfold decodeHostOp
  iterate 15 refine not_isFrame_of_ite rfl ?_
  exact nofun

theorem State.Inv.settled {s : State} (h : s.Inv) : Settled s := ⟨h.outputs, h.ppbEmpty, h.timer, h.memory⟩

theorem Settled.inv {s : State} (h : Settled s) (hb : s.busy = false) : s.Inv :=
  ⟨hb, h.outputs, h.ppbEmpty, h.timer, h.memory⟩

/-- Taking the next item from the world keeps the invariant: it speaks of none. -/
theorem State.Inv.withHost {s : State} (h : s.Inv) (rest : List Work) : ({ s with host := rest } : State).Inv :=
  ⟨h.notBusy, h.outputs, h.ppbEmpty, h.timer, h.memory⟩

theorem accept_settled (r : Request) {s : State} (h : Settled s) : Settled (accept r s) :=
  ⟨h.outputs, h.ppbEmpty, h.timer, h.memory⟩

/-- `reject` establishes what an accepted request still lacks of the invariant: `busy` 0 (60_exceptions.md R221). -/
theorem reject_inv (code : Status) {s : State} (h : Settled s) : (reject code s).Inv :=
  ⟨rfl, h.outputs, h.ppbEmpty, h.timer, h.memory⟩

/-- A hardware reset establishes the engine's part of the invariant from any state (10_state.md R34). -/
theorem hardReset_inv {s : State} (h : s.env.wf = true) : (hardReset s).Inv :=
  ⟨rfl, ⟨rfl, rfl⟩, ppbEmpty_replicate rfl, rfl, Env.wf_busDisable (Env.wf_resetLine true h)⟩

/-- An instruction keeps the invariant: a frame finds `busy` 0 and leaves it so, a host operation ends with it. -/
theorem exec_inv (i : Instr) {s t : State} (h : s.Inv) (ht : exec i s = .next t) : t.Inv := by
  refine (exec_settled i h.settled ht).inv ?_
  cases hf : i.isFrame with
  | true => exact (exec_frame_busy hf ht).trans h.notBusy
  | false => exact exec_hostOp_busy hf ht

theorem runRequest_inv (r : Request) {s t : State} (h : s.Inv) (ht : runRequest r s = .next t) : t.Inv := by
  have ha : Settled (accept r s) := accept_settled r h.settled
  unfold runRequest runOperation at ht
  split at ht
  case h_1 i hd => exact (exec_settled i ha ht).inv (exec_hostOp_busy (decodeHostOp_not_isFrame hd) ht)
  case h_2 =>
    cases ht
    exact reject_inv .eOp ha

/-- Bytes outside the table are played as a frame, and a frame drives no level and stages nothing. -/
theorem runFrame_inv (b0 b1 b2 b3 : Byte) {s t : State} (h : s.Inv) (ht : runFrame b0 b1 b2 b3 s = .next t) : t.Inv := by
  unfold runFrame at ht
  split at ht
  case h_1 i _ => exact exec_inv i h ht
  case h_2 =>
    cases ht
    exact (h.settled.of_play [.frame b0 b1 b2 b3] (bus_frame s b0 b1 b2 b3) h.ppbEmpty h.outputs).inv h.notBusy

/-- Whatever events come before the reset, they keep the environment well formed; the reset does the rest. -/
theorem runAbandoned_inv (r : Request) (n : Nat) {s t : State} (h : s.Inv) (ht : runAbandoned r n s = .next t) : t.Inv := by
  obtain ⟨u, -, hu⟩ := runAbandoned_next r n s
  cases hu.symm.trans ht
  exact hardReset_inv (playEvents_wf _ _ h.memory)

theorem step_inv {s t : State} (h : s.Inv) (ht : step s = .next t) : t.Inv := by
  cases hh : s.host with
  | nil => cases (step_nothing hh).symm.trans ht; exact h
  | cons w rest =>
    cases w with
    | host r => exact runRequest_inv r (h.withHost rest) ((step_host hh h.notBusy).symm.trans ht)
    | frame b0 b1 b2 b3 =>
      exact runFrame_inv b0 b1 b2 b3 (h.withHost rest) ((step_frame hh h.notBusy).symm.trans ht)
    | reset => cases (step_reset hh).symm.trans ht; exact hardReset_inv h.memory
    | resetDuring r n => exact runAbandoned_inv r n (h.withHost rest) ((step_resetDuring hh h.notBusy).symm.trans ht)

/-- Settles O49: each thing the world can present keeps the invariant, so every step does. -/
theorem invariantIsKeptByEveryStep : Obligations.InvariantIsKeptByEveryStep := fun _ _ => step_inv

/-- Settles O48, clause by clause of the invariant. -/
theorem powerOnStateMeetsTheInvariant : Obligations.PowerOnStateMeetsTheInvariant where
  notBusy := rfl
  outputs := ⟨rfl, rfl⟩
  ppbEmpty := ppbEmpty_replicate rfl
  timer := rfl
  memory := rfl

/-! ## Reset and the host port -/

/-- Settles O1: the step is `hardReset`, whose record the statement writes out. -/
theorem hardwareResetGivesTheStatedState : Obligations.HardwareResetGivesTheStatedState := by
  intro s rest
  exact step_reset (s := { s with host := .reset :: rest }) rfl

/-- Settles O2. -/
theorem powerOnStateHoldsTheResetValues : Obligations.PowerOnStateHoldsTheResetValues :=
  ⟨rfl, rfl, rfl, rfl, rfl, ppbEmpty_replicate rfl, rfl, rfl⟩

/-- Settles O4. -/
theorem requestIsHeldOffWhileBusy : Obligations.RequestIsHeldOffWhileBusy := fun _ _ _ hb hh => step_host_busy hh hb

/-- Settles O6: the one-byte case of `decode` is the decoder of operation codes, and the state written out is `accept`'s. -/
theorem stepRunsTheRequestedOperation : Obligations.StepRunsTheRequestedOperation := by
  intro s r rest i hb hd
  exact (step_host (s := { s with host := .host r :: rest }) rfl hb).trans (runRequest_ok _ hd)

end Sys2Proof.Machine
end

section
/-! PROOFS of the family 20_memory.md: addresses under their masks (R54, R55), and the
wrap at the end of a region (R56). -/

namespace Sys2Proof.Machine

/-! ## Addresses under their masks -/

/-- Settles O13: the constants by definition, their derivations region by region. -/
theorem regionConstantsFollowTheGeometry : Obligations.RegionConstantsFollowTheGeometry :=
  ⟨rfl, rfl, rfl, rfl, rfl, rfl, rfl, rfl, rfl, rfl, rfl, rfl, fun r => by cases r <;> decide⟩

section
variable (r : Region) (a : Half)

@[simp] theorem wholeAddr_and_full : wholeAddr r (a &&& r.full) = wholeAddr r a := by
  rw [wholeAddr, BitVec.and_assoc, BitVec.and_self, wholeAddr]

@[simp] theorem pageOf_and_page : pageOf r (a &&& r.page) = pageOf r a := by
  rw [pageOf, BitVec.and_assoc, BitVec.and_self, pageOf]

@[simp] theorem offsetOf_and_offs : offsetOf r (a &&& r.offs) = offsetOf r a := by
  rw [offsetOf, BitVec.and_assoc, BitVec.and_self, offsetOf]

/-- PAGE lies within FULL (R54). -/
@[simp] theorem pageOf_and_full : pageOf r (a &&& r.full) = pageOf r a := by
  have h : r.full &&& r.page = r.page := by cases r <;> decide
  rw [pageOf, BitVec.and_assoc, h, pageOf]

/-- OFFS lies within FULL (R54). -/
@[simp] theorem offsetOf_and_full : offsetOf r (a &&& r.full) = offsetOf r a := by
  have h : r.full &&& r.offs = r.offs := by cases r <;> decide
  rw [offsetOf, BitVec.and_assoc, h, offsetOf]

end

section
variable {r : Region} {a b : Half}

/-- A unit read sees its address under FULL alone (R55). -/
theorem readUnit_congr (h : wholeAddr r a = wholeAddr r b) (s : State) : readUnit r a s = readUnit r b s := by
  cases r <;> simp only [readUnit, sendReadProgLo, sendReadProgHi, sendReadEep, h]

/-- A commit sees its address under PAGE alone (R55). -/
theorem commit_congr (h : pageOf r a = pageOf r b) (s : State) : commit r a s = commit r b s := by
  cases r <;> simp only [commit, sendCommitProg, sendCommitEep, h]

/-- A load sees its address under OFFS alone (R55). -/
theorem loadUnit_congr (h : offsetOf r a = offsetOf r b) (v : Half) (s : State) : loadUnit r a v s = loadUnit r b v s := by
  cases r <;> simp only [loadUnit, sendLoadProgLo, sendLoadProgHi, sendLoadEep, h]

end

/-- Settles O14: each primitive sees the address under its own mask, which does not see the mask of the statement. -/
theorem addressesAreMaskedNeverRejected : Obligations.AddressesAreMaskedNeverRejected := fun r a v s =>
  ⟨readUnit_congr (wholeAddr_and_full r a).symm s,
    commit_congr (pageOf_and_page r a).symm s, commit_congr (pageOf_and_full r a).symm s,
    loadUnit_congr (offsetOf_and_offs r a).symm v s, loadUnit_congr (offsetOf_and_full r a).symm v s⟩

/-! ## Runs that start at addresses equal under FULL (R56) -/

/-- Two addresses that FULL does not tell apart. -/
def SameUnderFull (r : Region) (a b : Half) : Prop := a &&& r.full = b &&& r.full

section
variable {r : Region} {a b : Half}

theorem sameUnderFull_and_full (r : Region) (a : Half) : SameUnderFull r a (a &&& r.full) := (wholeAddr_and_full r a).symm

theorem SameUnderFull.symm (h : SameUnderFull r a b) : SameUnderFull r b a := Eq.symm h

/-- The wrap at the end of the region commutes with stepping through it: FULL is one less than a power of two (R54). -/
theorem SameUnderFull.add (h : SameUnderFull r a b) (k : Half) : SameUnderFull r (a + k) (b + k) := by
  have h := congrArg BitVec.toNat h
  simp only [full_toNat] at h
  apply BitVec.eq_of_toNat_eq
  simp only [full_toNat, BitVec.toNat_add]
  cases r <;> simp only [Region.full, BitVec.reduceToNat, BitVec.ofNat_eq_ofNat] at h ⊢ <;> omega

theorem SameUnderFull.pageOf (h : SameUnderFull r a b) : pageOf r a = pageOf r b := by
  rw [← pageOf_and_full r a, h, pageOf_and_full]

theorem SameUnderFull.offsetOf (h : SameUnderFull r a b) : offsetOf r a = offsetOf r b := by
  rw [← offsetOf_and_full r a, h, offsetOf_and_full]

end

/-- The state with another operand address and another page address. -/
def State.relocate (s : State) (a p : Half) : State := { s with addr := a, pa := p }

/-! Operations that read neither of the two addresses and write neither. -/

section
variable (s : State) (a p : Half)

theorem frame_relocate (b0 b1 b2 b3 : Byte) : frame b0 b1 b2 b3 (s.relocate a p) = (frame b0 b1 b2 b3 s).relocate a p := rfl
theorem stage_relocate (o v : Half) : stage o v (s.relocate a p) = (stage o v s).relocate a p := rfl
theorem clearPpb_relocate : clearPpb (s.relocate a p) = (clearPpb s).relocate a p := rfl

theorem loadUnit_relocate (r : Region) (x v : Half) : loadUnit r x v (s.relocate a p) = (loadUnit r x v s).relocate a p := by
  cases r <;>
    simp only [loadUnit, sendLoadProgLo, sendLoadProgHi, sendLoadEep, frame_relocate, stage_relocate]

theorem commit_relocate (r : Region) (x : Half) : commit r x (s.relocate a p) = (commit r x s).relocate a p := by
  cases r <;> simp only [commit, sendCommitProg, sendCommitEep, frame_relocate, clearPpb_relocate]

theorem readUnit_relocate (r : Region) (x : Half) :
    readUnit r x (s.relocate a p) = ((readUnit r x s).1, (readUnit r x s).2.relocate a p) := by
  cases r <;> simp only [readUnit, sendReadProgLo, sendReadProgHi, sendReadEep, frame_relocate] <;> rfl

end

/-- The two states differ in the operand address and the page address alone, and in these not under FULL. -/
def Aliased (r : Region) (s u : State) : Prop :=
  ∃ a p, u = s.relocate a p ∧ SameUnderFull r s.addr a ∧ SameUnderFull r s.pa p

section
variable {r : Region} {s u : State}

theorem aliased_and_full (r : Region) (s : State) : Aliased r s { s with addr := s.addr &&& r.full } :=
  ⟨s.addr &&& r.full, s.pa, rfl, sameUnderFull_and_full r s.addr, rfl⟩

/-- What reads and writes neither address keeps the alias. -/
theorem Aliased.map {f : State → State} (hf : ∀ s a p, f (s.relocate a p) = (f s).relocate a p) (h : Aliased r s u) :
    Aliased r (f s) (f u) := by
  obtain ⟨a, p, rfl, ha, hp⟩ := h
  have hs : f s = (f s).relocate s.addr s.pa := hf s s.addr s.pa
  refine ⟨a, p, hf s a p, ?_, ?_⟩
  · rw [hs]; exact ha
  · rw [hs]; exact hp

/-- Two aliased states look alike to all but the two addresses. -/
theorem Aliased.eq (h : Aliased r s u) : u = { s with addr := u.addr, pa := u.pa } := by
  obtain ⟨a, p, rfl, -⟩ := h
  rfl

/-- The unit loaded next goes to the same slot: OFFS lies within FULL. -/
theorem Aliased.loadNext (h : Aliased r s u) : Aliased r (loadNext r s) (loadNext r u) := by
  have h' := h
  obtain ⟨a, p, rfl, -, hp⟩ := h'
  have hslot : Machine.loadNext r (s.relocate a p) =
      advanceIndex (loadUnit r (s.pa + s.i.setWidth 16) (hostValue s (s.k.toNat + s.i.toNat)) (s.relocate a p)) :=
    congrArg advanceIndex (loadUnit_congr (hp.symm.add _).offsetOf _ _)
  rw [hslot]
  exact (h.map (f := loadUnit r _ _) fun s a p => loadUnit_relocate s a p ..).map (f := advanceIndex) fun _ _ _ => rfl

theorem Aliased.loadUnits (n : Nat) (h : Aliased r s u) : Aliased r (loadUnits r n s) (loadUnits r n u) := by
  induction n generalizing s u with
  | zero => exact h
  | succ n ih => exact ih h.loadNext

/-- The same page is committed: PAGE lies within FULL. -/
theorem Aliased.commitPage (h : Aliased r s u) : Aliased r (commitPage r s) (commitPage r u) := by
  have h' := h
  obtain ⟨a, p, rfl, -, hp⟩ := h'
  have hpage : Machine.commitPage r (s.relocate a p) = waitFor r.wr (commit r s.pa (s.relocate a p)) :=
    congrArg (waitFor r.wr) (commit_congr hp.symm.pageOf _)
  rw [hpage]
  exact (h.map (f := commit r s.pa) fun s a p => commit_relocate s a p ..).map (f := waitFor r.wr) fun _ _ _ => rfl

theorem Aliased.nextPage (h : Aliased r s u) : Aliased r (nextPage r s) (nextPage r u) := by
  obtain ⟨a, p, rfl, ha, hp⟩ := h
  exact ⟨a, p + BitVec.ofNat 16 r.upp, rfl, ha, hp.add _⟩

theorem Aliased.writeChunk (h : Aliased r s u) : Aliased r (writeChunk r s) (writeChunk r u) := by
  have hn : chunkSize r u = chunkSize r s := by rw [h.eq]; rfl
  rw [Machine.writeChunk, Machine.writeChunk, hn]
  have hloads := (h.map (f := firstIndex) fun _ _ _ => rfl).loadUnits (chunkSize r s)
  exact (hloads.map (f := advanceValues (chunkSize r s)) fun _ _ _ => rfl).commitPage.nextPage

theorem Aliased.writeLoop (n : Nat) (h : Aliased r s u) : Aliased r (writeLoop r n s) (writeLoop r n u) := by
  induction n generalizing s u with
  | zero => exact h
  | succ n ih =>
    have hk : u.k = s.k := by rw [h.eq]
    have hc : u.count = s.count := by rw [h.eq]
    rw [Machine.writeLoop, Machine.writeLoop, hk, hc]
    split
    · exact ih h.writeChunk
    · exact h

/-- A write takes its first page address from the operand address. -/
theorem Aliased.writePages (h : Aliased r s u) : Aliased r (writePages r s) (writePages r u) := by
  obtain ⟨a, p, rfl, ha, -⟩ := h
  exact .writeLoop s.count.toNat ⟨a, a, rfl, ha, ha⟩

/-- The unit read next is the same: it is read under FULL. -/
theorem Aliased.readNext (h : Aliased r s u) : Aliased r (readNext r s) (readNext r u) := by
  obtain ⟨a, p, rfl, ha, hp⟩ := h
  obtain ⟨-, -, hkept, -, -, hpa, -⟩ := readNext_spec r s
  refine ⟨a, p, ?_, hkept.addr ▸ ha, hpa ▸ hp⟩
  have hunit : readUnit r (a + (s.k - 1)) (lowerIndex (s.relocate a p)) =
      readUnit r (s.addr + (s.k - 1)) ((lowerIndex s).relocate a p) := readUnit_congr (ha.symm.add _) _
  rw [readUnit_relocate] at hunit
  exact congrArg (fun q => deliver q.1 q.2) hunit

theorem Aliased.readLoop (n : Nat) (h : Aliased r s u) : Aliased r (readLoop r n s) (readLoop r n u) := by
  induction n generalizing s u with
  | zero => exact h
  | succ n ih => exact ih h.readNext

theorem Aliased.readUnits (h : Aliased r s u) : Aliased r (readUnits r s) (readUnits r u) := by
  have hc : u.count = s.count := by rw [h.eq]
  rw [Machine.readUnits, Machine.readUnits, hc]
  exact (h.map (f := beginReads) fun _ _ _ => rfl).readLoop _


/-- A read leaves the page address alone, so aliased states that agree in it still do. -/
theorem Aliased.readUnits_eq (h : Aliased r s u) (hp : u.pa = s.pa) :
    Machine.readUnits r u = { Machine.readUnits r s with addr := (Machine.readUnits r u).addr } := by
  obtain ⟨-, -, -, -, hpu, -⟩ := readUnits_spec r u
  obtain ⟨-, -, -, -, hps, -⟩ := readUnits_spec r s
  have e := h.readUnits.eq
  rw [hpu, hp, ← hps] at e
  exact e

end

theorem idle_or_programming (s : State) : s.mode = .idle ∨ s.mode = .programming := by cases s.mode <;> simp

/-- The page write operation on a state in Programming. -/
theorem exec_writeOp (r : Region) {s : State} (hm : s.mode = .programming) :
    exec (writeOp r) s = .next (complete .ok 0 (writePages r s)) := by
  cases r <;> exact congrArg Host.Outcome.next (if_pos hm)

/-- The unit read operation on a state in Programming. -/
theorem exec_readOp (r : Region) {s : State} (hm : s.mode = .programming) :
    exec (readOp r) s = .next (complete .ok 0 (readUnits r s)) := by
  cases r <;> exact congrArg Host.Outcome.next (if_pos hm)

/-- Settles O35: the two runs stay aliased, pass by pass; in Idle both are rejected. -/
theorem addressesWrapAtTheEndOfTheRegion : Obligations.AddressesWrapAtTheEndOfTheRegion := by
  intro r s
  have halias := aliased_and_full r s
  rcases idle_or_programming s with hm | hm
  · have hw : (writeOp r).guarded = true := by cases r <;> rfl
    have hr : (readOp r).guarded = true := by cases r <;> rfl
    exact ⟨⟨_, _, exec_rejected _ s hw hm, exec_rejected _ _ hw hm, rfl⟩,
      ⟨_, _, exec_rejected _ s hr hm, exec_rejected _ _ hr hm, rfl⟩⟩
  · refine ⟨⟨_, _, exec_writeOp r hm, exec_writeOp r hm, ?_⟩, ⟨_, _, exec_readOp r hm, exec_readOp r hm, ?_⟩⟩
    · exact (halias.writePages.map (f := complete .ok 0) fun _ _ _ => rfl).eq
    · exact congrArg (complete .ok 0) (halias.readUnits_eq rfl)

end Sys2Proof.Machine
end

section
/-! PROOFS of the family 20_memory.md, continued: the reference target under single frames, resets and waits (R70 to R77). -/

namespace Sys2Proof.Machine

/-! ## Frames that read (R75) -/

/-- Environment `f` is a target that stands ready and holds every byte as `e` does. -/
structure Env.LeftAlone (e f : Env) : Prop where
  ready : f.Ready
  peek : ∀ sp x, f.peek sp x = e.peek sp x

theorem Env.LeftAlone.refl {e : Env} (h : e.Ready) : e.LeftAlone e := ⟨h, fun _ _ => rfl⟩

theorem Env.LeftAlone.trans {e f g : Env} (h : e.LeftAlone f) (h' : f.LeftAlone g) : e.LeftAlone g :=
  ⟨h'.ready, fun sp x => (h'.peek sp x).trans (h.peek sp x)⟩

/-- These four bytes are a read frame that asks for byte `x` of space `sp`. -/
structure AsksFor (p : Params) (sp : Space) (x : Nat) (b0 b1 b2 b3 : Byte) : Prop where
  readsOnly : readsOnly p b0 b1 b2 b3 = true
  notPoll : isPoll b0 b1 b2 b3 = false
  answer : ∀ t : Target, t.answer p b0 b1 b2 b3 = (t.space sp).read x

/-- A ready target answers a read frame with the byte asked for, if it is known, and is left alone. -/
theorem AsksFor.frame {s : State} {sp : Space} {x : Nat} {b0 b1 b2 b3 : Byte} (hf : AsksFor s.par sp x b0 b1 b2 b3)
    (h : s.env.Ready) :
    (∀ v, s.env.peek sp x = some v → (frame b0 b1 b2 b3 s).resp.b3 = v) ∧ s.env.LeftAlone (frame b0 b1 b2 b3 s).env := by
  obtain ⟨t, hs, ht⟩ := h.exists
  obtain ⟨hv, hr, hp⟩ := frame_reads hs ht b0 b1 b2 b3 x sp hf.readsOnly hf.notPoll (hf.answer t)
  exact ⟨hv, hr, hp⟩

section
variable (p : Params) (a : Half)

theorem asksFor_readProgLo :
    AsksFor p .prog (2 * (wholeAddr .prog a).toNat) 0x20 (hiByte (wholeAddr .prog a)) (loByte (wholeAddr .prog a)) 0 where
  readsOnly := by simp [readsOnly]
  notPoll := by simp [isPoll]
  answer t := by simp [Target.answer, Target.space, wholeAddr, BitVec.and_assoc]

theorem asksFor_readProgHi :
    AsksFor p .prog (2 * (wholeAddr .prog a).toNat + 1) 0x28 (hiByte (wholeAddr .prog a)) (loByte (wholeAddr .prog a)) 0 where
  readsOnly := by simp [readsOnly]
  notPoll := by simp [isPoll]
  answer t := by simp [Target.answer, Target.space, wholeAddr, BitVec.and_assoc]

theorem asksFor_readEep : AsksFor p .eep (wholeAddr .eep a).toNat 0xA0 0 (loByte (wholeAddr .eep a)) 0 where
  readsOnly := by simp [readsOnly]
  notPoll := by simp [isPoll]
  answer t := by
    have hsent : ofBytes 0 (loByte (wholeAddr .eep a)) = wholeAddr .eep a := ofBytes_zero_lo a _ (by decide)
    have hmask : wholeAddr .eep (wholeAddr .eep a) = wholeAddr .eep a := wholeAddr_and_full .eep a
    simp only [BitVec.ofNat_eq_ofNat] at hsent
    simp [Target.answer, Target.space, hsent, hmask]

theorem asksFor_readSig (x : BitVec 2) : AsksFor p .sig x.toNat 0x30 0 (x.setWidth 8) 0 :=
  ⟨readsOnly_sig p x, by simp [isPoll], fun t => answer_sig t p x⟩

theorem asksFor_readCal (x : BitVec 1) : AsksFor p .cal x.toNat 0x38 0 (x.setWidth 8) 0 :=
  ⟨readsOnly_cal p x, by simp [isPoll], fun t => answer_cal t p x⟩

theorem asksFor_readLock : AsksFor p .lock 0 0x58 0 0 0 where
  readsOnly := by simp [readsOnly]
  notPoll := by simp [isPoll]
  answer t := by simp [Target.answer, Target.space]

/-- The fuse reads of a table that tells its frames apart (44_ancillary.md R211). -/
theorem asksFor_readFuse (h : p.fuseRd.WellFormed) :
    AsksFor p .fuse 0 p.fuseRd.low.opcode.byte p.fuseRd.low.hi 0 0 ∧
    AsksFor p .fuse 1 p.fuseRd.high.opcode.byte p.fuseRd.high.hi 0 0 ∧
    AsksFor p .fuse 2 p.fuseRd.ext.opcode.byte p.fuseRd.ext.hi 0 0 := by
  obtain ⟨-, hlh, hhe, hle, hl, hh, he⟩ := h
  refine ⟨⟨readsOnly_fuse p _ (.inl rfl), isPoll_fuse _, fun t => ?_⟩,
    ⟨readsOnly_fuse p _ (.inr (.inl rfl)), isPoll_fuse _, fun t => ?_⟩,
    ⟨readsOnly_fuse p _ (.inr (.inr rfl)), isPoll_fuse _, fun t => ?_⟩⟩
  · rw [answer_fuse t p _ hl, if_pos rfl]; rfl
  · rw [answer_fuse t p _ hh, if_neg hlh.symm, if_pos rfl]; rfl
  · rw [answer_fuse t p _ he, if_neg hle.symm, if_neg hhe.symm, if_pos rfl]; rfl

end

/-- An instruction with a source is a frame that asks for it. -/
theorem exec_asksFor {i : Instr} {sp : Space} {x : Nat} (s : State) (hw : s.par.fuseRd.WellFormed)
    (hi : sourceOf i = some (sp, x)) :
    ∃ b0 b1 b2 b3, exec i s = .next (frame b0 b1 b2 b3 s) ∧ AsksFor s.par sp x b0 b1 b2 b3 := by
  obtain ⟨hlo, hhi, hext⟩ := asksFor_readFuse s.par hw
  cases i <;> cases hi
  case readProgLo a => exact ⟨_, _, _, _, rfl, asksFor_readProgLo s.par a⟩
  case readProgHi a => exact ⟨_, _, _, _, rfl, asksFor_readProgHi s.par a⟩
  case readEep a => exact ⟨_, _, _, _, rfl, asksFor_readEep s.par a⟩
  case readSig x => exact ⟨_, _, _, _, rfl, asksFor_readSig s.par x⟩
  case readCal x => exact ⟨_, _, _, _, rfl, asksFor_readCal s.par x⟩
  case readLock => exact ⟨_, _, _, _, rfl, asksFor_readLock s.par⟩
  case readFuseLo => exact ⟨_, _, _, _, rfl, hlo⟩
  case readFuseHi => exact ⟨_, _, _, _, rfl, hhi⟩
  case readFuseExt => exact ⟨_, _, _, _, rfl, hext⟩

/-- Settles O50: the instruction is a frame that asks for its source. -/
theorem readyTargetAnswersReads : Obligations.ReadyTargetAnswersReads := by
  intro i s sp x hr hw hi
  obtain ⟨b0, b1, b2, b3, hx, hf⟩ := exec_asksFor s hw hi
  obtain ⟨hv, hl⟩ := hf.frame hr
  exact ⟨_, hx, hv, hl.ready, hl.peek⟩

/-! ## Operations that only read (R61, R75) -/

/-- A read frame or the poll frame. -/
def Cmd.harmless (p : Params) : Cmd → Bool
  | .frame b0 b1 b2 b3 => readsOnly p b0 b1 b2 b3 || isPoll b0 b1 b2 b3
  | .wait _ | .enable | .disable | .line _ => false

theorem serve_harmless (t : Target) (p : Params) (b0 b1 b2 b3 : Byte) (h : (Cmd.frame b0 b1 b2 b3).harmless p = true) :
    t.serve p b0 b1 b2 b3 = .reference t := by
  rcases Bool.or_eq_true_iff.mp h with h | h
  · exact serve_readsOnly p b0 b1 b2 b3 h
  · simp only [isPoll, Bool.and_eq_true, beq_iff_eq] at h
    obtain ⟨⟨⟨rfl, rfl⟩, rfl⟩, rfl⟩ := h
    exact serve_poll t p

theorem act_harmless {p : Params} {c : Cmd} {b : Bus} (h : b.env.Ready) (hc : c.harmless p = true) :
    b.env.LeftAlone (b.act p c).env := by
  cases c with
  | frame b0 b1 b2 b3 =>
    obtain ⟨t, hb, ht⟩ := h.exists
    rw [act_frame_ready p hb ht, serve_harmless _ _ _ _ _ _ hc, hb]
    exact ⟨ht, fun sp x => by rw [peek_reference, peek_reference, settled_space]⟩
  | wait k | enable | disable | line l => exact absurd hc Bool.false_ne_true

theorem play_harmless {p : Params} {cs : List Cmd} {b : Bus} (h : b.env.Ready) (hc : ∀ c ∈ cs, c.harmless p = true) :
    b.env.LeftAlone (b.play p cs).env := by
  induction cs generalizing b with
  | nil => exact .refl h
  | cons c cs ih =>
    have hact := act_harmless h (hc c (by simp))
    exact hact.trans (ih hact.ready fun d hd => hc d (by simp [hd]))

theorem readAllCmds_harmless (p : Params) (r : Region) (a : Half) (n : Nat) :
    ∀ c ∈ readAllCmds r a n, c.harmless p = true := by
  intro c hc
  obtain ⟨q, -, hq⟩ := List.mem_flatMap.mp hc
  cases r
  · simp only [readCmds, List.mem_cons, List.not_mem_nil, or_false] at hq
    rcases hq with rfl | rfl <;> simp [Cmd.harmless, readsOnly]
  · simp only [readCmds, List.mem_singleton] at hq
    subst hq
    simp [Cmd.harmless, readsOnly]

theorem opCmds_harmless {i : Instr} (s : State) (hi : i ∈ [Instr.rdprog, .rdeep, .rdlock, .rdsig, .rdfuse, .rdcal, .poll]) :
    ∀ c ∈ opCmds i s, c.harmless s.par = true := by
  simp only [List.mem_cons, List.not_mem_nil, or_false] at hi
  rcases hi with rfl | rfl | rfl | rfl | rfl | rfl | rfl
  · exact readAllCmds_harmless s.par .prog _ _
  · exact readAllCmds_harmless s.par .eep _ _
  all_goals simp [opCmds, Cmd.harmless, readsOnly, isPoll]

/-- Settles O53: such an operation plays harmless frames alone, or, rejected, nothing. -/
theorem readOperationsLeaveTheTargetAlone : Obligations.ReadOperationsLeaveTheTargetAlone := by
  intro i s hi hr
  obtain ⟨t, cs, ht, -, hb, hcs⟩ := exec_cases i s
  have hc : ∀ c ∈ cs, c.harmless s.par = true := by
    rcases hcs with rfl | ⟨rfl, -⟩ | ⟨-, -, rfl⟩
    · exact opCmds_harmless s hi
    · exact absurd hi (by decide)
    · simp
  have henv : t.env = (s.bus.play s.par cs).env := congrArg Bus.env hb
  have hl := play_harmless (b := s.bus) hr hc
  exact ⟨t, ht, henv ▸ hl.ready, henv ▸ hl.peek⟩

/-! ## Frames that store one byte (R72, R74) -/

/-- Environment `f` is a target that stands ready and holds `v` at byte `x` of space `sp`, every other byte as `e` does. -/
structure Env.Stores (e f : Env) (sp : Space) (x : Nat) (v : Byte) : Prop where
  ready : f.Ready
  peek : ∀ sp' x', f.peek sp' x' = if sp' = sp ∧ x' = x then some v else e.peek sp' x'

/-- What a ready target is once a frame has started an internal write: ready but for that write (R74). -/
theorem Target.Ready.writing {t : Target} (h : t.Ready) (k : WaitKind) :
    t.bus = true ∧ t.enabled = true ∧ some k = some k ∧ t.got = [] := by
  obtain ⟨hbus, henabled, -, hgot⟩ := h
  exact ⟨hbus, henabled, rfl, hgot⟩

/-- A memory of the target written at one address. -/
theorem stores_of_write {t u : Target} {sp : Space} {x : Nat} {v : Byte} (hu : u.Ready) (hx : u.space sp = (t.space sp).write x v)
    (ho : ∀ sp', sp' ≠ sp → u.space sp' = t.space sp') : (Env.reference t).Stores (.reference u) sp x v where
  ready := hu
  peek sp' x' := by
    rw [peek_reference, peek_reference]
    by_cases h : sp' = sp
    · subst h; simp [hx, Memory.read_write]
    · simp [ho sp' h, h]

/-- The in-page offset a load frame carries is that of its operand (R55). -/
theorem offsetOf_sent (r : Region) (a : Half) : offsetOf r (ofBytes 0 (loByte (offsetOf r a))) = offsetOf r a := by
  have hsent : ofBytes 0 (loByte (offsetOf r a)) = offsetOf r a := ofBytes_zero_lo a r.offs (by cases r <;> decide)
  rw [hsent]
  exact offsetOf_and_offs r a

section
variable {s : State} (h : s.env.Ready) (a : Half) (d : Byte)
include h

theorem sendLoadProgLo_stores : s.env.Stores (sendLoadProgLo a d s).env .progLatch (2 * (offsetOf .prog a).toNat) d := by
  obtain ⟨t, hs, ht⟩ := h.exists
  rw [sendLoadProgLo, frame_env_ready hs ht, serve_loadProgLo, offsetOf_sent, hs]
  refine stores_of_write ht rfl fun sp hsp => ?_
  cases sp with
  | progLatch => exact absurd rfl hsp
  | _ => rfl

theorem sendLoadProgHi_stores : s.env.Stores (sendLoadProgHi a d s).env .progLatch (2 * (offsetOf .prog a).toNat + 1) d := by
  obtain ⟨t, hs, ht⟩ := h.exists
  rw [sendLoadProgHi, frame_env_ready hs ht, serve_loadProgHi, offsetOf_sent, hs]
  refine stores_of_write ht rfl fun sp hsp => ?_
  cases sp with
  | progLatch => exact absurd rfl hsp
  | _ => rfl

theorem sendLoadEep_stores : s.env.Stores (sendLoadEep a d s).env .eepLatch (offsetOf .eep a).toNat d := by
  obtain ⟨t, hs, ht⟩ := h.exists
  rw [sendLoadEep, frame_env_ready hs ht, serve_loadEep, offsetOf_sent, hs]
  refine stores_of_write ht rfl fun sp hsp => ?_
  cases sp with
  | eepLatch => exact absurd rfl hsp
  | _ => rfl

/-- A lock byte written and its wait (44_ancillary.md R207). -/
theorem writeLock_stores (hT : s.par.tLock ≠ 0) : s.env.Stores (waitFor .lock (sendWriteLock d s)).env .lock 0 d := by
  obtain ⟨t, hs, ht⟩ := h.exists
  obtain ⟨w, hw, hr, hsp⟩ := frame_then_wait hs ht 0xAC 0xE0 0 d .lock (by decide) hT (serve_writeLock _ _ d)
    (ht.writing _)
  rw [sendWriteLock, hw, hs]
  refine stores_of_write hr (hsp _) fun sp hne => (hsp sp).trans ?_
  cases sp with
  | lock => exact absurd rfl hne
  | _ => rfl

/-- A fuse byte written and its wait (44_ancillary.md R209), for each of the three frames. -/
theorem writeFuse_stores (hT : s.par.tFuse ≠ 0) {b1 : Byte} {x : Nat} (hserve : ∀ t : Target, t.serve s.par 0xAC b1 0 d =
    .reference { t with fuse := t.fuse.write x d, busy := some .fuse }) :
    s.env.Stores (waitFor .fuse (frame 0xAC b1 0 d s)).env .fuse x d := by
  obtain ⟨t, hs, ht⟩ := h.exists
  obtain ⟨w, hw, hr, hsp⟩ := frame_then_wait hs ht 0xAC b1 0 d .fuse (by decide) hT (hserve _)
    (ht.writing _)
  rw [hw, hs]
  refine stores_of_write hr (hsp _) fun sp hne => (hsp sp).trans ?_
  cases sp with
  | fuse => exact absurd rfl hne
  | _ => rfl

end

/-- Settles O51, one load frame after the other. -/
theorem readyTargetStagesLoads : Obligations.ReadyTargetStagesLoads := by
  intro a d s h
  have hlo := sendLoadProgLo_stores h a d
  have hhi := sendLoadProgHi_stores h a d
  have heep := sendLoadEep_stores h a d
  exact ⟨⟨_, rfl, hlo.ready, hlo.peek⟩, ⟨_, rfl, hhi.ready, hhi.peek⟩, ⟨_, rfl, heep.ready, heep.peek⟩⟩

/-! ## Lock and fuse bytes read back (R74) -/

/-- RDLOCK on a ready target that holds a known lock byte (44_ancillary.md R206). -/
theorem rdlock_known {s : State} (h : s.env.Ready) {v : Byte} (hv : s.env.peek .lock 0 = some v) :
    (rdlockBody s).result = v.setWidth 32 ∧ s.env.LeftAlone (rdlockBody s).env := by
  obtain ⟨hb, hl⟩ := (asksFor_readLock s.par).frame h
  exact ⟨congrArg resultByte (hb v hv), hl⟩

/-- Three bytes, the first in the lowest place (44_ancillary.md R211). -/
theorem resultBytes_three (a b c : Byte) :
    resultBytes [a, b, c] = a.setWidth 32 ||| b.setWidth 32 <<< 8 ||| c.setWidth 32 <<< 16 := by
  simp [resultBytes, BitVec.shiftLeft_or_distrib, BitVec.or_assoc, ← BitVec.shiftLeft_add]

/-- RDFUSE on a ready target that holds three known fuse bytes (44_ancillary.md R211). -/
theorem rdfuse_known {s : State} (h : s.env.Ready) (hw : s.par.fuseRd.WellFormed) {a b c : Byte}
    (ha : s.env.peek .fuse 0 = some a) (hb : s.env.peek .fuse 1 = some b) (hc : s.env.peek .fuse 2 = some c) :
    (rdfuseBody s).result = a.setWidth 32 ||| b.setWidth 32 <<< 8 ||| c.setWidth 32 <<< 16 ∧
      s.env.LeftAlone (rdfuseBody s).env := by
  obtain ⟨hlo, hhi, hext⟩ := asksFor_readFuse s.par hw
  obtain ⟨v0, l0⟩ := hlo.frame h
  obtain ⟨v1, l1⟩ := AsksFor.frame (s := sendReadFuseLo s) hhi l0.ready
  obtain ⟨v2, l2⟩ := AsksFor.frame (s := sendReadFuseHi (sendReadFuseLo s)) hext l1.ready
  have l01 := l0.trans l1
  refine ⟨?_, l01.trans l2⟩
  have e0 := v0 a ha
  have e1 := v1 b ((l0.peek .fuse 1).trans hb)
  have e2 := v2 c ((l01.peek .fuse 2).trans hc)
  rw [← resultBytes_three, ← e0, ← e1, ← e2]
  rfl

theorem wrfuseBody_mode (s : State) : (wrfuseBody s).mode = s.mode := by
  simp only [wrfuseBody, sendWriteFuseLo, sendWriteFuseHi, sendWriteFuseExt, complete_mode, waitFor_mode, frame_mode]

/-- Settles O56: what the writes store is what the reads find. -/
theorem lockAndFuseBytesReadBack : Obligations.LockAndFuseBytesReadBack := by
  intro s hm h hw
  refine ⟨fun hT => ?_, fun hT => ?_⟩
  · have hst := writeLock_stores h s.d0 hT
    obtain ⟨hres, hl⟩ := rdlock_known (s := wrlockBody s) hst.ready ((hst.peek .lock 0).trans (if_pos ⟨rfl, rfl⟩))
    refine ⟨_, _, congrArg Host.Outcome.next (if_pos hm), congrArg Host.Outcome.next (if_pos hm), hres, fun sp x hsp => ?_⟩
    exact (hl.peek sp x).trans ((hst.peek sp x).trans (if_neg fun h => hsp h.1))
  · have h0 := writeFuse_stores h s.d0 hT (serve_writeFuseLo · _ _)
    have h1 := writeFuse_stores h0.ready s.d1 hT (serve_writeFuseHi · _ _)
    have h2 := writeFuse_stores h1.ready s.d2 hT (serve_writeFuseExt · _ _)
    have peek (sp : Space) (x : Nat) : (wrfuseBody s).env.peek sp x = _ := h2.peek sp x
    simp only [h1.peek, h0.peek] at peek
    obtain ⟨hres, hl⟩ := rdfuse_known (s := wrfuseBody s) h2.ready hw (peek .fuse 0) (peek .fuse 1) (peek .fuse 2)
    have hm' : (wrfuseBody s).mode = .programming := (wrfuseBody_mode s).trans hm
    refine ⟨_, _, congrArg Host.Outcome.next (if_pos hm), congrArg Host.Outcome.next (if_pos hm'), hres, fun sp x hsp => ?_⟩
    rw [hl.peek, peek]
    simp [hsp]

/-! ## Commits (R73, R74) -/

/-- The wait that covers the internal write in progress leaves the target ready. -/
theorem waitFor_ready {s : State} {u : Target} (hs : s.env = .reference u) {k : WaitKind} (hk : k ≠ .reset)
    (hT : s.par.ticks k ≠ 0) (hu : u.bus = true ∧ u.enabled = true ∧ u.busy = some k ∧ u.got = []) : (waitFor k s).env.Ready := by
  obtain ⟨hwait, hready⟩ := wait_ready s.par k hk hT hu
  rw [waitFor_env, hs, hwait]
  exact hready

section
variable {s : State} {t : Target} (hs : s.env = .reference t) (h : t.Ready) (a : Half)
include hs h

theorem sendCommitProg_env : (sendCommitProg a s).env = .reference { t.settled with
    pmem := commitWords t.plat (pageOf .prog a).toNat 16 t.pmem, plat := [], busy := some .wrProg } := by
  rw [sendCommitProg, frame_env_ready hs h, serve_commitProg, pageOf_sent_prog _ _ a rfl rfl]
  rfl

theorem sendCommitEep_env : (sendCommitEep a s).env = .reference { t.settled with
    emem := commitBytes t.elat (pageOf .eep a).toNat 4 t.emem, elat := [], busy := some .wrEep } := by
  rw [sendCommitEep, frame_env_ready hs h, serve_commitEep, pageOf_sent_eep]
  rfl

theorem sendCommitProg_waited (hT : s.par.tWrProg ≠ 0) : (waitFor .wrProg (sendCommitProg a s)).env.Ready :=
  waitFor_ready (sendCommitProg_env hs h a) (by decide) hT (h.writing _)

theorem sendCommitEep_waited (hT : s.par.tWrEep ≠ 0) : (waitFor .wrEep (sendCommitEep a s)).env.Ready :=
  waitFor_ready (sendCommitEep_env hs h a) (by decide) hT (h.writing _)

/-- Program memory after a commit of program memory: the page takes what was latched for it. -/
theorem peek_prog_sendCommitProg (hw : t.WF) (x : Nat) : (sendCommitProg a s).env.peek .prog x =
    if 2 * (pageOf .prog a).toNat ≤ x ∧ x < 2 * ((pageOf .prog a).toNat + 16) then
      latched t.plat (x / 2 - (pageOf .prog a).toNat) (x % 2)
    else s.env.peek .prog x := by
  have hp := pageOf_prog_le a
  rw [sendCommitProg_env hs h, hs]
  exact read_commitWords t.plat _ 16 x hw.pmem (by omega)

/-- Byte `b` (0 low, 1 high) of slot `o` of the committed page. -/
theorem peek_slot_sendCommitProg (hw : t.WF) {o b : Nat} (ho : o < 16) (hb : b < 2) :
    (sendCommitProg a s).env.peek .prog (2 * ((pageOf .prog a).toNat + o) + b) = latched t.plat o b := by
  rw [peek_prog_sendCommitProg hs h a hw, if_pos (by omega)]
  congr 1 <;> omega

/-- Data memory after a commit of data memory: the page takes the page buffer. -/
theorem peek_eep_sendCommitEep (hw : t.WF) (x : Nat) : (sendCommitEep a s).env.peek .eep x =
    if (pageOf .eep a).toNat ≤ x ∧ x < (pageOf .eep a).toNat + 4 then s.env.peek .eepLatch (x - (pageOf .eep a).toNat)
    else s.env.peek .eep x := by
  have hp := pageOf_eep_le a
  rw [sendCommitEep_env hs h, hs]
  exact read_commitBytes t.elat _ 4 x hw.emem (by omega)

theorem peek_other_sendCommitProg {sp : Space} (hm : sp ≠ .prog) (hl : sp ≠ .progLatch) (x : Nat) :
    (sendCommitProg a s).env.peek sp x = s.env.peek sp x := by
  rw [sendCommitProg_env hs h, hs]
  cases sp with
  | prog => exact absurd rfl hm
  | progLatch => exact absurd rfl hl
  | _ => rfl

theorem peek_other_sendCommitEep {sp : Space} (hm : sp ≠ .eep) (hl : sp ≠ .eepLatch) (x : Nat) :
    (sendCommitEep a s).env.peek sp x = s.env.peek sp x := by
  rw [sendCommitEep_env hs h, hs]
  cases sp with
  | eep => exact absurd rfl hm
  | eepLatch => exact absurd rfl hl
  | _ => rfl

end

/-- Settles O52: the clauses read off what a committed page reads as. -/
theorem readyTargetStoresACommittedPage : Obligations.ReadyTargetStoresACommittedPage := by
  refine ⟨fun a s h hw hT => ?_, fun a s h hw hT => ?_⟩
  · obtain ⟨t, hs, ht⟩ := h.exists
    have hwf : t.WF := (Env.wf_reference t).mp (hs ▸ hw)
    have slot {o b : Nat} (ho : o < 16) (hb : b < 2) := peek_slot_sendCommitProg hs ht a hwf ho hb
    refine ⟨_, rfl, sendCommitProg_waited hs ht a hT, fun o ho lo hi hlo hhi => ?_, fun o ho hnone => ?_, fun x hx => ?_,
      fun sp x hm hl => peek_other_sendCommitProg hs ht a hm hl x⟩
    · rw [hs] at hlo hhi
      have hl := latched_some t.plat o lo hi hlo hhi
      exact ⟨(slot ho (b := 0) (by decide)).trans (hl 0), (slot ho (b := 1) (by decide)).trans (hl 1)⟩
    · rw [hs] at hnone
      have hl := latched_none t.plat o hnone
      exact ⟨(slot ho (b := 0) (by decide)).trans (hl 0), (slot ho (b := 1) (by decide)).trans (hl 1)⟩
    · have hx : x < 2 * (pageOf .prog a).toNat ∨ 2 * (pageOf .prog a).toNat + 32 ≤ x := hx
      exact (peek_prog_sendCommitProg hs ht a hwf x).trans (if_neg (by omega))
  · obtain ⟨t, hs, ht⟩ := h.exists
    have hwf : t.WF := (Env.wf_reference t).mp (hs ▸ hw)
    refine ⟨_, rfl, sendCommitEep_waited hs ht a hT, fun o ho => ?_, fun x hx => ?_,
      fun sp x hm hl => peek_other_sendCommitEep hs ht a hm hl x⟩
    · have hpage := peek_eep_sendCommitEep hs ht a hwf ((pageOf .eep a).toNat + o)
      rw [if_pos (by omega), Nat.add_sub_cancel_left] at hpage
      exact hpage
    · have hx : x < (pageOf .eep a).toNat ∨ (pageOf .eep a).toNat + 4 ≤ x := hx
      exact (peek_eep_sendCommitEep hs ht a hwf x).trans (if_neg (by omega))

/-! ## Chip erase (R76) -/

/-- A wait changes no byte of the target. -/
theorem peek_wait (e : Env) (p : Params) (k : WaitKind) (sp : Space) (x : Nat) : (e.wait p k).peek sp x = e.peek sp x := by
  cases e with
  | unconstrained q => rfl
  | reference t =>
    simp only [Env.wait]
    split
    · rfl
    · cases sp <;> rfl

section
variable {s : State} (h : s.env.Ready)
include h

theorem peek_sendChipErase (sp : Space) (x : Nat) : (sendChipErase s).env.peek sp x = none := by
  obtain ⟨t, hs, ht⟩ := h.exists
  rw [sendChipErase, frame_env_ready hs ht, serve_chipErase]
  cases sp <;> rfl

theorem sendChipErase_waited (hT : s.par.tErase ≠ 0) : (waitFor .erase (sendChipErase s)).env.Ready := by
  obtain ⟨t, hs, ht⟩ := h.exists
  have henv : (sendChipErase s).env = _ := (frame_env_ready hs ht ..).trans (serve_chipErase _ _)
  exact waitFor_ready henv (by decide) hT (ht.writing _)

end

/-- Settles O58: ERASE is the frame and its wait, and a wait changes no byte. -/
theorem eraseForgetsTheTargetMemories : Obligations.EraseForgetsTheTargetMemories := by
  intro s h
  have hready := sendChipErase_waited h
  have hpeek := peek_sendChipErase h
  refine ⟨⟨_, rfl, hready, hpeek⟩, fun hm => ⟨_, congrArg Host.Outcome.next (if_pos hm), hready, fun sp x => ?_⟩⟩
  exact (peek_wait _ _ _ sp x).trans (hpeek sp x)

/-! ## ENTER (R77) -/

/-- Environment `e` is a target behind an enabled transport, with no internal write in progress, that holds the bytes of `t`. -/
def Env.Willing (t : Target) (e : Env) : Prop :=
  ∃ u, e = .reference u ∧ u.bus = true ∧ u.busy = none ∧ ∀ sp, u.space sp = t.space sp

theorem willing_busEnable {t : Target} (h : t.busy = none) : (Env.reference t).busEnable.Willing t :=
  ⟨_, rfl, rfl, h, fun sp => by cases sp <;> rfl⟩

section
variable {t : Target} {e : Env}

theorem Env.Willing.resetLine (h : e.Willing t) (l : Bool) : (e.resetLine l).Willing t := by
  obtain ⟨u, rfl, hbus, hbusy, hsp⟩ := h
  exact ⟨_, rfl, hbus, hbusy, fun sp => (by cases sp <;> rfl : _ = u.space sp).trans (hsp sp)⟩

theorem Env.Willing.wait (h : e.Willing t) (p : Params) (k : WaitKind) : (e.wait p k).Willing t := by
  obtain ⟨u, rfl, hbus, hbusy, hsp⟩ := h
  simp only [Env.wait]
  split
  · exact ⟨u, rfl, hbus, hbusy, hsp⟩
  · exact ⟨_, rfl, hbus, by simp [hbusy], fun sp => (by cases sp <;> rfl : _ = u.space sp).trans (hsp sp)⟩

end

/-- RESET_SEQ leaves a willing target willing, whatever its pairs. -/
theorem willing_pulse {t : Target} {p : Params} {qs : List PulseStep} {b : Bus} (h : b.env.Willing t) :
    (b.play p (qs.flatMap pulseCmds)).env.Willing t := by
  induction qs generalizing b with
  | nil => exact h
  | cons q qs ih =>
    rw [List.flatMap_cons, Bus.play_append]
    apply ih
    unfold pulseCmds
    split
    · exact (h.resetLine q.level).wait p .reset
    · exact h.resetLine q.level

/-- A settled low drive, which ends RESET_SEQ, leaves a willing target expecting the enable frame. -/
theorem willing_settled_low {t : Target} {e : Env} {p : Params} (h : e.Willing t) (hT : p.tReset ≠ 0) :
    ∃ u, (e.resetLine false).wait p .reset = .reference u ∧ u.bus = true ∧ u.busy = none ∧ u.fresh = true ∧ u.got = [] ∧
      ∀ sp, u.space sp = t.space sp := by
  obtain ⟨u, rfl, hbus, hbusy, hsp⟩ := h
  have hticks : p.ticks .reset ≠ 0 := hT
  simp only [Env.resetLine, Env.wait, if_neg hticks]
  exact ⟨_, rfl, hbus, by simp [hbusy], rfl, rfl, fun sp => (by cases sp <;> rfl : _ = u.space sp).trans (hsp sp)⟩

/-- The enable frame to a target that expects it is echoed and leaves the target in programming mode, also one already in it. -/
theorem exchangeFrame_enable {u : Target} (hbus : u.bus = true) (hbusy : u.busy = none) (hfresh : u.fresh = true)
    (hgot : u.got = []) (p : Params) (n : Nat) :
    ((Env.reference u).exchangeFrame p n 0xAC 0x53 0 0).1.b2 = 0x53 ∧
      ((Env.reference u).exchangeFrame p n 0xAC 0x53 0 0).2 =
        .reference { u with got := [], fresh := false, enabled := true } := by
  obtain ⟨pmem, emem, plat, elat, sig, cal, fuse, lock, busy, bus, low, fresh, enabled, got⟩ := u
  subst hbus hbusy hfresh hgot
  refine ⟨rfl, ?_⟩
  cases enabled with
  | false => rfl
  | true => exact serve_enable _ p

/-- The end of the pulse and the enable frame on a willing target: the echo comes back, and the target stands ready. -/
theorem play_settled_enable {p : Params} {b : Bus} {t : Target} (h : b.env.Willing t) (hT : p.tReset ≠ 0) :
    (b.play p [.line false, .wait .reset, .frame 0xAC 0x53 0 0]).resp.b2 = 0x53 ∧
      (Env.reference t).LeftAlone (b.play p [.line false, .wait .reset, .frame 0xAC 0x53 0 0]).env := by
  obtain ⟨u, hu, ubus, ubusy, ufresh, ugot, usp⟩ := willing_settled_low h hT
  obtain ⟨hecho, henv⟩ := exchangeFrame_enable ubus ubusy ufresh ugot p b.draws
  rw [← hu] at hecho henv
  refine ⟨hecho, ?_⟩
  have hplay : (b.play p [.line false, .wait .reset, .frame 0xAC 0x53 0 0]).env = _ := henv
  rw [hplay]
  refine ⟨⟨ubus, rfl, ubusy, rfl⟩, fun sp x => ?_⟩
  rw [peek_reference, peek_reference, ← usp]
  cases sp <;> rfl

/-- ENTER up to its verdict, with a RESET_SEQ that ends in a settle wait, on a target that is not busy. -/
theorem play_enterCmds {p : Params} {b : Bus} {t : Target} (hb : b.env = .reference t) (hbusy : t.busy = none)
    (hsettle : p.resetSeq.lastSettle = true) (hT : p.tReset ≠ 0) :
    (b.play p (enterCmds p)).resp.b2 = 0x53 ∧ (Env.reference t).LeftAlone (b.play p (enterCmds p)).env := by
  have hsplit : enterCmds p = (.enable :: p.resetSeq.before.flatMap pulseCmds) ++
      [.line false, .wait .reset, .frame 0xAC 0x53 0 0] := by
    simp [enterCmds, ResetSeq.steps, pulseCmds, hsettle]
  have henable : (b.act p .enable).env.Willing t := by
    show b.env.busEnable.Willing t
    rw [hb]
    exact willing_busEnable hbusy
  rw [hsplit, Bus.play_append]
  exact play_settled_enable (willing_pulse henable) hT

/-- Settles O57: the pulse and the frame leave the target ready, and the echo decides the verdict. -/
theorem enterFindsAWillingTarget : Obligations.EnterFindsAWillingTarget := by
  intro s tg hs hbusy hsettle hT
  obtain ⟨hecho, hl⟩ := play_enterCmds (b := s.bus) hs hbusy hsettle hT
  obtain ⟨t, ht, -, -, -, ⟨-, hb, hm, -, hr⟩ | ⟨hne, -⟩⟩ := exec_enter s
  · have henv : t.env = _ := congrArg Bus.env hb
    rw [← henv, ← hs] at hl
    exact ⟨t, ht, hm, hr, hl.ready, hl.peek⟩
  · exact absurd hecho hne

end Sys2Proof.Machine
end

section
/-! PROOFS of the family 30_encoding.md: decoder and encoder undo each other (R96 to R100), what the step does with a frame and with an
undefined operation code (R98, R99), and what the engine takes from a response (R92). -/

namespace Sys2Proof.Machine

/-! ## Decoding an encoding (R96, R97) -/

/-- Every instruction, each by its own round trip. -/
theorem codecRoundTrip (i : Instr) : Laws.CodecRoundTrip.Statement i :=
  match i with
  | .progEnable => Laws.CodecRoundTrip.progEnable
  | .chipErase => Laws.CodecRoundTrip.chipErase
  | .loadProgLo a d => Laws.CodecRoundTrip.loadProgLo a d
  | .loadProgHi a d => Laws.CodecRoundTrip.loadProgHi a d
  | .commitProg a => Laws.CodecRoundTrip.commitProg a
  | .readProgLo a => Laws.CodecRoundTrip.readProgLo a
  | .readProgHi a => Laws.CodecRoundTrip.readProgHi a
  | .loadEep a d => Laws.CodecRoundTrip.loadEep a d
  | .commitEep a => Laws.CodecRoundTrip.commitEep a
  | .readEep a => Laws.CodecRoundTrip.readEep a
  | .writeEepByte a d => Laws.CodecRoundTrip.writeEepByte a d
  | .readLock => Laws.CodecRoundTrip.readLock
  | .writeLock d => Laws.CodecRoundTrip.writeLock d
  | .readSig x => Laws.CodecRoundTrip.readSig x
  | .writeFuseLo d => Laws.CodecRoundTrip.writeFuseLo d
  | .writeFuseHi d => Laws.CodecRoundTrip.writeFuseHi d
  | .writeFuseExt d => Laws.CodecRoundTrip.writeFuseExt d
  | .readFuseLo => Laws.CodecRoundTrip.readFuseLo
  | .readFuseHi => Laws.CodecRoundTrip.readFuseHi
  | .readFuseExt => Laws.CodecRoundTrip.readFuseExt
  | .readCal x => Laws.CodecRoundTrip.readCal x
  | .pollBusy => Laws.CodecRoundTrip.pollBusy
  | .enter => Laws.CodecRoundTrip.enter
  | .exit => Laws.CodecRoundTrip.exit
  | .erase => Laws.CodecRoundTrip.erase
  | .poll => Laws.CodecRoundTrip.poll
  | .wrprog => Laws.CodecRoundTrip.wrprog
  | .wreep => Laws.CodecRoundTrip.wreep
  | .rdprog => Laws.CodecRoundTrip.rdprog
  | .rdeep => Laws.CodecRoundTrip.rdeep
  | .rdlock => Laws.CodecRoundTrip.rdlock
  | .wrlock => Laws.CodecRoundTrip.wrlock
  | .rdsig => Laws.CodecRoundTrip.rdsig
  | .wrfuse => Laws.CodecRoundTrip.wrfuse
  | .rdfuse => Laws.CodecRoundTrip.rdfuse
  | .rdcal => Laws.CodecRoundTrip.rdcal
  | .xchg => Laws.CodecRoundTrip.xchg

/-- Settles O10, instruction by instruction. -/
theorem decodeOfEncodeIsTheInstruction : Obligations.DecodeOfEncodeIsTheInstruction := fun f i => codecRoundTrip i f

/-! ## Encoding what decoded (R96 to R100) -/

/-- The bytes are the encoding of the instruction, which is well formed. -/
structure IsImage (f : FuseTable) (bytes : List Byte) (i : Instr) : Prop where
  encode_eq : encode f i = bytes
  wellFormed : i.wellFormed = true

/-- One row of a decoding table, with the rows after it as `e`. -/
theorem isImage_of_ite {f : FuseTable} {bytes : List Byte} {c : Prop} [Decidable c] {a i : Instr} {e : Except DecodeError Instr}
    (ha : c → IsImage f bytes a) (he : e = .ok i → IsImage f bytes i) (h : (if c then .ok a else e) = .ok i) :
    IsImage f bytes i := by
  split at h
  case isTrue hc => cases h; exact ha hc
  case isFalse => exact he h

/-- An operation code that decodes is the code of its operation (R97). -/
theorem decodeHostOp_isImage (f : FuseTable) {op : Byte} {i : Instr} (h : decodeHostOp op = .ok i) : IsImage f [op] i := by
  revert h
  unfold decodeHostOp
  iterate 15 refine isImage_of_ite (by rintro rfl; exact ⟨rfl, rfl⟩) ?_
  exact nofun

/-- An address is read off its bytes as the encoder writes it, and is well formed, if its bytes have none of the bits `hn` and `ln`
that the mask `m` of its frame clears (20_memory.md R55). -/
theorem ofBytes_masked {h l : Byte} (m : Half) {hn ln : Byte} (hm : m = ofBytes (~~~hn) (~~~ln)) (hh : h &&& hn = 0)
    (hl : l &&& ln = 0) :
    hiByte (ofBytes h l &&& m) = h ∧ loByte (ofBytes h l &&& m) = l ∧ (ofBytes h l &&& m == ofBytes h l) = true := by
  have hmask : ofBytes h l &&& m = ofBytes h l := by
    rw [hm, ofBytes_and, and_eq_of_and_eq_zero h _ hn rfl hh, and_eq_of_and_eq_zero l _ ln rfl hl]
  rw [hmask]
  exact ⟨hiByte_ofBytes h l, loByte_ofBytes h l, beq_self_eq_true _⟩

section
variable {f : FuseTable} {b0 h l b3 : Byte} {i : Instr} (m : Half) {hn ln : Byte}

/-- A row whose address fills both operand bytes. -/
theorem IsImage.of_address (he : encode f i = [b0, hiByte (ofBytes h l &&& m), loByte (ofBytes h l &&& m), b3])
    (hw : i.wellFormed = (ofBytes h l &&& m == ofBytes h l)) (hm : m = ofBytes (~~~hn) (~~~ln)) (hh : h &&& hn = 0)
    (hl : l &&& ln = 0) : IsImage f [b0, h, l, b3] i := by
  obtain ⟨hhi, hlo, hwf⟩ := ofBytes_masked m hm hh hl
  exact ⟨by rw [he, hhi, hlo], hw.trans hwf⟩

/-- A row whose address fits operand_lo, so that operand_hi is 00. -/
theorem IsImage.of_low_address (he : encode f i = [b0, 0, loByte (ofBytes 0 l &&& m), b3])
    (hw : i.wellFormed = (ofBytes 0 l &&& m == ofBytes 0 l)) (hm : m = ofBytes 0 (~~~ln)) (hl : l &&& ln = 0) :
    IsImage f [b0, 0, l, b3] i := by
  obtain ⟨-, hlo, hwf⟩ := ofBytes_masked (h := 0) (hn := 0xFF) m hm rfl hl
  exact ⟨by rw [he, hlo], hw.trans hwf⟩

end

/-- Four bytes that decode are the image of their instruction: each row of the frame table, in the decoder's order (R96). -/
theorem decodeFrame_isImage {f : FuseTable} {b0 b1 b2 b3 : Byte} {i : Instr} (h : decodeFrame f b0 b1 b2 b3 = .ok i) :
    IsImage f [b0, b1, b2, b3] i := by
  revert h
  unfold decodeFrame
  -- READ_PROG_LO, READ_PROG_HI
  iterate 2
    refine isImage_of_ite (by rintro ⟨rfl, hh, rfl⟩; exact .of_address 0x03FF rfl rfl (by decide) hh (ln := 0) BitVec.and_zero) ?_
  -- READ_SIG, READ_CAL
  refine isImage_of_ite (by
    rintro ⟨rfl, rfl, hl, rfl⟩; exact ⟨congrArg (fun x => [_, _, x, _]) (extract_setWidth_two b2 hl), rfl⟩) ?_
  refine isImage_of_ite (by
    rintro ⟨rfl, rfl, hl, rfl⟩; exact ⟨congrArg (fun x => [_, _, x, _]) (extract_setWidth_one b2 hl), rfl⟩) ?_
  -- LOAD_PROG_LO, LOAD_PROG_HI
  iterate 2 refine isImage_of_ite (by rintro ⟨rfl, rfl, hl⟩; exact .of_low_address 0x000F rfl rfl (by decide) hl) ?_
  -- COMMIT_PROG
  refine isImage_of_ite (by rintro ⟨rfl, hh, hl, rfl⟩; exact .of_address 0x03F0 rfl rfl (by decide) hh hl) ?_
  -- READ_LOCK
  refine isImage_of_ite (by rintro ⟨rfl, rfl, rfl, rfl⟩; exact ⟨rfl, rfl⟩) ?_
  -- READ_EEP
  refine isImage_of_ite (by rintro ⟨rfl, rfl, hl, rfl⟩; exact .of_low_address 0x007F rfl rfl (by decide) hl) ?_
  -- PROG_ENABLE, CHIP_ERASE
  iterate 2 refine isImage_of_ite (by rintro ⟨rfl, rfl, rfl, rfl⟩; exact ⟨rfl, rfl⟩) ?_
  -- WRITE_FUSE_LO, WRITE_FUSE_EXT, WRITE_FUSE_HI, WRITE_LOCK
  iterate 4 refine isImage_of_ite (by rintro ⟨rfl, rfl, rfl⟩; exact ⟨rfl, rfl⟩) ?_
  -- WRITE_EEP_BYTE, LOAD_EEP, COMMIT_EEP
  refine isImage_of_ite (by rintro ⟨rfl, rfl, hl⟩; exact .of_low_address 0x007F rfl rfl (by decide) hl) ?_
  refine isImage_of_ite (by rintro ⟨rfl, rfl, hl⟩; exact .of_low_address 0x0003 rfl rfl (by decide) hl) ?_
  refine isImage_of_ite (by rintro ⟨rfl, rfl, hl, rfl⟩; exact .of_low_address 0x007C rfl rfl (by decide) hl) ?_
  -- POLL_BUSY and the three entries of FUSE_RD
  iterate 4 refine isImage_of_ite (by rintro ⟨rfl, rfl, rfl, rfl⟩; exact ⟨rfl, rfl⟩) ?_
  exact nofun

theorem decode_isImage {f : FuseTable} {bytes : List Byte} {i : Instr} (h : decode f bytes = .ok i) : IsImage f bytes i := by
  unfold decode at h
  split at h
  case h_1 => exact decodeHostOp_isImage f h
  case h_2 => exact decodeFrame_isImage h
  case h_3 => cases h

/-- Settles O11: an operation code, a frame, or no instruction at all. -/
theorem encodeOfDecodeIsTheBytes : Obligations.EncodeOfDecodeIsTheBytes := by
  intro f bytes i h
  obtain ⟨hencode, hwf⟩ := decode_isImage h
  exact ⟨hencode, hwf⟩

/-- Settles O12, word by word. -/
theorem sampleWordsDecode : Obligations.SampleWordsDecode := by
  unfold Obligations.SampleWordsDecode
  decide

/-! ## What the step does with a frame and with an undefined code (R98, R99) -/

theorem runFrame_ok {s : State} {b0 b1 b2 b3 : Byte} {i : Instr} (h : decodeFrame s.par.fuseRd b0 b1 b2 b3 = .ok i) :
    runFrame b0 b1 b2 b3 s = exec i s := by
  simp [runFrame, h]

theorem runFrame_error {s : State} {b0 b1 b2 b3 : Byte} {e : DecodeError} (h : decodeFrame s.par.fuseRd b0 b1 b2 b3 = .error e) :
    runFrame b0 b1 b2 b3 s = .next (frame b0 b1 b2 b3 s) := by
  simp [runFrame, h]

/-- Settles O7: the four-byte case of `decode` is the decoder of frames, and `runFrame` answers by it. -/
theorem stepRunsTheGivenFrame : Obligations.StepRunsTheGivenFrame := by
  intro s b0 b1 b2 b3 rest hb
  have hstep := step_frame (s := { s with host := .frame b0 b1 b2 b3 :: rest }) rfl hb
  exact ⟨fun i hd => hstep.trans (runFrame_ok hd), fun e hd => hstep.trans (runFrame_error hd)⟩

/-- A code that is none of the rows' is none of the first row's and none of the rest's. -/
theorem error_of_ite {op k : Byte} {ks : List Byte} {a : Instr} {e : Except DecodeError Instr} {x : DecodeError}
    (he : op ∉ ks → e = .error x) (h : op ∉ k :: ks) : (if op = k then .ok a else e) = .error x := by
  rw [if_neg (List.ne_of_not_mem_cons h), he (List.not_mem_of_not_mem_cons h)]

/-- Outside the fifteen codes of the table nothing decodes (R99). -/
theorem decodeHostOp_undefined {op : Byte}
    (h : op ∉ ([0x01, 0x02, 0x03, 0x04, 0x10, 0x11, 0x12, 0x13, 0x20, 0x21, 0x22, 0x23, 0x24, 0x25, 0x30] : List Byte)) :
    decodeHostOp op = .error (.undefinedOp op) := by
  revert h
  unfold decodeHostOp
  iterate 15 refine error_of_ite ?_
  exact fun _ => rfl

/-- An accepted request whose code is undefined is rejected with E_OP (60_exceptions.md R226). -/
theorem runRequest_error {r : Request} {e : DecodeError} (s : State) (hd : decodeHostOp r.op = .error e) :
    runRequest r s = .next (reject .eOp (accept r s)) := by
  have ho : (accept r s).op = r.op := rfl
  simp [runRequest, runOperation, ho, hd]

/-- Settles O8: the request is accepted and then rejected, which is the state written out. -/
theorem undefinedOperationCodeIsRejected : Obligations.UndefinedOperationCodeIsRejected := by
  intro s r rest hb hop
  exact (step_host (s := { s with host := .host r :: rest }) rfl hb).trans (runRequest_error _ (decodeHostOp_undefined hop))

/-! ## What the engine takes from a response (R92) -/

/-- ENTER goes by the echo of the enable frame, in RESP still: its rollback sends no frame (41_mode.md R172). -/
theorem enter_verdict (s : State) :
    ∃ t v, exec .enter s = .next t ∧ frameResult s.par t.resp .progEnable = .echo v ∧
      t.mode = (if v = true then .programming else .idle) ∧ t.result = (if v = true then 1 else 0) ∧
      t.status = if v = true then .ok else .eEntry := by
  obtain ⟨t, ht, -, -, -, ⟨hecho, hb, hm, hs, hr⟩ | ⟨hecho, hb, hm, hs, hr⟩⟩ := exec_enter s
  · have hresp : t.resp = (s.bus.play s.par (enterCmds s.par)).resp := congrArg Bus.resp hb
    rw [← hresp] at hecho
    exact ⟨t, true, ht, congrArg FrameResult.echo (beq_iff_eq.mpr hecho), hm, hr, hs⟩
  · rw [Bus.play_append] at hb
    have hresp : t.resp = (s.bus.play s.par (enterCmds s.par)).resp := congrArg Bus.resp hb
    rw [← hresp] at hecho
    exact ⟨t, false, ht, congrArg FrameResult.echo (beq_eq_false_iff_ne.mpr hecho), hm, hr, hs⟩

/-- Two bytes, the first in the lowest place (44_ancillary.md R212). -/
theorem resultBytes_two (a b : Byte) : resultBytes [a, b] = a.setWidth 32 ||| b.setWidth 32 <<< 8 := by
  simp [resultBytes]

/-- Four bytes, the first in the lowest place (44_ancillary.md R208). -/
theorem resultBytes_four (a b c d : Byte) : resultBytes [a, b, c, d] =
    a.setWidth 32 ||| b.setWidth 32 <<< 8 ||| c.setWidth 32 <<< 16 ||| d.setWidth 32 <<< 24 := by
  simp [resultBytes, BitVec.shiftLeft_or_distrib, BitVec.or_assoc, ← BitVec.shiftLeft_add]

section
variable (s : State)

theorem rdsigBody_trace : (rdsigBody s).trace = s.trace ++ eventsOf (opCmds .rdsig s)
    [(sendReadSig 0 s).resp, (sendReadSig 1 (sendReadSig 0 s)).resp, (sendReadSig 2 (sendReadSig 1 (sendReadSig 0 s))).resp,
      (sendReadSig 3 (sendReadSig 2 (sendReadSig 1 (sendReadSig 0 s)))).resp] := by
  simp [rdsigBody, sendReadSig, opCmds, eventsOf]

theorem rdfuseBody_trace : (rdfuseBody s).trace = s.trace ++ eventsOf (opCmds .rdfuse s)
    [(sendReadFuseLo s).resp, (sendReadFuseHi (sendReadFuseLo s)).resp,
      (sendReadFuseExt (sendReadFuseHi (sendReadFuseLo s))).resp] := by
  simp [rdfuseBody, sendReadFuseLo, sendReadFuseHi, sendReadFuseExt, sendFuseSel, opCmds, eventsOf]

theorem rdcalBody_trace : (rdcalBody s).trace = s.trace ++ eventsOf (opCmds .rdcal s)
    [(sendReadCal 0 s).resp, (sendReadCal 1 (sendReadCal 0 s)).resp] := by
  simp [rdcalBody, sendReadCal, opCmds, eventsOf]

/-- The responses to the frames of a unit read operation, in order. -/
def readResponses (r : Region) : List Resp := s.bus.responses s.par (readAllCmds r s.addr s.count.toNat)

variable (r : Region)

theorem readResponses_length : (readResponses s r).length = r.unitBytes * s.count.toNat := by
  rw [readResponses, responses_length, frameCount_readAllCmds]

theorem readUnits_trace :
    (readUnits r s).trace = s.trace ++ eventsOf (readAllCmds r s.addr s.count.toNat) (readResponses s r) :=
  (congrArg Bus.trace (readUnits_spec r s).1).trans (play_events _ _ _)

/-- The last unit read stands first in the read buffer (43_read.md R197). -/
theorem readUnits_out_getElem? {q : Nat} (hq : q < s.count.toNat) :
    (readUnits r s).out[s.count.toNat - 1 - q]? = (unitsRead r (readResponses s r))[q]? := by
  obtain ⟨-, -, -, -, -, -, hout⟩ := readUnits_spec r s
  have hlen := unitsRead_length s.par r s.addr s.count.toNat s.bus
  rw [hout, List.getElem?_reverse (by omega), hlen, show s.count.toNat - 1 - (s.count.toNat - 1 - q) = q by omega]
  rfl

end

theorem wrfuseBody_out (s : State) : (wrfuseBody s).out = s.out := by
  simp only [wrfuseBody, sendWriteFuseLo, sendWriteFuseHi, sendWriteFuseExt, complete_out, waitFor_out, frame_out]

/-- An operation of Programming whose frames yield nothing ends with OK and RESULT 0 and leaves the read buffer as it was. -/
theorem exec_yields_nothing {i : Instr} {s : State} (hi : i ∈ [Instr.erase, .wrprog, .wreep, .wrlock, .wrfuse])
    (hm : s.mode = .programming) :
    ∃ t, exec i s = .next t ∧ t.mode = s.mode ∧ t.result = 0 ∧ t.status = .ok ∧ t.out = s.out := by
  have hg : i.guarded = true := (by decide : ∀ j ∈ [Instr.erase, .wrprog, .wreep, .wrlock, .wrfuse], j.guarded = true) i hi
  obtain ⟨t, ht, hr⟩ := exec_ran i s hg hm
  have ends {u : State} (hu : exec i s = .next u) (hresult : u.result = 0) (hout : u.out = s.out) :
      t.result = 0 ∧ t.out = s.out := by
    cases hu.symm.trans ht
    exact ⟨hresult, hout⟩
  have hends : t.result = 0 ∧ t.out = s.out := by
    simp only [List.mem_cons, List.not_mem_nil, or_false] at hi
    rcases hi with rfl | rfl | rfl | rfl | rfl
    · exact ends (congrArg Host.Outcome.next (if_pos hm)) rfl rfl
    · obtain ⟨-, hout, -⟩ := writePages_spec .prog s
      exact ends (exec_writeOp .prog hm) rfl hout
    · obtain ⟨-, hout, -⟩ := writePages_spec .eep s
      exact ends (exec_writeOp .eep hm) rfl hout
    · exact ends (congrArg Host.Outcome.next (if_pos hm)) rfl rfl
    · exact ends (congrArg Host.Outcome.next (if_pos hm)) rfl (wrfuseBody_out s)
  obtain ⟨hresult, hout⟩ := hends
  exact ⟨t, ht, hr.mode, hresult, hr.status, hout⟩

/-- Settles O20: the table by its definition; each operation's RESULT and read buffer by the responses its body has seen. -/
theorem responseDecodeTable : Obligations.ResponseDecodeTable := by
  refine ⟨fun p r a d x y => ⟨rfl, by simp [frameResult], rfl, by simp [frameResult]⟩,
    fun s => ⟨enter_verdict s, fun hm => ?_⟩⟩
  refine ⟨?poll, ?rdlock, ?rdsig, ?rdfuse, ?rdcal, ?rdprog, ?rdeep, ?nothing⟩
  case poll => exact ⟨pollBody s, _, congrArg Host.Outcome.next (if_pos hm), rfl, rfl⟩
  case rdlock => exact ⟨rdlockBody s, _, congrArg Host.Outcome.next (if_pos hm), rfl, rfl⟩
  case rdsig =>
    exact ⟨rdsigBody s, _, _, _, _, _, _, _, _, congrArg Host.Outcome.next (if_pos hm), rdsigBody_trace s, rfl, rfl, rfl, rfl,
      resultBytes_four _ _ _ _⟩
  case rdfuse =>
    exact ⟨rdfuseBody s, _, _, _, _, _, _, congrArg Host.Outcome.next (if_pos hm), rdfuseBody_trace s, rfl, rfl, rfl,
      resultBytes_three _ _ _⟩
  case rdcal =>
    exact ⟨rdcalBody s, _, _, _, _, congrArg Host.Outcome.next (if_pos hm), rdcalBody_trace s, rfl, rfl, resultBytes_two _ _⟩
  case rdprog =>
    have hlen : (readResponses s .prog).length = 2 * s.count.toNat := readResponses_length s .prog
    refine ⟨_, readResponses s .prog, exec_readOp .prog hm, readUnits_trace s .prog, hlen, fun q hq => ?_⟩
    have hx := List.getElem?_eq_getElem (l := readResponses s .prog) (i := 2 * q) (by omega)
    have hy := List.getElem?_eq_getElem (l := readResponses s .prog) (i := 2 * q + 1) (by omega)
    exact ⟨_, _, _, _, hx, hy, rfl, rfl, (readUnits_out_getElem? s .prog hq).trans (unitsRead_prog_get _ q _ _ hx hy)⟩
  case rdeep =>
    have hlen : (readResponses s .eep).length = s.count.toNat := (readResponses_length s .eep).trans (Nat.one_mul _)
    refine ⟨_, readResponses s .eep, exec_readOp .eep hm, readUnits_trace s .eep, hlen, fun q hq => ?_⟩
    have hx := List.getElem?_eq_getElem (l := readResponses s .eep) (i := q) (by omega)
    have hunit := (readUnits_out_getElem? s .eep hq).trans (unitsRead_eep_get _ q _ hx)
    refine ⟨_, _, hx, rfl, ?_⟩
    rw [complete_out, hunit]
    simp
  case nothing => exact fun i hi => exec_yields_nothing hi hm

end Sys2Proof.Machine
end

section
/-! PROOFS of the family 40_codec.md: the frame (R140), the image each frame instruction sends (R144 to R165), XCHG (R143), and the one stop
of the machine, a frame given to a busy codec (R142; 93_implementation_defined.md U6). -/

namespace Sys2Proof.Machine

/-! ## The frame and its 22 instructions (R140, R144 to R165) -/

/-- Settles O15: the answers are RESP's bytes by `responseTo`, the last environment is `envAfter`, and `frame_eq` is the state. -/
theorem frameExchangesFourBytes : Obligations.FrameExchangesFourBytes := fun b0 b1 b2 b3 s =>
  ⟨s.responseTo b0 b1 b2 b3, _, _, _, s.envAfter b0 b1 b2 b3, rfl, rfl, rfl, rfl, frame_eq b0 b1 b2 b3 s⟩

/-- A frame instruction sends the four bytes its encoding has. -/
theorem exec_eq_frame_of_encode {i : Instr} {s : State} {b0 b1 b2 b3 : Byte} (hf : i.isFrame = true)
    (he : encode s.par.fuseRd i = [b0, b1, b2, b3]) : exec i s = .next (frame b0 b1 b2 b3 s) := by
  obtain ⟨c0, c1, c2, c3, hc, hx⟩ := exec_frame i s hf
  cases he.symm.trans hc
  exact hx

/-- Settles O17: each row of the statement is the encoder's row of its instruction, with the region's mask written out. -/
theorem programFramesAreSentAsTheirImages : Obligations.ProgramFramesAreSentAsTheirImages := by
  intro a d s
  refine ⟨?_, ?_, ?_, ?_, ?_, ?_, ?_, ?_⟩
  all_goals exact exec_eq_frame_of_encode rfl rfl

/-- Settles O18, as O17: each row is the encoder's, the fuse reads by the table FUSE_RD of the state. -/
theorem dataAndAncillaryFramesAreSentAsTheirImages : Obligations.DataAndAncillaryFramesAreSentAsTheirImages := by
  intro a d x y s
  refine ⟨?_, ?_, ?_, ?_, ?_, ?_, ?_, ?_, ?_, ?_, ?_, ?_, ?_, ?_⟩
  all_goals exact exec_eq_frame_of_encode rfl rfl

/-- Settles O19: an instruction that is a frame sends its encoding, and `frame_eq` says all that a frame changes. -/
theorem frameInstructionsWriteOnlyTheResponse : Obligations.FrameInstructionsWriteOnlyTheResponse := by
  intro i s hf
  obtain ⟨b0, b1, b2, b3, hencode, hexec⟩ := exec_frame i s hf
  exact ⟨b0, b1, b2, b3, _, _, hencode, hexec.trans (congrArg Host.Outcome.next (frame_eq b0 b1 b2 b3 s))⟩

/-! ## XCHG (R143) -/

/-- In Programming XCHG is the frame of the host's bytes, completed with RESP as one word. -/
theorem exec_xchg {s : State} (hm : s.mode = .programming) : exec .xchg s =
    .next (complete .ok (frame s.d0 s.d1 s.d2 s.d3 s).resp.word (frame s.d0 s.d1 s.d2 s.d3 s)) :=
  congrArg Host.Outcome.next (if_pos hm)

/-- Settles O21: the guard decides; behind it `frame_eq` gives the response, which RESULT and the trace share. -/
theorem xchgReturnsTheWholeResponse : Obligations.XchgReturnsTheWholeResponse := by
  intro s
  refine ⟨exec_rejected .xchg s rfl, fun hm => ⟨s.responseTo s.d0 s.d1 s.d2 s.d3, s.envAfter s.d0 s.d1 s.d2 s.d3, ?_⟩⟩
  rw [exec_xchg hm, frame_eq]
  rfl

/-! ## The one stop of the machine (R142) -/

/-- The next thing presented is a frame, and an operation is in flight: the use of the codec that R142 excludes. -/
def ReentersCodec (s : State) : Prop := s.busy = true ∧ ∃ b0 b1 b2 b3 rest, s.host = .frame b0 b1 b2 b3 :: rest

theorem step_reentersCodec {s : State} (h : ReentersCodec s) : step s = .fault .codecReentered := by
  obtain ⟨hb, b0, b1, b2, b3, rest, hh⟩ := h
  simp [step, hh, hb]

/-- A hardware reset takes effect while busy; the request it was to cut short is dropped (log 19). -/
theorem step_resetDuring_busy {s : State} {r : Request} {n : Nat} {rest : List Work} (hh : s.host = .resetDuring r n :: rest)
    (hb : s.busy = true) : step s = .next (hardReset { s with host := rest }) := by
  simp [step, hh, hb]

/-- Everything else the world can present is answered by a next state: no operation, no frame and no reset stops the machine. -/
theorem step_next_or_reentersCodec (s : State) : (∃ t, step s = .next t) ∨ ReentersCodec s := by
  cases hh : s.host with
  | nil => exact .inl ⟨_, step_nothing hh⟩
  | cons w rest =>
    cases w with
    | host r =>
      cases hb : s.busy with
      | true => exact .inl ⟨_, step_host_busy hh hb⟩
      | false =>
        obtain ⟨t, ht⟩ := runRequest_next r { s with host := rest }
        exact .inl ⟨t, (step_host hh hb).trans ht⟩
    | frame b0 b1 b2 b3 =>
      cases hb : s.busy with
      | true => exact .inr ⟨hb, b0, b1, b2, b3, rest, hh⟩
      | false =>
        obtain ⟨t, ht⟩ := runFrame_next b0 b1 b2 b3 { s with host := rest }
        exact .inl ⟨t, (step_frame hh hb).trans ht⟩
    | reset => exact .inl ⟨_, step_reset hh⟩
    | resetDuring r n =>
      cases hb : s.busy with
      | true => exact .inl ⟨_, step_resetDuring_busy hh hb⟩
      | false =>
        obtain ⟨t, -, ht⟩ := runAbandoned_next r n { s with host := rest }
        exact .inl ⟨_, (step_resetDuring hh hb).trans ht⟩

/-- Settles O9: a step answers a next state unless the codec is reentered, and then it is that fault. -/
theorem machineStopsOnlyOnCodecReentry : Obligations.MachineStopsOnlyOnCodecReentry := by
  refine ⟨fun s f => ⟨fun hstop => ?stops, fun ⟨hf, hre⟩ => hf ▸ step_reentersCodec hre⟩, fun s x hrefused => ?refuses⟩
  case stops =>
    obtain ⟨t, ht⟩ | hre := step_next_or_reentersCodec s
    · cases ht.symm.trans hstop
    · cases (step_reentersCodec hre).symm.trans hstop
      exact ⟨rfl, hre⟩
  case refuses =>
    obtain ⟨t, ht⟩ | hre := step_next_or_reentersCodec s
    · cases ht.symm.trans hrefused
    · cases (step_reentersCodec hre).symm.trans hrefused

end Sys2Proof.Machine
end

section
/-! PROOFS of the family 41_mode.md: the guard (R170), the reset pulse and ENTER (R171, R172), EXIT (R174, R175), ERASE (R176) and POLL
(R178). The whole next state of each operation is put together from `frame_eq`, `waitFor_eq` and the two equations here,
`pulse_eq` and `leaveProgramming_eq`. -/

namespace Sys2Proof.Machine

/-! ## The reset pulse (R171) -/

/-- The events of one pair of RESET_SEQ. -/
def pulseEvents (q : PulseStep) : List Event :=
  if q.settle = true then [.reset q.level, .wait .reset] else [.reset q.level]

/-- One pair drives its level and, if it settles, waits. -/
theorem pulseStep_eq (s : State) (q : PulseStep) : ∃ e, pulseStep s q =
    { s with rst := q.level, env := e, tmr := if q.settle = true then 0 else s.tmr, trace := s.trace ++ pulseEvents q } := by
  unfold pulseStep pulseEvents
  split
  · exact ⟨(s.env.resetLine q.level).wait s.par .reset, by simp [waitFor_eq, resetLine]⟩
  · exact ⟨s.env.resetLine q.level, rfl⟩

/-- A list of pairs leaves the line at the level of its last one. -/
theorem pulse_eq (qs : List PulseStep) (s : State) : ∃ e, qs.foldl pulseStep s =
    { s with rst := (qs.getLast?.map (·.level)).getD s.rst, env := e,
             tmr := if qs.any (·.settle) = true then 0 else s.tmr, trace := s.trace ++ qs.flatMap pulseEvents } := by
  induction qs generalizing s with
  | nil => exact ⟨s.env, by simp⟩
  | cons q qs ih =>
    obtain ⟨e, hq⟩ := pulseStep_eq s q
    obtain ⟨e', hqs⟩ := ih (pulseStep s q)
    refine ⟨e', ?_⟩
    rw [List.foldl_cons, hqs, hq]
    have hrst : ((q :: qs).getLast?.map (·.level)).getD s.rst = (qs.getLast?.map (·.level)).getD q.level := by
      cases h : qs.getLast? <;> simp [List.getLast?_cons, h]
    have htmr : (if (q :: qs).any (·.settle) = true then 0 else s.tmr) =
        if qs.any (·.settle) = true then 0 else if q.settle = true then 0 else s.tmr := by
      cases h : q.settle <;> simp [h]
    rw [hrst, htmr, List.flatMap_cons, List.append_assoc]

/-- RESET_SEQ ends with the line low. -/
theorem resetPulse_eq (s : State) : ∃ e, resetPulse s =
    { s with rst := false, env := e, tmr := if s.par.resetSeq.steps.any (·.settle) = true then 0 else s.tmr,
             trace := s.trace ++ s.par.resetSeq.steps.flatMap pulseEvents } := by
  obtain ⟨e, h⟩ := pulse_eq s.par.resetSeq.steps s
  have hlast : (s.par.resetSeq.steps.getLast?.map (·.level)).getD s.rst = false := by simp [ResetSeq.steps]
  exact ⟨e, by rw [resetPulse, h, hlast]⟩

/-! ## EXIT (R174, R175) -/

/-- The body of EXIT and the rollback of ENTER. -/
theorem leaveProgramming_eq (s : State) : leaveProgramming s =
    { s with mode := .idle, busEn := false, rst := true, env := (s.env.resetLine true).busDisable,
             trace := s.trace ++ [.reset true, .busDisable] } := by
  simp [leaveProgramming, busDisable, resetLine]

/-- Settles O24: EXIT is `leaveProgramming`, completed with OK. -/
theorem exitReleasesTheTarget : Obligations.ExitReleasesTheTarget := fun s =>
  congrArg (fun t => Host.Outcome.next (complete .ok 0 t)) (leaveProgramming_eq s)

/-- A target released and cut off is not changed by being released and cut off again. -/
theorem Env.release_idem (e : Env) :
    (((e.resetLine true).busDisable).resetLine true).busDisable = (e.resetLine true).busDisable := by
  cases e with
  | unconstrained q => rfl
  | reference t => simp [Env.resetLine, Env.busDisable]

/-- Settles O25: the second EXIT writes what the first one wrote; only the environment needs a word, `Env.release_idem`. -/
theorem exitIsIdempotent : Obligations.ExitIsIdempotent := by
  refine ⟨fun s => ⟨_, exitReleasesTheTarget s, ?again⟩, fun s hm hr hb => ⟨_, exitReleasesTheTarget s, hm.symm, hr.symm, hb.symm, rfl⟩⟩
  case again => rw [exitReleasesTheTarget, Env.release_idem]

/-! ## ENTER (R172) -/

/-- ENTER up to its verdict: the transport enabled, the pulse, and the enable frame with the response it gets. -/
theorem enter_front_eq (s : State) : ∃ (r : Resp) (e : Env), sendProgEnable (resetPulse (busEnable s)) =
    { s with busEn := true, rst := false, resp := r, bi := 0, env := e, draws := s.draws + 4,
             tmr := if s.par.resetSeq.steps.any (·.settle) = true then 0 else s.tmr,
             trace := s.trace ++ [.busEnable] ++ s.par.resetSeq.steps.flatMap pulseEvents ++
               frameEvents 0xAC 0x53 0x00 0x00 r } := by
  obtain ⟨e, h⟩ := resetPulse_eq (busEnable s)
  exact ⟨_, _, by rw [sendProgEnable, frame_eq, h]; rfl⟩

theorem enterVerdict_echo {t : State} (h : t.resp.b2 = 0x53) :
    enterVerdict t = complete .ok 1 { t with mode := .programming } := if_pos h

theorem enterVerdict_noEcho {t : State} (h : t.resp.b2 ≠ 0x53) :
    enterVerdict t = complete .eEntry 0 (leaveProgramming t) := if_neg h

/-- Settles O23: the state before the verdict is `enter_front_eq`'s; the echo decides which end it has. -/
theorem enterIsDecidedByTheEcho : Obligations.EnterIsDecidedByTheEcho := by
  intro s
  obtain ⟨r, e, hfront⟩ := enter_front_eq s
  have hexec : exec .enter s = .next (enterVerdict (sendProgEnable (resetPulse (busEnable s)))) := rfl
  rw [hexec, hfront]
  by_cases hecho : r.b2 = 0x53
  · exact ⟨r, e, _, rfl, fun _ => congrArg Host.Outcome.next (enterVerdict_echo hecho), fun h => absurd hecho h⟩
  · refine ⟨r, (e.resetLine true).busDisable, _, rfl, fun h => absurd h hecho, fun _ => ?_⟩
    rw [enterVerdict_noEcho hecho, leaveProgramming_eq]
    rfl

/-! ## The guard (R170) -/

/-- The operations that need Programming are the 13 of the rule. -/
theorem guarded_iff_mem (i : Instr) : i.guarded = true ↔ i ∈ [Instr.erase, .poll, .wrprog, .wreep, .rdprog, .rdeep, .rdlock,
    .wrlock, .rdsig, .wrfuse, .rdfuse, .rdcal, .xchg] := by
  cases i <;> simp [Instr.guarded]

/-- What is neither guarded nor a frame is ENTER or EXIT. -/
theorem isFrame_or_enter_or_exit {i : Instr} (h : i.guarded ≠ true) : i.isFrame = true ∨ i = .enter ∨ i = .exit := by
  cases i <;> simp_all [Instr.guarded, Instr.isFrame]

/-- A frame emits its events and leaves STATUS alone. -/
theorem exec_frame_emits {i : Instr} (s : State) (hf : i.isFrame = true) :
    ∃ t, exec i s = .next t ∧ s.trace.length < t.trace.length ∧ t.status = s.status := by
  obtain ⟨b0, b1, b2, b3, -, hexec⟩ := exec_frame i s hf
  exact ⟨_, hexec, by simp [frameEvents], rfl⟩

/-- ENTER emits events and reports OK or E_ENTRY. -/
theorem exec_enter_emits (s : State) :
    ∃ t, exec .enter s = .next t ∧ s.trace.length < t.trace.length ∧ t.status ≠ .eMode := by
  obtain ⟨r, e, front, hfront, hpass, hfail⟩ := enterIsDecidedByTheEcho s
  have hlen : s.trace.length < front.length := by
    rw [hfront]
    simp only [List.length_append, List.length_cons]
    omega
  by_cases hecho : r.b2 = 0x53
  · exact ⟨_, hpass hecho, hlen, nofun⟩
  · exact ⟨_, hfail hecho, hlen.trans_le (by simp), nofun⟩

/-- EXIT emits its two events and reports OK. -/
theorem exec_exit_emits (s : State) :
    ∃ t, exec .exit s = .next t ∧ s.trace.length < t.trace.length ∧ t.status ≠ .eMode :=
  ⟨_, exitReleasesTheTarget s, by simp, nofun⟩

/-- Settles O22: `exec_rejected` for the 13; every other instruction is a frame, ENTER or EXIT, and these run. -/
theorem guardRejectsInIdle : Obligations.GuardRejectsInIdle := by
  refine ⟨guarded_iff_mem, exec_rejected, fun i s hi _ => ?others⟩
  obtain hf | rfl | rfl := isFrame_or_enter_or_exit (mt (guarded_iff_mem i).mp hi)
  · obtain ⟨t, ht, hlen, hstatus⟩ := exec_frame_emits s hf
    exact ⟨t, ht, hlen, fun h => absurd (hf.symm.trans h) nofun, fun _ => hstatus⟩
  · obtain ⟨t, ht, hlen, hstatus⟩ := exec_enter_emits s
    exact ⟨t, ht, hlen, fun _ => hstatus, nofun⟩
  · obtain ⟨t, ht, hlen, hstatus⟩ := exec_exit_emits s
    exact ⟨t, ht, hlen, fun _ => hstatus, nofun⟩

/-! ## ERASE and POLL (R176, R178) -/

theorem exec_erase {s : State} (hm : s.mode = .programming) :
    exec .erase s = .next (complete .ok 0 (waitFor .erase (sendChipErase s))) :=
  congrArg Host.Outcome.next (if_pos hm)

theorem exec_poll {s : State} (hm : s.mode = .programming) :
    exec .poll s = .next (complete .ok (resultBit (busyFlag s.par (sendPollBusy s).resp)) (sendPollBusy s)) :=
  congrArg Host.Outcome.next (if_pos hm)

/-- Settles O26: the guard decides; behind it `frame_eq`, then `waitFor_eq`, whatever the response. -/
theorem eraseSendsItsFrameAndWaits : Obligations.EraseSendsItsFrameAndWaits := by
  intro s
  refine ⟨exec_rejected .erase s rfl, fun hm => ⟨s.responseTo 0xAC 0x80 0x00 0x00, (s.envAfter 0xAC 0x80 0x00 0x00).wait s.par .erase, ?_⟩⟩
  rw [exec_erase hm, waitFor_eq, sendChipErase, frame_eq, frameEvents, List.append_assoc]
  rfl

/-- Settles O27: the guard decides; behind it `frame_eq` gives the response, whose byte 3 RESULT and the trace share. -/
theorem pollReportsTheBusyBit : Obligations.PollReportsTheBusyBit := by
  intro s
  refine ⟨exec_rejected .poll s rfl, fun hm => ⟨s.responseTo 0xF0 0x00 0x00 0x00, s.envAfter 0xF0 0x00 0x00 0x00, ?_⟩⟩
  rw [exec_poll hm, sendPollBusy, frame_eq]
  rfl

end Sys2Proof.Machine
end


section
/-! PROOFS of the family 42_page_write.md: one load and one commit (R180 to R183), the schedule of a page write and the state it leaves
(R184, R186, R187), its counts (R185), the chunk loaded before its commit (R188), COUNT 0 (R191), and the pages it touches (R73, R74). -/

namespace Sys2Proof.Machine

/-! ## LoadUnit and Commit (R180 to R183) -/

/-- A frame writes RESP, `bi`, the environment, the draws and the trace, whose four events carry the response. -/
theorem frame_answered (b0 b1 b2 b3 : Byte) (s : State) : ∃ (r : Resp) (e : Env), frame b0 b1 b2 b3 s =
    { s with resp := r, bi := 0, env := e, draws := s.draws + 4, trace := s.trace ++ frameEvents b0 b1 b2 b3 r } :=
  ⟨_, _, frame_eq b0 b1 b2 b3 s⟩

/-- Settles O29: the frames one after the other, then the record of the unit; an offset lies within its mask. -/
theorem loadUnitStagesOneUnit : Obligations.LoadUnitStagesOneUnit := by
  intro a v s
  refine ⟨?prog, ?eep, offsetOf_prog_lt a, (offsetOf_eep_lt a).trans (by decide)⟩
  case prog =>
    obtain ⟨r0, e0, hlo⟩ := frame_answered 0x40 0x00 (loByte (offsetOf .prog a)) (loByte v) s
    obtain ⟨r1, e1, hhi⟩ := frame_answered 0x48 0x00 (loByte (offsetOf .prog a)) (hiByte v)
      (frame 0x40 0x00 (loByte (offsetOf .prog a)) (loByte v) s)
    refine ⟨r0, r1, e1, ?_⟩
    rw [loadUnit, sendLoadProgHi, sendLoadProgLo, hhi, hlo, List.append_assoc]
    rfl
  case eep =>
    obtain ⟨r0, e0, h⟩ := frame_answered 0xC1 0x00 (loByte (offsetOf .eep a)) (loByte v) s
    exact ⟨r0, e0, congrArg (stage _ _) h⟩

/-- Settles O30: the frame, then the record emptied. -/
theorem commitSendsThePageAddress : Obligations.CommitSendsThePageAddress := by
  intro a s
  obtain ⟨r, e, hprog⟩ := frame_answered 0x4C (hiByte (pageOf .prog a)) (loByte (pageOf .prog a)) 0x00 s
  obtain ⟨r', e', heep⟩ := frame_answered 0xC2 0x00 (loByte (pageOf .eep a)) 0x00 s
  exact ⟨⟨r, e, congrArg clearPpb hprog⟩, ⟨r', e', congrArg clearPpb heep⟩⟩

/-! ## COUNT 0 (R191, R198) -/

theorem writePages_zero (r : Region) {s : State} (h : s.count = 0) : writePages r s = beginPages s := by
  rw [writePages, h]
  rfl

theorem readUnits_zero (r : Region) {s : State} (h : s.count = 0) : readUnits r s = beginReads s := by
  rw [readUnits, h]
  rfl

/-- Settles O34: neither loop makes a pass, so only what stands before the loops is written. -/
theorem countZeroSendsNothing : Obligations.CountZeroSendsNothing := by
  intro r s hm h
  refine ⟨?_, ?_⟩
  · rw [exec_writeOp r hm, writePages_zero r h]
    rfl
  · rw [exec_readOp r hm, readUnits_zero r h, beginReads, h]
    rfl

/-! ## The schedule and the state it leaves (R184, R186, R187) -/

/-- A state kept but for the registers of the bus side and of the sequencer. -/
theorem Kept.eq {s t : State} (h : Kept s t) : t = { s with
    resp := t.resp, busEn := t.busEn, rst := t.rst, pa := t.pa, k := t.k, i := t.i, bi := t.bi, ppbValid := t.ppbValid,
    ppbVal := t.ppbVal, tmr := t.tmr, out := t.out, env := t.env, draws := t.draws, trace := t.trace } := by
  cases t
  obtain ⟨rfl, rfl, rfl, rfl, rfl, rfl, rfl, rfl, rfl, rfl, rfl, rfl, rfl, rfl⟩ := h
  rfl

/-- The byte exchanges of commands are those of their frames. -/
theorem sum_draws_eq (cs : List Cmd) : (cs.map Cmd.draws).sum = 4 * frameCount cs := by
  induction cs with
  | nil => rfl
  | cons c cs ih =>
    rw [List.map_cons, List.sum_cons, ih]
    cases c <;> simp only [Cmd.draws, frameCount] <;> omega

section
variable (r : Region) (s : State)

/-- The commands of a page write on this state. -/
def State.writeCmds : List Cmd := Machine.writeCmds r s.addr (unitValue r s.values s.draws) s.count.toNat

/-- Where a page write leaves the transient registers (R184; log 10). -/
theorem writePages_counters : (writePages r s).k = s.count ∧
    (writePages r s).pa = s.addr + BitVec.ofNat 16 (pageCount r s.count.toNat * r.upp) ∧
    (writePages r s).bi = (if s.count = 0 then s.bi else 0) ∧
    (writePages r s).tmr = (if s.count = 0 then s.tmr else 0) ∧
    (writePages r s).i = (if s.count = 0 then s.i else BitVec.ofNat 5 ((s.count.toNat - 1) % r.upp + 1)) := by
  have h := writeLoop_counters r s.count.toNat (beginPages s) (Nat.sub_le ..) (Nat.zero_le _)
  have hk : ((beginPages s).k = (beginPages s).count) = (s.count = 0) := propext eq_comm
  simp only [hk] at h
  exact h

/-- The whole state a page write leaves. -/
theorem writePages_eq : ∃ rs : List Resp, rs.length = frameCount (s.writeCmds r) ∧ writePages r s = { s with
    trace := s.trace ++ eventsOf (s.writeCmds r) rs, resp := rs.getLast?.getD s.resp, ppbValid := Vector.replicate 16 false,
    draws := s.draws + 4 * frameCount (s.writeCmds r), env := (writePages r s).env, ppbVal := (writePages r s).ppbVal,
    pa := s.addr + BitVec.ofNat 16 (pageCount r s.count.toNat * r.upp), k := s.count,
    i := if s.count = 0 then s.i else BitVec.ofNat 5 ((s.count.toNat - 1) % r.upp + 1),
    bi := if s.count = 0 then s.bi else 0, tmr := if s.count = 0 then s.tmr else 0 } := by
  obtain ⟨hbus, hout, hppb, hkept⟩ := writePages_spec r s
  obtain ⟨hk, hpa, hbi, htmr, hi⟩ := writePages_counters r s
  obtain ⟨hplayEn, hplayRst⟩ := play_quiet s.par (s.writeCmds r) s.bus (writeCmds_quiet _ _ _ _)
  have hen : (writePages r s).busEn = s.busEn := (congrArg Bus.busEn hbus).trans hplayEn
  have hrst : (writePages r s).rst = s.rst := (congrArg Bus.rst hbus).trans hplayRst
  have hresp : (writePages r s).resp = _ := (congrArg Bus.resp hbus).trans (play_resp s.par (s.writeCmds r) s.bus)
  have htrace : (writePages r s).trace = _ := (congrArg Bus.trace hbus).trans (play_events s.par (s.writeCmds r) s.bus)
  have hdraws : (writePages r s).draws = _ := (congrArg Bus.draws hbus).trans (play_draws s.par (s.writeCmds r) s.bus)
  have heq := hkept.eq
  rw [hen, hrst, hresp, htrace, hdraws, sum_draws_eq, hout, hppb, hk, hpa, hbi, htmr, hi] at heq
  exact ⟨s.bus.responses s.par (s.writeCmds r), responses_length _ _ _, heq⟩

end

theorem writeOp_guarded (r : Region) : (writeOp r).guarded = true := by cases r <;> rfl

/-- Settles O31: in Idle the guard rejects; in Programming the operation is `writePages`, completed with OK. -/
theorem writePagesFollowsItsSchedule : Obligations.WritePagesFollowsItsSchedule := by
  intro r s
  refine ⟨exec_rejected (writeOp r) s (writeOp_guarded r), fun hm => ?_⟩
  obtain ⟨rs, hlen, heq⟩ := writePages_eq r s
  exact ⟨s.writeCmds r, rs, _, rfl, hlen, exec_writeOp r hm, congrArg (complete .ok 0) heq⟩

/-! ## How many frames, loads, commits and waits (R185) -/

/-- The first `m` chunks of `n` units hold `m` pages of them, or all. -/
theorem sum_chunks (u n m : Nat) : ((List.range m).map fun j => min u (n - j * u)).sum = min (m * u) n := by
  induction m with
  | zero => simp
  | succ m ih =>
    rw [List.sum_range_succ, ih, Nat.succ_mul]
    omega

/-- The chunks of a write hold all its units. -/
theorem sum_all_chunks (r : Region) (n : Nat) : ((List.range (pageCount r n)).map fun j => min r.upp (n - j * r.upp)).sum = n := by
  have henough : n ≤ pageCount r n * r.upp := Nat.not_lt.mp fun h => lt_irrefl _ (lt_pageCount r n (pageCount r n) h)
  rw [sum_chunks, Nat.min_eq_right henough]

section
variable {r : Region} {p : Cmd → Bool} {m c : Nat} (hload : ∀ a v, (loadCmds r a v).countP p = m)
  (hcommit : ∀ a, [commitCmd r a, .wait r.wr].countP p = c)
include hload hcommit

/-- Commands of which one load has `m` and a commit with its wait `c`: their number in a page of `n` units. -/
theorem countP_pageCmds (a : Half) (v : Nat → Half) (n : Nat) : (pageCmds r a v n).countP p = m * n + c := by
  have hloads : (List.countP p ∘ fun i => loadCmds r (a + BitVec.ofNat 16 i) (v i)) = fun _ => m := funext fun i => hload _ _
  rw [pageCmds, List.countP_append, hcommit, List.countP_flatMap, hloads, List.map_const', List.length_range, List.sum_replicate,
    smul_eq_mul, Nat.mul_comm]

/-- Their number in a write of `n` units. -/
theorem countP_writeCmds (a : Half) (v : Nat → Half) (n : Nat) :
    (writeCmds r a v n).countP p = m * n + c * pageCount r n := by
  have hpages : (List.countP p ∘ nthPageCmds r a v n) = fun j => m * min r.upp (n - j * r.upp) + c :=
    funext fun j => countP_pageCmds hload hcommit _ _ _
  rw [writeCmds, List.countP_flatMap, hpages, List.sum_map_add, List.sum_map_mul_left, sum_all_chunks, List.map_const',
    List.length_range, List.sum_replicate, smul_eq_mul, Nat.mul_comm c]

end

/-- Whether the command is a frame. -/
def Cmd.isFrame : Cmd → Bool
  | .frame _ _ _ _ => true
  | .wait _ | .enable | .disable | .line _ => false

theorem frameCount_eq_countP (cs : List Cmd) : frameCount cs = cs.countP Cmd.isFrame := by
  induction cs with
  | nil => rfl
  | cons c cs ih =>
    rw [List.countP_cons, ← ih]
    cases c <;> rfl

section
variable (r : Region) (a : Half) (v : Nat → Half) (n : Nat)

theorem frameCount_writeCmds : frameCount (writeCmds r a v n) = r.unitBytes * n + pageCount r n := by
  have h := countP_writeCmds (r := r) (p := Cmd.isFrame) (m := r.unitBytes) (c := 1) (fun _ _ => by cases r <;> rfl)
    (fun _ => by cases r <;> rfl) a v n
  rw [frameCount_eq_countP, h, Nat.one_mul]

theorem length_loads_writeCmds : ((writeCmds r a v n).filter (Cmd.isLoad r)).length = r.unitBytes * n := by
  have h := countP_writeCmds (r := r) (p := Cmd.isLoad r) (m := r.unitBytes) (c := 0) (fun _ _ => by cases r <;> rfl)
    (fun _ => by cases r <;> rfl) a v n
  rw [← List.countP_eq_length_filter, h, Nat.zero_mul, Nat.add_zero]

theorem count_wait_writeCmds : (writeCmds r a v n).count (.wait r.wr) = pageCount r n := by
  have h := countP_writeCmds (r := r) (p := (· == .wait r.wr)) (m := 0) (c := 1) (fun _ _ => by cases r <;> rfl)
    (fun _ => by cases r <;> rfl) a v n
  rw [List.count, h, Nat.zero_mul, Nat.zero_add, Nat.one_mul]

/-- The one commit of a page. -/
theorem filter_isCommit_pageCmds : (pageCmds r a v n).filter (Cmd.isCommit r) = [commitCmd r a] := by
  have hloads : ((List.range n).flatMap fun i => loadCmds r (a + BitVec.ofNat 16 i) (v i)).filter (Cmd.isCommit r) = [] := by
    rw [List.filter_flatMap, List.flatMap_eq_nil_iff]
    exact fun i _ => by cases r <;> rfl
  rw [pageCmds, List.filter_append, hloads]
  cases r <;> rfl

/-- The commits of a write, in order. -/
theorem filter_isCommit_writeCmds : (writeCmds r a v n).filter (Cmd.isCommit r) =
    (List.range (pageCount r n)).map fun j => commitCmd r (a + BitVec.ofNat 16 (j * r.upp)) := by
  rw [writeCmds, List.filter_flatMap, List.map_eq_flatMap]
  exact List.flatMap_congr fun j _ => filter_isCommit_pageCmds r _ _ _

end

/-- Settles O32: the counts of the schedule, whose events the trace shows. -/
theorem commitCountAndCommitAddresses : Obligations.CommitCountAndCommitAddresses := by
  intro r s hm
  obtain ⟨rs, hlen, heq⟩ := writePages_eq r s
  exact ⟨s.writeCmds r, rs, _, exec_writeOp r hm, congrArg State.trace heq, hlen, filter_isCommit_writeCmds r _ _ _,
    count_wait_writeCmds r _ _ _, length_loads_writeCmds r _ _ _, frameCount_writeCmds r _ _ _⟩

/-! ## A chunk is loaded before its commit (R188) -/

theorem loadUnits_pa (r : Region) (m : Nat) (s : State) : (loadUnits r m s).pa = s.pa := by
  induction m generalizing s with
  | zero => rfl
  | succ m ih => rw [loadUnits, ih, loadNext, advanceIndex_pa, loadUnit_pa]

/-- The inner loop adds the offsets of its units to the record. -/
theorem loadUnits_ppbValid (r : Region) (m : Nat) (s : State) (h : s.i.toNat + m ≤ 16) {o : Nat} (ho : o < 16) :
    (loadUnits r m s).ppbValid[o] = true ↔ s.ppbValid[o] = true ∨
      ∃ q < m, (offsetOf r (s.pa + BitVec.ofNat 16 (s.i.toNat + q))).toNat = o := by
  induction m generalizing s with
  | zero => simp [loadUnits]
  | succ m ih =>
    have hi : (loadNext r s).i.toNat = s.i.toNat + 1 := by
      rw [loadNext, advanceIndex_i, loadUnit_i]
      exact succ_i _ (by omega)
    have hpa : (loadNext r s).pa = s.pa := by simp [loadNext]
    have hvalid : (loadNext r s).ppbValid[o] = true ↔
        s.ppbValid[o] = true ∨ (offsetOf r (s.pa + BitVec.ofNat 16 s.i.toNat)).toNat = o := by
      simp only [loadNext, advanceIndex_ppbValid, loadUnit_ppbValid, setWidth_i, Vector.getElem_setIfInBounds]
      split
      case isTrue heq => exact iff_of_true rfl (.inr heq)
      case isFalse hne => exact (or_iff_left hne).symm
    have hunits : (∃ q < m + 1, (offsetOf r (s.pa + BitVec.ofNat 16 (s.i.toNat + q))).toNat = o) ↔
        (offsetOf r (s.pa + BitVec.ofNat 16 s.i.toNat)).toNat = o ∨
          ∃ q < m, (offsetOf r (s.pa + BitVec.ofNat 16 (s.i.toNat + 1 + q))).toNat = o := by
      rw [Nat.exists_lt_succ_left]
      simp only [Nat.add_zero, Nat.add_assoc, Nat.add_comm 1]
    rw [loadUnits, ih (loadNext r s) (by omega), hi, hpa, hvalid, hunits, or_assoc]

/-- From an empty record the inner loop leaves the offsets of its units. -/
theorem loadUnits_ppbValid_of_empty (r : Region) {s : State} (h : s.ppbEmpty) {m : Nat} (hm : m ≤ r.upp) (o : Fin 16) :
    (loadUnits r m (firstIndex s)).ppbValid[o] = true ↔ ∃ q < m, ((s.pa + BitVec.ofNat 16 q) &&& r.offs).toNat = o.val := by
  have hempty : s.ppbValid[o.val] ≠ true := Bool.eq_false_iff.mp (h o)
  have hloads := loadUnits_ppbValid r m (firstIndex s) (by simpa using hm.trans (upp_le r)) o.isLt
  simpa [hempty, offsetOf] using hloads

/-- Addresses less than a page apart have different offsets. -/
theorem offset_injective {r : Region} {a : Half} {q p : Nat} (hq : q < r.upp) (hp : p < r.upp)
    (h : (a + BitVec.ofNat 16 q) &&& r.offs = (a + BitVec.ofNat 16 p) &&& r.offs) : q = p := by
  have h := congrArg BitVec.toNat h
  simp only [offs_toNat, BitVec.toNat_add, BitVec.toNat_ofNat] at h
  cases r <;> simp only [Region.upp] at hq hp h <;> omega

/-- A pass commits the page its loads were made for: the loads leave `pa` alone. -/
theorem writeChunk_eq (r : Region) (s : State) : writeChunk r s = nextPage r (waitFor r.wr
    (commit r s.pa (advanceValues (chunkSize r s) (loadUnits r (chunkSize r s) (firstIndex s))))) := by
  rw [writeChunk, commitPage, advanceValues_pa, loadUnits_pa, firstIndex_pa]

theorem chunkSize_pos (r : Region) {s : State} (h : s.k.toNat < s.count.toNat) : 1 ≤ chunkSize r s :=
  le_min (upp_pos r) (by omega)

theorem chunkSize_le_upp (r : Region) (s : State) : chunkSize r s ≤ r.upp := Nat.min_le_left ..

/-- Settles O33: the loop's record from an empty one, for any `m` and for the chunk; the pass by `writeChunk_eq`. -/
theorem chunkIsLoadedBeforeItsCommit : Obligations.ChunkIsLoadedBeforeItsCommit :=
  ⟨fun r _ _ h hm => ⟨loadUnits_ppbValid_of_empty r h hm, fun _ hq _ hp => offset_injective (hq.trans_le hm) (hp.trans_le hm)⟩,
    fun r s h => ⟨chunkSize_pos r h, chunkSize_le_upp r s⟩,
    fun r a s => ppbEmpty_replicate (commit_ppbValid r a s),
    fun r s => ⟨writeChunk_eq r s, fun h => loadUnits_ppbValid_of_empty r h (chunkSize_le_upp r s)⟩⟩

/-! ## The pages a write touches (R73, R74) -/

/-- Byte `x` of the region's memory is outside the page of address `a`. -/
def OutsidePage (r : Region) (a : Half) (x : Nat) : Prop :=
  x < r.unitBytes * (a &&& r.page).toNat ∨ r.unitBytes * ((a &&& r.page).toNat + r.upp) ≤ x

/-- A play of some pages of a write leaves a ready target ready, and alone outside these pages. -/
theorem nthPages_ready {r : Region} {p : Params} (hT : p.ticks r.wr ≠ 0) (start : Half) (v : Nat → Half) (n : Nat) (js : List Nat)
    {b : Bus} {t : Target} (hb : b.env = .reference t) (h : t.Ready) (hw : t.WF) :
    ∃ u, (b.play p (js.flatMap (nthPageCmds r start v n))).env = .reference u ∧ u.Ready ∧
      ∀ sp x, sp ≠ latchOf r → (sp = spaceOf r → ∀ j ∈ js, OutsidePage r (start + BitVec.ofNat 16 (j * r.upp)) x) →
        (u.space sp).read x = (t.space sp).read x := by
  induction js generalizing b t with
  | nil => exact ⟨t, hb, h, fun _ _ _ _ => rfl⟩
  | cons j js ih =>
    obtain ⟨t', hb', h', hw', hpage, -⟩ := pageCmds_ready r p hT (start + BitVec.ofNat 16 (j * r.upp))
      (fun i => v (j * r.upp + i)) (min r.upp (n - j * r.upp)) (Nat.min_le_left ..) b t hb h hw
    obtain ⟨u, hbu, hu, hpages⟩ := ih hb' h' hw'
    refine ⟨u, ?_, hu, fun sp x hlatch hx => ?_⟩
    · rw [List.flatMap_cons, Bus.play_append]
      exact hbu
    · have hrest := hpages sp x hlatch fun hsp i hi => hx hsp i (List.mem_cons_of_mem _ hi)
      exact hrest.trans (hpage sp x hlatch fun hsp => hx hsp j List.mem_cons_self)

/-- Settles O54: the schedule is the play of all its pages. -/
theorem pageWriteTouchesOnlyItsPages : Obligations.PageWriteTouchesOnlyItsPages := by
  intro r s hm hready hwf hT
  obtain ⟨t, hs, ht⟩ := hready.exists
  have hw : t.WF := (Env.wf_reference t).mp (hs ▸ hwf)
  obtain ⟨u, hplay, hu, hpages⟩ := nthPages_ready (b := s.bus) hT s.addr (unitValue r s.values s.draws) s.count.toNat
    (List.range (pageCount r s.count.toNat)) hs ht hw
  obtain ⟨hbus, -⟩ := writePages_spec r s
  have henv : (complete .ok 0 (writePages r s)).env = .reference u := (congrArg Bus.env hbus).trans hplay
  refine ⟨_, exec_writeOp r hm, henv ▸ hu, fun sp x hlatch hx => ?_⟩
  rw [henv, hs, peek_reference, peek_reference]
  exact hpages sp x hlatch fun hsp j hj => hx hsp j (List.mem_range.mp hj)

end Sys2Proof.Machine
end

section
/-! PROOFS of the family 43_read.md: ReadUnit (R196), the schedule of a unit read and the state it leaves (R197, R199, R200), and the
round trip of a page write and a read of the same range (R201). -/

namespace Sys2Proof.Machine

/-! ## ReadUnit (R196) -/

/-- A word put together from its two bytes (30_encoding.md R95). -/
theorem ofBytes_eq_or (h l : Byte) : ofBytes h l = h.setWidth 16 <<< 8 ||| l.setWidth 16 := by
  rw [ofBytes, BitVec.append_def, BitVec.shiftLeftZeroExtend_eq, BitVec.setWidth'_eq]

/-- Settles O36: the frames one after the other; the second overwrites RESP, and the unit has a byte of each response. -/
theorem readUnitAssemblesTheResponses : Obligations.ReadUnitAssemblesTheResponses := by
  intro a s
  refine ⟨?prog, ?eep⟩
  case prog =>
    obtain ⟨r0, e0, hlo⟩ := frame_answered 0x20 (hiByte (wholeAddr .prog a)) (loByte (wholeAddr .prog a)) 0x00 s
    obtain ⟨r1, e1, hhi⟩ := frame_answered 0x28 (hiByte (wholeAddr .prog a)) (loByte (wholeAddr .prog a)) 0x00
      (frame 0x20 (hiByte (wholeAddr .prog a)) (loByte (wholeAddr .prog a)) 0x00 s)
    refine ⟨r0, r1, e1, ?_⟩
    rw [readUnit, sendReadProgHi, sendReadProgLo, hhi, hlo, ofBytes_eq_or, List.append_assoc]
    rfl
  case eep =>
    obtain ⟨r0, e0, h⟩ := frame_answered 0xA0 0x00 (loByte (wholeAddr .eep a)) 0x00 s
    exact ⟨r0, e0, congrArg (fun t => (t.resp.b3.setWidth 16, t)) h⟩

/-! ## The schedule and the state it leaves (R197, R199, R200) -/

/-- Frames alone leave the timer as it is. -/
theorem play_tmr_of_isFrame (p : Params) {cs : List Cmd} (b : Bus) (h : ∀ c ∈ cs, c.isFrame = true) :
    (b.play p cs).tmr = b.tmr := by
  induction cs generalizing b with
  | nil => rfl
  | cons c cs ih =>
    have hact : (b.act p c).tmr = b.tmr := by
      cases c with
      | frame => rfl
      | wait | enable | disable | line => exact absurd (h _ List.mem_cons_self) Bool.false_ne_true
    exact (ih (b.act p c) fun d hd => h d (List.mem_cons_of_mem _ hd)).trans hact

theorem readAllCmds_isFrame (r : Region) (a : Half) (n : Nat) : ∀ c ∈ readAllCmds r a n, c.isFrame = true := by
  intro c hc
  obtain ⟨q, -, hq⟩ := List.mem_flatMap.mp hc
  cases r
  · simp only [readCmds, List.mem_cons, List.not_mem_nil, or_false] at hq
    rcases hq with rfl | rfl <;> rfl
  · cases List.mem_singleton.mp hq
    rfl

section
variable (r : Region) (s : State)

/-- The commands of a unit read on this state. -/
def State.readCmds : List Cmd := readAllCmds r s.addr s.count.toNat

/-- The whole state a unit read leaves, from the responses to its frames (log 10, log 11). -/
theorem readUnits_eq : readUnits r s = { s with
    trace := s.trace ++ eventsOf (s.readCmds r) (readResponses s r), resp := (readResponses s r).getLast?.getD s.resp,
    out := (unitsRead r (readResponses s r)).reverse, draws := s.draws + 4 * frameCount (s.readCmds r),
    env := (readUnits r s).env, k := 0, bi := if s.count = 0 then s.bi else 0 } := by
  obtain ⟨hbus, hkept, hvalid, hval, hpa, hi, hout⟩ := readUnits_spec r s
  obtain ⟨hk, hbi⟩ : (readUnits r s).k = 0 ∧ (readUnits r s).bi = if s.count.toNat = 0 then s.bi else 0 :=
    readLoop_counters r s.count.toNat (beginReads s) rfl
  obtain ⟨hplayEn, hplayRst⟩ := play_quiet s.par (s.readCmds r) s.bus (readAllCmds_quiet _ _ _)
  have hen : (readUnits r s).busEn = s.busEn := (congrArg Bus.busEn hbus).trans hplayEn
  have hrst : (readUnits r s).rst = s.rst := (congrArg Bus.rst hbus).trans hplayRst
  have htmr : (readUnits r s).tmr = s.tmr :=
    (congrArg Bus.tmr hbus).trans (play_tmr_of_isFrame s.par s.bus (readAllCmds_isFrame _ _ _))
  have hresp : (readUnits r s).resp = _ := (congrArg Bus.resp hbus).trans (play_resp s.par (s.readCmds r) s.bus)
  have hdraws : (readUnits r s).draws = _ := (congrArg Bus.draws hbus).trans (play_draws s.par (s.readCmds r) s.bus)
  have hzero : (s.count.toNat = 0) = (s.count = 0) := propext (BitVec.toNat_inj (y := 0))
  have heq := hkept.eq
  simp only [hen, hrst, htmr, hresp, readUnits_trace, hdraws, sum_draws_eq, hvalid, hval, hpa, hi, hout, hk, hbi, hzero] at heq
  exact heq

end

theorem readOp_guarded (r : Region) : (readOp r).guarded = true := by cases r <;> rfl

/-- Settles O37: in Idle the guard rejects; in Programming the operation is `readUnits`, completed with OK. -/
theorem readUnitsFollowsItsSchedule : Obligations.ReadUnitsFollowsItsSchedule := by
  intro r s
  refine ⟨exec_rejected (readOp r) s (readOp_guarded r), fun hm => ?_⟩
  have heq := readUnits_eq r s
  have hlen : (readUnits r s).out.length = s.count.toNat := by
    rw [heq, List.length_reverse]
    exact unitsRead_length s.par r s.addr s.count.toNat s.bus
  exact ⟨s.readCmds r, readResponses s r, _, rfl, responses_length _ _ _, exec_readOp r hm, hlen, congrArg (complete .ok 0) heq⟩

/-! ## The round trip (R201)

A write of whole pages stores every unit: each page stores its own (`pageCmds_ready`) and leaves alone the pages before it, since a
write of at most a region does not come back to them. A read of units the target holds gives them back. -/

/-- The target holds unit `i` of `v` at `start + i`, for every `i` below `n`, the address taken under FULL (20_memory.md R55). -/
def HoldsUnits (r : Region) (t : Target) (start : Half) (v : Nat → Half) (n : Nat) : Prop :=
  ∀ i < n, holdsUnit (t.space (spaceOf r)) r ((start + BitVec.ofNat 16 i) &&& r.full).toNat (v i)

/-- A memory that reads alike at the bytes of a unit holds it too. -/
theorem holdsUnit_of_read_eq {r : Region} {m m' : Memory} {a : Nat} {v : Half}
    (h : ∀ x, r.unitBytes * a ≤ x → x < r.unitBytes * (a + 1) → m'.read x = m.read x) (hm : holdsUnit m r a v) :
    holdsUnit m' r a v := by
  cases r with
  | prog =>
    simp only [Region.unitBytes] at h
    obtain ⟨hlo, hhi⟩ := hm
    exact ⟨(h _ (by omega) (by omega)).trans hlo, (h _ (by omega) (by omega)).trans hhi⟩
  | eep =>
    simp only [Region.unitBytes] at h
    exact (h a (by omega) (by omega)).trans hm

/-- A unit address outside a page has all its bytes outside it. -/
theorem outsidePage_of_unit {r : Region} {a : Half} {u x : Nat}
    (hu : u < (a &&& r.page).toNat ∨ (a &&& r.page).toNat + r.upp ≤ u) (hlo : r.unitBytes * u ≤ x)
    (hhi : x < r.unitBytes * (u + 1)) : OutsidePage r a x := by
  rcases hu with hu | hu
  · exact .inl (hhi.trans_le (Nat.mul_le_mul_left _ hu))
  · exact .inr ((Nat.mul_le_mul_left _ hu).trans hlo)

section
variable {r : Region} {start : Half} (ha : start.toNat % r.upp = 0)
include ha

/-- The pages of a write from an aligned start are aligned (20_memory.md R54). -/
theorem page_aligned (j : Nat) : (start + BitVec.ofNat 16 (j * r.upp)).toNat % r.upp = 0 := by
  rw [BitVec.toNat_add, BitVec.toNat_ofNat]
  cases r <;> simp only [Region.upp] at ha ⊢ <;> omega

/-- Unit `i` of page `j` stands `i` units into the page. -/
theorem unit_in_page {j i : Nat} (hi : i < r.upp) : ((start + BitVec.ofNat 16 (j * r.upp + i)) &&& r.full).toNat =
    ((start + BitVec.ofNat 16 (j * r.upp)) &&& r.page).toNat + i := by
  rw [full_toNat, page_toNat, BitVec.toNat_add, BitVec.toNat_add, BitVec.toNat_ofNat, BitVec.toNat_ofNat]
  cases r <;> simp only [Region.upp, Region.full, BitVec.reduceToNat] at ha hi ⊢ <;> omega

/-- In a write of at most a region, a unit of an earlier page is outside page `j`. -/
theorem earlier_unit_outside_page {j i : Nat} (hi : i < j * r.upp) (hj : j * r.upp ≤ r.full.toNat) :
    ((start + BitVec.ofNat 16 i) &&& r.full).toNat < ((start + BitVec.ofNat 16 (j * r.upp)) &&& r.page).toNat ∨
      ((start + BitVec.ofNat 16 (j * r.upp)) &&& r.page).toNat + r.upp ≤ ((start + BitVec.ofNat 16 i) &&& r.full).toNat := by
  rw [full_toNat, page_toNat, BitVec.toNat_add, BitVec.toNat_add, BitVec.toNat_ofNat, BitVec.toNat_ofNat]
  cases r <;> simp only [Region.upp, Region.full, BitVec.reduceToNat] at ha hi hj ⊢ <;> omega

end

/-- The pages of a write have room for all its units (42_page_write.md R184). -/
theorem le_pageCount_mul (r : Region) (n : Nat) : n ≤ pageCount r n * r.upp :=
  Nat.not_lt.mp fun h => lt_irrefl _ (lt_pageCount r n _ h)

/-- The first `m` pages of an aligned write of at most a region leave a ready target ready, and holding their units. -/
theorem writePages_store {r : Region} {p : Params} (hT : p.ticks r.wr ≠ 0) {start : Half} (ha : start.toNat % r.upp = 0)
    (v : Nat → Half) {n m : Nat} (hn : n ≤ r.full.toNat + 1) (hm : m ≤ pageCount r n) {b : Bus} {t : Target}
    (hb : b.env = .reference t) (h : t.Ready) (hw : t.WF) :
    ∃ u, (b.play p ((List.range m).flatMap (nthPageCmds r start v n))).env = .reference u ∧ u.Ready ∧ u.WF ∧
      HoldsUnits r u start v (min (m * r.upp) n) := by
  induction m with
  | zero => exact ⟨t, hb, h, hw, fun i hi => absurd hi (by omega)⟩
  | succ j ih =>
    obtain ⟨u, hu, hur, huw, hearlier⟩ := ih (Nat.le_of_succ_le hm)
    obtain ⟨w, hplay, hwr, hww, houtside, hpage⟩ := pageCmds_ready r p hT (start + BitVec.ofNat 16 (j * r.upp))
      (fun i => v (j * r.upp + i)) (min r.upp (n - j * r.upp)) (Nat.min_le_left ..) _ u hu hur huw
    have hj : j * r.upp < n := Nat.not_le.mp fun hle => Nat.not_lt.mpr (pageCount_le r n j hle) hm
    refine ⟨w, ?_, hwr, hww, fun i hi => ?_⟩
    · rw [List.range_succ, List.flatMap_append, Bus.play_append, List.flatMap_singleton]
      exact hplay
    · rw [Nat.succ_mul] at hi
      by_cases hij : i < j * r.upp
      · have hout := earlier_unit_outside_page ha hij (by omega)
        refine holdsUnit_of_read_eq (fun x hlo hhi => ?_) (hearlier i (by omega))
        exact houtside _ x (by cases r <;> decide) fun _ => outsidePage_of_unit hout hlo hhi
      · obtain ⟨q, rfl⟩ := Nat.exists_eq_add_of_le (Nat.not_lt.mp hij)
        rw [unit_in_page ha (by omega)]
        exact hpage (page_aligned ha j) q (by omega)

/-- A read of one more unit reads that unit first (R197). -/
theorem readAllCmds_succ (r : Region) (a : Half) (n : Nat) :
    readAllCmds r a (n + 1) = readCmds r (a + BitVec.ofNat 16 n) ++ readAllCmds r a n := by
  rw [readAllCmds, List.range_succ_eq_map, List.flatMap_cons, List.flatMap_map, readAllCmds]
  congr 1
  refine List.flatMap_congr fun q _ => ?_
  rw [show n + 1 - 1 - (q + 1) = n - 1 - q by omega]

/-- Units the target holds are read back, the last one first. -/
theorem unitsRead_held {r : Region} (p : Params) {start : Half} {v : Nat → Half} {n : Nat} {b : Bus} {t : Target}
    (hb : b.env = .reference t) (h : t.Ready) (hh : HoldsUnits r t start v n) :
    (unitsRead r (b.responses p (readAllCmds r start n))).reverse = (List.range n).map fun i => unitOf r (v i) := by
  induction n generalizing b t with
  | zero => rfl
  | succ n ih =>
    obtain ⟨hunit, u, hu, hur, hspace⟩ := readCmds_ready r p b t hb h (start + BitVec.ofNat 16 n) (v n) (hh n (by omega))
      ((b.play p (readCmds r (start + BitVec.ofNat 16 n))).responses p (readAllCmds r start n))
    have hrest : HoldsUnits r u start v n := fun i hi => by
      rw [hspace]
      exact hh i (by omega)
    rw [readAllCmds_succ, responses_append, hunit, List.reverse_cons, ih hu hur hrest, List.range_succ, List.map_append]
    rfl

/-- A buffer that supplies every value gives them all to the write (20_memory.md R69). -/
theorem map_unitValue (r : Region) (values : List Half) (d : Nat) :
    ((List.range values.length).map fun j => unitOf r (unitValue r values d j)) = values.map (unitOf r) := by
  refine List.ext_getElem (by simp) fun j _ hj => ?_
  have hget : values[j]? = some (values[j]'(by simpa using hj)) := List.getElem?_eq_getElem _
  simp [unitValue, hget]

/-- A write of all its values to a ready target leaves it ready and holding them. -/
theorem writePages_holds {r : Region} {s : State} (hready : s.env.Ready) (hwf : s.env.wf = true) (hT : s.par.ticks r.wr ≠ 0)
    (ha : s.addr &&& r.offs = 0) (hcount : s.count.toNat ≤ r.full.toNat + 1) :
    ∃ u, (writePages r s).env = .reference u ∧ u.Ready ∧
      HoldsUnits r u s.addr (unitValue r s.values s.draws) s.count.toNat := by
  obtain ⟨t, hs, ht⟩ := hready.exists
  have hw : t.WF := (Env.wf_reference t).mp (hs ▸ hwf)
  have haligned : s.addr.toNat % r.upp = 0 := by rw [← offs_toNat, ha]; rfl
  obtain ⟨u, hplay, hu, -, hholds⟩ := writePages_store (b := s.bus) hT haligned (unitValue r s.values s.draws) hcount le_rfl hs ht hw
  obtain ⟨hbus, -⟩ := writePages_spec r s
  rw [Nat.min_eq_right (le_pageCount_mul r _)] at hholds
  exact ⟨u, (congrArg Bus.env hbus).trans hplay, hu, hholds⟩

/-- Settles O55: the target holds what the write supplied, and gives it back to the read, which has the operands of the write. -/
theorem pageWriteThenReadReturnsTheValues : Obligations.PageWriteThenReadReturnsTheValues := by
  intro r s hm hready hwf hT ha hcount hlen
  obtain ⟨u, henv, hu, hholds⟩ := writePages_holds hready hwf hT ha hcount
  obtain ⟨-, -, -, hkept⟩ := writePages_spec r s
  have hm' : (complete .ok 0 (writePages r s)).mode = .programming := hkept.mode.trans hm
  refine ⟨_, _, exec_writeOp r hm, exec_readOp r hm', ?_, rfl⟩
  obtain ⟨-, -, -, -, -, -, hout⟩ := readUnits_spec r (complete .ok 0 (writePages r s))
  rw [complete_addr, complete_count, hkept.addr, hkept.count] at hout
  rw [complete_out, hout, unitsRead_held _ (b := (complete .ok 0 (writePages r s)).bus) henv hu hholds, ← hlen, map_unitValue]

end Sys2Proof.Machine
end

section
/-! PROOFS of the family 44_ancillary.md: RDLOCK and WRLOCK (R206, R207), RDSIG (R208), WRFUSE and RDFUSE (R209 to R211), RDCAL (R212). Each
operation sends its frames, and after each write waits, one after the other: `Sent` says what they leave, and `exec_sent` puts
the guard before them and the completion after them. -/

namespace Sys2Proof.Machine

/-! ## Frames and waits one after the other -/

/-- Frames and waits lead from `s` to `t`, at least one frame among them: `es` are their events, `n` their byte exchanges, and the timer is
left at `tm`. RESP and the environment are those of `t`; every other register is that of `s`. -/
def Sent (s t : State) (tm n : Nat) (es : List Event) : Prop :=
  t = { s with resp := t.resp, bi := 0, env := t.env, draws := s.draws + n, tmr := tm, trace := s.trace ++ es }

/-- The first frame. -/
theorem sent_frame (b0 b1 b2 b3 : Byte) (s : State) :
    Sent s (frame b0 b1 b2 b3 s) s.tmr 4 (frameEvents b0 b1 b2 b3 (frame b0 b1 b2 b3 s).resp) := by
  rw [frame_resp]
  exact frame_eq b0 b1 b2 b3 s

section
variable {s t : State} {tm n : Nat} {es : List Event}

/-- Another frame. Its response and environment stay those given to `t`: they are set aside before `t` is written out. -/
theorem Sent.frame (h : Sent s t tm n es) (b0 b1 b2 b3 : Byte) :
    Sent s (frame b0 b1 b2 b3 t) tm (n + 4) (es ++ frameEvents b0 b1 b2 b3 (frame b0 b1 b2 b3 t).resp) := by
  rw [Sent, frame_resp, frame_env, frame_eq, ← List.append_assoc]
  generalize t.responseTo b0 b1 b2 b3 = r
  generalize t.envAfter b0 b1 b2 b3 = e
  rw [h]
  rfl

/-- A settle wait. -/
theorem Sent.waitFor (h : Sent s t tm n es) (k : WaitKind) : Sent s (waitFor k t) 0 n (es ++ [.wait k]) := by
  rw [Sent, waitFor_resp, waitFor_env, waitFor_eq, ← List.append_assoc]
  generalize t.env.wait t.par k = e
  rw [h]

/-- A guarded operation that sends these frames in Programming and completes with OK: its whole next state. -/
theorem exec_sent {i : Instr} {body : State → State} {w : Word} (hm : s.mode = .programming) (h : Sent s t tm n es)
    (hguard : exec i s = .next (guarded body s)) (hbody : body s = complete .ok w t) :
    exec i s = .next
      { s with resp := t.resp, bi := 0, env := t.env, draws := s.draws + n, tmr := tm, trace := s.trace ++ es,
               result := w, status := .ok, busy := false } := by
  rw [hguard, guarded, if_pos hm, hbody]
  exact congrArg (fun u => Host.Outcome.next (complete .ok w u)) h

end

/-! ## The lock byte (R206, R207) -/

/-- Settles O38: one frame, whose byte 3 RESULT and the trace share. -/
theorem rdlockReturnsTheLockByte : Obligations.RdlockReturnsTheLockByte := by
  intro s
  refine ⟨exec_rejected .rdlock s rfl, fun hm => ?_⟩
  have h : Sent s (sendReadLock s) _ _ _ := sent_frame 0x58 0x00 0x00 0x00 s
  exact ⟨_, _, exec_sent hm h rfl rfl⟩

/-- Settles O39: one frame and its wait. -/
theorem wrlockSendsTheLockByteAndWaits : Obligations.WrlockSendsTheLockByteAndWaits := by
  intro s
  refine ⟨exec_rejected .wrlock s rfl, fun hm => ?_⟩
  have h : Sent s (waitFor .lock (sendWriteLock s.d0 s)) _ _ _ := (sent_frame 0xAC 0xE0 0x00 s.d0 s).waitFor .lock
  exact ⟨_, _, exec_sent hm h rfl rfl⟩

/-! ## The signature and the calibration bytes (R208, R212) -/

/-- Settles O40: four frames, one sub-address after the other; RESULT has byte 3 of each response. -/
theorem rdsigAssemblesFourBytes : Obligations.RdsigAssemblesFourBytes := by
  intro s
  refine ⟨exec_rejected .rdsig s rfl, fun hm => ?_⟩
  have h0 : Sent s (sendReadSig 0 s) _ _ _ := sent_frame 0x30 0x00 0x00 0x00 s
  have h1 : Sent s (sendReadSig 1 (sendReadSig 0 s)) _ _ _ := h0.frame 0x30 0x00 0x01 0x00
  have h2 : Sent s (sendReadSig 2 (sendReadSig 1 (sendReadSig 0 s))) _ _ _ := h1.frame 0x30 0x00 0x02 0x00
  have h3 : Sent s (sendReadSig 3 (sendReadSig 2 (sendReadSig 1 (sendReadSig 0 s)))) _ _ _ := h2.frame 0x30 0x00 0x03 0x00
  have hexec := exec_sent (i := .rdsig) hm h3 rfl rfl
  rw [resultBytes_four] at hexec
  exact ⟨_, _, _, _, _, hexec⟩

/-- Settles O43: two frames, one sub-address after the other, and RESULT as RDSIG's. -/
theorem rdcalAssemblesTwoBytes : Obligations.RdcalAssemblesTwoBytes := by
  intro s
  refine ⟨exec_rejected .rdcal s rfl, fun hm => ?_⟩
  have h0 : Sent s (sendReadCal 0 s) _ _ _ := sent_frame 0x38 0x00 0x00 0x00 s
  have h1 : Sent s (sendReadCal 1 (sendReadCal 0 s)) _ _ _ := h0.frame 0x38 0x00 0x01 0x00
  have hexec := exec_sent (i := .rdcal) hm h1 rfl rfl
  rw [resultBytes_two] at hexec
  exact ⟨_, _, _, hexec⟩

/-! ## The fuse bytes (R209 to R211) -/

/-- Settles O41: three frames, each with its wait; no frame writes the operands D0 to D2. -/
theorem wrfuseWritesThreeBytesEachWithItsWait : Obligations.WrfuseWritesThreeBytesEachWithItsWait := by
  intro s
  refine ⟨exec_rejected .wrfuse s rfl, fun hm => ?_⟩
  have h0 := (sent_frame 0xAC 0xA0 0x00 s.d0 s).waitFor .fuse
  have h1 := (h0.frame 0xAC 0xA8 0x00 s.d1).waitFor .fuse
  have h2 := (h1.frame 0xAC 0xA4 0x00 s.d2).waitFor .fuse
  exact ⟨_, _, _, _, exec_sent hm h2 rfl rfl⟩

/-- Settles O42: three frames with the entries of FUSE_RD, a parameter that no frame writes. -/
theorem rdfuseReadsWithTheConfiguredTable : Obligations.RdfuseReadsWithTheConfiguredTable := by
  intro s
  refine ⟨exec_rejected .rdfuse s rfl, fun hm => ?_⟩
  have h0 : Sent s (sendReadFuseLo s) _ _ _ := sent_frame s.par.fuseRd.low.opcode.byte s.par.fuseRd.low.hi 0x00 0x00 s
  have h1 : Sent s (sendReadFuseHi (sendReadFuseLo s)) _ _ _ :=
    h0.frame s.par.fuseRd.high.opcode.byte s.par.fuseRd.high.hi 0x00 0x00
  have h2 : Sent s (sendReadFuseExt (sendReadFuseHi (sendReadFuseLo s))) _ _ _ :=
    h1.frame s.par.fuseRd.ext.opcode.byte s.par.fuseRd.ext.hi 0x00 0x00
  have hexec := exec_sent (i := .rdfuse) hm h2 rfl rfl
  rw [resultBytes_three] at hexec
  exact ⟨_, _, _, _, hexec⟩

end Sys2Proof.Machine
end

section
/-! PROOFS of the family 60_exceptions.md: the answers of the target steer nothing but ENTER (R223). Two states that differ in what the
answers fill are `Alike`; every shared operation keeps its two runs alike, the loops by induction, and so does every instruction,
ENTER as long as both runs reach the same verdict. -/

namespace Sys2Proof.Machine

/-! ## A frame to an unconstrained environment (R223) -/

/-- Settles O16: each of the four exchanges takes the next byte of the script. -/
theorem anyResponseBytesAreTaken : Obligations.AnyResponseBytesAreTaken := by
  intro b0 b1 b2 b3 r0 r1 r2 r3 q s henv
  have hanswer : s.env.exchangeFrame s.par s.draws b0 b1 b2 b3 = (⟨r0, r1, r2, r3⟩, .unconstrained q) := by rw [henv]; rfl
  rw [frame_eq, State.responseTo, State.envAfter, hanswer]
  rfl

/-! ## States alike but for the answers -/

/-- The second state differs from the first at most in RESP, RESULT, the read buffer, the environment and the answers in the trace. -/
inductive Alike (t : State) : State → Prop
  | intro (r : Resp) (w : Word) (o : List Half) (e : Env) (tr : List Event)
      (commands : tr.map Event.command = t.trace.map Event.command) :
      Alike t { t with resp := r, result := w, out := o, env := e, trace := tr }

section
variable {t u : State}

theorem Alike.eq (h : Alike t u) :
    u = { t with resp := u.resp, result := u.result, out := u.out, env := u.env, trace := u.trace } := by
  cases h; rfl

theorem Alike.commands_eq (h : Alike t u) : u.trace.map Event.command = t.trace.map Event.command := by
  cases h; assumption

/-- What holds no answer reads the same of alike states. -/
theorem Alike.reads {α : Type} (h : Alike t u) (f : State → α)
    (hf : ∀ r w o e tr, f { t with resp := r, result := w, out := o, env := e, trace := tr } = f t := by intros; rfl) :
    f u = f t := by
  obtain ⟨r, w, o, e, tr, _⟩ := h
  exact hf r w o e tr

/-- Alike states have sent the same commands since any earlier state. -/
theorem Alike.eventsSince (h : Alike t u) (s : State) :
    (eventsSince s u).map Event.command = (eventsSince s t).map Event.command := by
  rw [Machine.eventsSince, Machine.eventsSince, List.map_drop, List.map_drop, h.commands_eq]

/-- The same commands after alike traces. -/
theorem commands_append {tr tr' es es' : List Event} (h : tr'.map Event.command = tr.map Event.command)
    (hes : es'.map Event.command = es.map Event.command) :
    (tr' ++ es').map Event.command = (tr ++ es).map Event.command := by
  rw [List.map_append, List.map_append, h, hes]

/-! ## The shared operations -/

/-- Writing registers that hold no answer, from what holds none. -/
theorem Alike.registers {f : State → State} (h : Alike t u)
    (hf : ∀ r w o e tr, f { t with resp := r, result := w, out := o, env := e, trace := tr } =
      { f t with resp := r, result := w, out := o, env := e, trace := tr } := by intros; rfl) : Alike (f t) (f u) := by
  have htrace := congrArg State.trace (hf t.resp t.result t.out t.env t.trace)
  obtain ⟨r, w, o, e, tr, hcommands⟩ := h
  rw [hf r w o e tr]
  exact ⟨r, w, o, e, tr, hcommands.trans (congrArg (List.map Event.command) htrace.symm)⟩

/-- A frame's bytes do not depend on the answers, so only its response and the environment can differ. -/
theorem Alike.frame (h : Alike t u) (b0 b1 b2 b3 : Byte) : Alike (frame b0 b1 b2 b3 t) (frame b0 b1 b2 b3 u) := by
  obtain ⟨_, _, _, _, _, htrace⟩ := h
  rw [frame_eq, frame_eq]
  exact ⟨_, _, _, _, _, commands_append htrace rfl⟩

theorem Alike.waitFor : Alike t u → ∀ k, Alike (waitFor k t) (waitFor k u)
  | ⟨_, _, _, _, _, htrace⟩, _ => ⟨_, _, _, _, _, commands_append htrace rfl⟩

theorem Alike.busEnable : Alike t u → Alike (busEnable t) (busEnable u)
  | ⟨_, _, _, _, _, htrace⟩ => ⟨_, _, _, _, _, commands_append htrace rfl⟩

theorem Alike.busDisable : Alike t u → Alike (busDisable t) (busDisable u)
  | ⟨_, _, _, _, _, htrace⟩ => ⟨_, _, _, _, _, commands_append htrace rfl⟩

theorem Alike.resetLine : Alike t u → ∀ l, Alike (resetLine l t) (resetLine l u)
  | ⟨_, _, _, _, _, htrace⟩, _ => ⟨_, _, _, _, _, commands_append htrace rfl⟩

/-- RESULT may be computed from the answers. -/
theorem Alike.complete : Alike t u → ∀ st v w, Alike (complete st v t) (complete st w u)
  | ⟨_, _, _, _, _, htrace⟩, _, _, _ => ⟨_, _, _, _, _, htrace⟩

/-- The guard looks at the mode, which holds no answer. -/
theorem Alike.guarded {body : State → State} (h : Alike t u) (hbody : Alike (body t) (body u)) :
    Alike (guarded body t) (guarded body u) := by
  rw [Machine.guarded, Machine.guarded, h.reads State.mode]
  split
  · exact hbody
  · exact h.complete .eMode 0 0

/-! ## The page write (R180 to R184) -/

theorem Alike.loadUnit (h : Alike t u) (r : Region) (a v : Half) : Alike (loadUnit r a v t) (loadUnit r a v u) := by
  cases r with
  | prog => exact ((h.frame ..).frame ..).registers (f := stage _ _)
  | eep => exact (h.frame ..).registers (f := stage _ _)

theorem Alike.commit (h : Alike t u) (r : Region) (a : Half) : Alike (commit r a t) (commit r a u) := by
  cases r <;> exact (h.frame ..).registers (f := clearPpb)

/-- The address and the value of a load hold no answer. -/
theorem Alike.loadNext (h : Alike t u) (r : Region) : Alike (loadNext r t) (loadNext r u) := by
  rw [Machine.loadNext, Machine.loadNext, h.reads State.pa, h.reads State.i, h.reads State.k, h.reads (hostValue · _)]
  exact (h.loadUnit ..).registers (f := advanceIndex)

theorem Alike.loadUnits (h : Alike t u) (r : Region) (m : Nat) : Alike (loadUnits r m t) (loadUnits r m u) := by
  induction m generalizing t u with
  | zero => exact h
  | succ m ih => exact ih (h.loadNext r)

theorem Alike.commitPage (h : Alike t u) (r : Region) : Alike (commitPage r t) (commitPage r u) := by
  rw [Machine.commitPage, Machine.commitPage, h.reads State.pa]
  exact (h.commit ..).waitFor _

theorem Alike.writeChunk (h : Alike t u) (r : Region) : Alike (writeChunk r t) (writeChunk r u) := by
  rw [Machine.writeChunk, Machine.writeChunk, h.reads (chunkSize r)]
  exact ((((h.registers (f := firstIndex)).loadUnits ..).registers (f := advanceValues _)).commitPage r).registers (f := nextPage r)

/-- The loop ends by `k` and COUNT, which hold no answer. -/
theorem Alike.writeLoop (h : Alike t u) (r : Region) (fuel : Nat) : Alike (writeLoop r fuel t) (writeLoop r fuel u) := by
  induction fuel generalizing t u with
  | zero => exact h
  | succ fuel ih =>
    rw [Machine.writeLoop, Machine.writeLoop, h.reads State.k, h.reads State.count]
    split
    · exact ih (h.writeChunk r)
    · exact h

theorem Alike.writePages (h : Alike t u) (r : Region) : Alike (writePages r t) (writePages r u) := by
  rw [Machine.writePages, Machine.writePages, h.reads State.count]
  exact (h.registers (f := beginPages)).writeLoop ..

/-! ## The unit read (R196, R197) -/

theorem Alike.readUnit (h : Alike t u) (r : Region) (a : Half) : Alike (readUnit r a t).2 (readUnit r a u).2 := by
  cases r with
  | prog => exact (h.frame ..).frame ..
  | eep => exact h.frame ..

/-- The units delivered may differ. -/
theorem Alike.deliver : Alike t u → ∀ v w, Alike (deliver v t) (deliver w u)
  | ⟨_, _, _, _, _, htrace⟩, _, _ => ⟨_, _, _, _, _, htrace⟩

/-- The address of a read holds no answer. -/
theorem Alike.readNext (h : Alike t u) (r : Region) : Alike (readNext r t) (readNext r u) := by
  have hlower := h.registers (f := lowerIndex)
  rw [Machine.readNext, Machine.readNext, hlower.reads State.addr, hlower.reads State.k]
  exact (hlower.readUnit ..).deliver ..

theorem Alike.readLoop (h : Alike t u) (r : Region) (n : Nat) : Alike (readLoop r n t) (readLoop r n u) := by
  induction n generalizing t u with
  | zero => exact h
  | succ n ih => exact ih (h.readNext r)

/-- The read buffer starts empty in both. -/
theorem Alike.beginReads : Alike t u → Alike (beginReads t) (beginReads u)
  | ⟨_, _, _, _, _, htrace⟩ => ⟨_, _, _, _, _, htrace⟩

theorem Alike.readUnits (h : Alike t u) (r : Region) : Alike (readUnits r t) (readUnits r u) := by
  rw [Machine.readUnits, Machine.readUnits, h.reads State.count]
  exact h.beginReads.readLoop ..

/-! ## ENTER and EXIT (R171, R172, R174) -/

theorem Alike.pulseStep (h : Alike t u) (q : PulseStep) : Alike (pulseStep t q) (pulseStep u q) := by
  unfold Machine.pulseStep
  split
  · exact (h.resetLine _).waitFor _
  · exact h.resetLine _

theorem Alike.pulse (h : Alike t u) (qs : List PulseStep) : Alike (qs.foldl Machine.pulseStep t) (qs.foldl Machine.pulseStep u) := by
  induction qs generalizing t u with
  | nil => exact h
  | cons q qs ih => exact ih (h.pulseStep q)

/-- ENTER up to its verdict. -/
theorem Alike.enterFront (h : Alike t u) :
    Alike (sendProgEnable (resetPulse (Machine.busEnable t))) (sendProgEnable (resetPulse (Machine.busEnable u))) := by
  have hpulse : Alike (resetPulse (Machine.busEnable t)) (resetPulse (Machine.busEnable u)) := by
    rw [resetPulse, resetPulse, h.busEnable.reads State.par]
    exact h.busEnable.pulse _
  exact hpulse.frame ..

theorem Alike.leaveProgramming (h : Alike t u) : Alike (leaveProgramming t) (leaveProgramming u) :=
  (h.resetLine true).busDisable.registers (f := ({ · with mode := .idle }))

/-- The mode after ENTER tells its verdict. -/
theorem enterVerdict_mode_iff : (enterVerdict t).mode = .programming ↔ t.resp.b2 = echoByte := by
  by_cases hecho : t.resp.b2 = echoByte
  · rw [enterVerdict_echo hecho]
    exact iff_of_true rfl hecho
  · rw [enterVerdict_noEcho hecho]
    exact iff_of_false nofun hecho

/-- The echo is the one answer that steers; where it gives both runs the same verdict, they end alike. -/
theorem Alike.enterVerdict (h : Alike t u) (hmode : (enterVerdict t).mode = (enterVerdict u).mode) :
    Alike (enterVerdict t) (enterVerdict u) := by
  have hsame : t.resp.b2 = echoByte ↔ u.resp.b2 = echoByte := by
    rw [← enterVerdict_mode_iff, ← enterVerdict_mode_iff, hmode]
  by_cases hecho : t.resp.b2 = echoByte
  · rw [enterVerdict_echo hecho, enterVerdict_echo (hsame.mp hecho)]
    exact (h.registers (f := ({ · with mode := .programming }))).complete ..
  · rw [enterVerdict_noEcho hecho, enterVerdict_noEcho (mt hsame.mpr hecho)]
    exact h.leaveProgramming.complete ..

/-! ## Every instruction -/

/-- A frame instruction sends the same image, which the parameters alone decide. -/
theorem exec_frame_alike {i : Instr} (hi : i.isFrame = true) (h : Alike t u) :
    ∃ t' u', exec i t = .next t' ∧ exec i u = .next u' ∧ Alike t' u' := by
  obtain ⟨b0, b1, b2, b3, himage, ht⟩ := exec_frame i t hi
  exact ⟨_, _, ht, exec_eq_frame_of_encode hi (h.reads State.par ▸ himage), h.frame ..⟩

/-- A fuse read sends the frame of FUSE_RD, a parameter. -/
theorem Alike.readFuse (h : Alike t u) (entry : FuseTable → FuseSel) :
    Alike (sendFuseSel (entry t.par.fuseRd) t) (sendFuseSel (entry u.par.fuseRd) u) := by
  rw [h.reads State.par]
  exact h.frame ..

/-- A guarded operation is the guard before a body that keeps alike states alike. -/
theorem guarded_body_keeps_alike {i : Instr} (hi : i.guarded = true) : ∃ body : State → State,
    (∀ s, exec i s = .next (guarded body s)) ∧ ∀ {t u}, Alike t u → Alike (body t) (body u) := by
  cases i
  case erase => exact ⟨eraseBody, fun _ => rfl, fun h => ((h.frame ..).waitFor _).complete ..⟩
  case poll => exact ⟨pollBody, fun _ => rfl, fun h => (h.frame ..).complete ..⟩
  case wrprog => exact ⟨wrprogBody, fun _ => rfl, fun h => (h.writePages _).complete ..⟩
  case wreep => exact ⟨wreepBody, fun _ => rfl, fun h => (h.writePages _).complete ..⟩
  case rdprog => exact ⟨rdprogBody, fun _ => rfl, fun h => (h.readUnits _).complete ..⟩
  case rdeep => exact ⟨rdeepBody, fun _ => rfl, fun h => (h.readUnits _).complete ..⟩
  case rdlock => exact ⟨rdlockBody, fun _ => rfl, fun h => (h.frame ..).complete ..⟩
  case rdsig => exact ⟨rdsigBody, fun _ => rfl, fun h => ((((h.frame ..).frame ..).frame ..).frame ..).complete ..⟩
  case rdcal => exact ⟨rdcalBody, fun _ => rfl, fun h => ((h.frame ..).frame ..).complete ..⟩
  case wrlock =>
    refine ⟨wrlockBody, fun _ => rfl, fun h => ?_⟩
    rw [wrlockBody, wrlockBody, h.reads State.d0]
    exact ((h.frame ..).waitFor _).complete ..
  case wrfuse =>
    refine ⟨wrfuseBody, fun _ => rfl, fun h => ?_⟩
    rw [wrfuseBody, wrfuseBody, h.reads State.d0, h.reads State.d1, h.reads State.d2]
    exact ((((((h.frame ..).waitFor _).frame ..).waitFor _).frame ..).waitFor _).complete ..
  case rdfuse =>
    exact ⟨rdfuseBody, fun _ => rfl, fun h => (((h.readFuse FuseTable.low).readFuse FuseTable.high).readFuse FuseTable.ext).complete ..⟩
  case xchg =>
    refine ⟨xchgBody, fun _ => rfl, fun h => ?_⟩
    rw [xchgBody, xchgBody, h.reads State.d0, h.reads State.d1, h.reads State.d2, h.reads State.d3]
    exact (h.frame ..).complete ..
  all_goals exact Bool.noConfusion hi

/-- Every instruction keeps alike states alike, ENTER if both runs reach the same verdict. -/
theorem exec_alike (i : Instr) (h : Alike t u) : ∃ t' u', exec i t = .next t' ∧ exec i u = .next u' ∧
    (i ≠ .enter ∨ t'.mode = u'.mode → Alike t' u') := by
  by_cases hg : i.guarded = true
  · obtain ⟨body, hexec, hbody⟩ := guarded_body_keeps_alike hg
    exact ⟨_, _, hexec t, hexec u, fun _ => h.guarded (hbody h)⟩
  obtain hf | rfl | rfl := isFrame_or_enter_or_exit hg
  · obtain ⟨t', u', ht, hu, h'⟩ := exec_frame_alike hf h
    exact ⟨t', u', ht, hu, fun _ => h'⟩
  · exact ⟨_, _, rfl, rfl, fun hsame => h.enterFront.enterVerdict (hsame.resolve_left (· rfl))⟩
  · exact ⟨_, _, rfl, rfl, fun _ => h.leaveProgramming.complete ..⟩

end

/-- Settles O46: states that differ in the environment alone are alike, and every instruction keeps them so. -/
theorem responsesSteerOnlyEnter : Obligations.ResponsesSteerOnlyEnter := by
  intro i s e
  have hstart : Alike s { s with env := e } := ⟨_, _, _, _, _, rfl⟩
  obtain ⟨t, u, ht, hu, halike⟩ := exec_alike i hstart
  exact ⟨t, u, ht, hu, fun hsame => ⟨(halike hsame).eq, (halike hsame).eventsSince s⟩⟩

end Sys2Proof.Machine
end

section
/-! PROOFS of the family 70_reset_and_hazards.md: the engine with nothing presented (R250), an operation abandoned by a hardware reset
(R251), and the event counts of every operation (R263). -/

namespace Sys2Proof.Machine

/-! ## Waiting, and a reset during an operation (R250, R251) -/

/-- Settles O5: it is the equation of `step` for nothing presented. -/
theorem engineWaitsForTheFirstOperation : Obligations.EngineWaitsForTheFirstOperation := fun _ => step_nothing

/-- Settles O3: `playEvents_prefix` says what the first `n` events leave, `kept_playEvents` what they do not touch; the reset
writes the registers and releases the line and the transport. -/
theorem resetDuringAnOperationKeepsWhatWasSent : Obligations.ResetDuringAnOperationKeepsWhatWasSent := by
  intro s r n rest hb
  obtain ⟨u, hu, habandoned⟩ := runAbandoned_next r n { s with host := rest }
  obtain ⟨htrace, henv, hwhole⟩ := playEvents_prefix r n _ u hu
  have hkept := kept_playEvents ((eventsSince s u).take n) (accept r { s with host := rest })
  have hstep := (step_resetDuring (s := { s with host := .resetDuring r n :: rest }) rfl hb).trans habandoned
  exact ⟨u, _, hu, hstep, htrace, rfl, rfl, rfl, rfl, rfl, ppbEmpty_replicate rfl, rfl, hkept.par, hkept.host,
    congrArg (fun e => (e.resetLine true).busDisable) henv,
    fun hn => congrArg (fun e => (e.resetLine true).busDisable) (hwhole hn)⟩

/-! ## Event counts (R263)

The events of a play are those of its commands (`play_trace`): four exchanges for a frame, one wait for a wait. So the counts of an
operation are counts in `opCmds`. -/

/-- Whether the command is a wait. -/
def Cmd.isWait : Cmd → Bool
  | .wait _ => true
  | .frame _ _ _ _ | .enable | .disable | .line _ => false

theorem countP_isXb_commands (cs : List Cmd) : (cs.flatMap Cmd.commands).countP Event.isXb = 4 * frameCount cs := by
  induction cs with
  | nil => rfl
  | cons c cs ih =>
    rw [List.flatMap_cons, List.countP_append, ih]
    cases c with
    | frame => exact Nat.add_comm 4 _
    | wait | enable | disable | line => exact Nat.zero_add _

theorem countP_isWait_commands (cs : List Cmd) : (cs.flatMap Cmd.commands).countP Event.isWait = cs.countP Cmd.isWait := by
  induction cs with
  | nil => rfl
  | cons c cs ih =>
    rw [List.flatMap_cons, List.countP_append, ih, List.countP_cons, Nat.add_comm]
    cases c <;> rfl

/-- A count of events that does not look at the answers is a count of the commands sent. -/
theorem countP_of_command {p : Event → Bool} (hp : ∀ e, p e.command = p e) {es : List Event} {cs : List Cmd}
    (h : es.map Event.command = cs.flatMap Cmd.commands) : es.countP p = (cs.flatMap Cmd.commands).countP p := by
  rw [← h, List.countP_map]
  exact List.countP_congr fun e _ => by rw [Function.comp_apply, hp]

/-- The events since `s`: `x` byte exchanges and `w` waits. -/
def Emitted (s t : State) (x w : Nat) : Prop :=
  (eventsSince s t).countP Event.isXb = x ∧ (eventsSince s t).countP Event.isWait = w

theorem emitted_of_play {s t : State} {cs : List Cmd} (h : t.bus = s.bus.play s.par cs) :
    Emitted s t (4 * frameCount cs) (cs.countP Cmd.isWait) := by
  obtain ⟨es, htrace, hcommands⟩ := play_trace s.par cs s.bus
  have hes : eventsSince s t = es := by
    have ht : t.trace = s.trace ++ es := (congrArg Bus.trace h).trans htrace
    rw [eventsSince, ht, List.drop_left]
  rw [Emitted, hes, ← countP_isXb_commands, ← countP_isWait_commands]
  exact ⟨countP_of_command (fun e => by cases e <;> rfl) hcommands, countP_of_command (fun e => by cases e <;> rfl) hcommands⟩

/-- In Programming a guarded operation, and EXIT, emit the events of `opCmds`. -/
theorem exec_emitted {i : Instr} {s : State} {x w : Nat} (hm : s.mode = .programming) (hi : i.guarded = true ∨ i = .exit)
    (hx : 4 * frameCount (opCmds i s) = x) (hw : (opCmds i s).countP Cmd.isWait = w) :
    ∃ t, exec i s = .next t ∧ Emitted s t x w := by
  subst hx hw
  obtain hg | rfl := hi
  · obtain ⟨t, ht, hran⟩ := exec_ran i s hg hm
    exact ⟨t, ht, emitted_of_play hran.bus⟩
  · obtain ⟨t, ht, -, -, -, hbus, -⟩ := exec_exit s
    exact ⟨t, ht, emitted_of_play hbus⟩

section
variable (r : Region) (a : Half) (v : Nat → Half) (n : Nat)

theorem countP_isWait_writeCmds : (writeCmds r a v n).countP Cmd.isWait = pageCount r n := by
  have h := countP_writeCmds (r := r) (p := Cmd.isWait) (m := 0) (c := 1) (fun _ _ => by cases r <;> rfl)
    (fun _ => by cases r <;> rfl) a v n
  rw [h, Nat.zero_mul, Nat.zero_add, Nat.one_mul]

theorem countP_isWait_readAllCmds : (readAllCmds r a n).countP Cmd.isWait = 0 :=
  List.countP_eq_zero.mpr fun c hc => by
    have hframe := readAllCmds_isFrame r a n c hc
    cases c with
    | frame => exact Bool.false_ne_true
    | wait | enable | disable | line => exact absurd hframe Bool.false_ne_true

end

/-- ENTER with the default RESET_SEQ: one frame and one wait, whatever the verdict, since its rollback has neither. -/
theorem exec_enter_emitted {s : State} (hq : s.par.resetSeq = { before := [], lastSettle := true }) :
    ∃ t, exec .enter s = .next t ∧ Emitted s t 4 1 := by
  have hfront : enterCmds s.par = [.enable, .line false, .wait .reset, .frame 0xAC 0x53 0x00 0x00] := by
    rw [enterCmds, hq]
    rfl
  obtain ⟨t, ht, -, -, -, ⟨-, hbus, -⟩ | ⟨-, hbus, -⟩⟩ := exec_enter s
  · exact ⟨t, ht, emitted_of_play (hfront ▸ hbus)⟩
  · exact ⟨t, ht, emitted_of_play (hfront ▸ hbus)⟩

/-- Settles O45, row by row of the table: a fixed schedule is counted as it stands, a page write and a unit read by their lemmas. -/
theorem eventCountsOfEveryOperation : Obligations.EventCountsOfEveryOperation := by
  refine ⟨fun s n hm hn => ?_, fun s => exec_enter_emitted⟩
  subst hn
  simp only [List.forall_mem_cons, List.not_mem_nil, false_implies, implies_true, and_true]
  refine ⟨?exit, ?erase, ?poll, ?wrprog, ?wreep, ?rdprog, ?rdeep, ?rdlock, ?wrlock, ?rdsig, ?wrfuse, ?rdfuse, ?rdcal, ?xchg⟩
  case exit => exact exec_emitted hm (.inr rfl) rfl rfl
  case erase | poll | rdlock | wrlock | rdsig | wrfuse | rdfuse | rdcal | xchg => exact exec_emitted hm (.inl rfl) rfl rfl
  case wrprog =>
    exact exec_emitted hm (.inl rfl) (congrArg (4 * ·) (frameCount_writeCmds .prog ..)) (countP_isWait_writeCmds ..)
  case wreep =>
    have hframes := frameCount_writeCmds .eep s.addr (unitValue .eep s.values s.draws) s.count.toNat
    rw [Region.unitBytes, Nat.one_mul] at hframes
    exact exec_emitted hm (.inl rfl) (congrArg (4 * ·) hframes) (countP_isWait_writeCmds ..)
  case rdprog =>
    have hframes : 4 * frameCount (opCmds .rdprog s) = 8 * s.count.toNat := by
      rw [opCmds, frameCount_readAllCmds, Region.unitBytes, ← Nat.mul_assoc]
    exact exec_emitted hm (.inl rfl) hframes (countP_isWait_readAllCmds ..)
  case rdeep =>
    have hframes : 4 * frameCount (opCmds .rdeep s) = 4 * s.count.toNat := by
      rw [opCmds, frameCount_readAllCmds, Region.unitBytes, Nat.one_mul]
    exact exec_emitted hm (.inl rfl) hframes (countP_isWait_readAllCmds ..)

end Sys2Proof.Machine
end
